-- ==== Sys2Proof/Word.lean ====
section
/-! DEFINITION. The word types of the engine (00_scope.md R10; 10_state.md R21, R26) and the record of a command
word's operand fields (30_encoding.md R70). -/

namespace Sys2Proof

/-- A host register, a host address or a frequency: 32 bits (10_state.md R21, 20_memory.md R50). -/
abbrev Word := BitVec 32

/-- A data byte (00_scope.md R10). -/
abbrev Byte := BitVec 8

/-- A byte count or an index in a buffer: 16 bits (00_scope.md R9, `COUNT_W`). -/
abbrev Count := BitVec 16

/-- A logical interface identifier: 4 bits (30_encoding.md R70). -/
abbrev Ifid := BitVec 4

/-- A slave address: 7 bits (00_scope.md R10). -/
abbrev SlaveAddr := BitVec 7

/-- The operand fields of a command word (30_encoding.md R70, R72). Every command's word holds all of them; which
ones a command reads is 30_encoding.md R73. -/
structure Fields where
  stop  : Bool
  addr  : SlaveAddr
  ifid  : Ifid
  count : Count
  deriving DecidableEq, Repr

end Sys2Proof
end

