-- ==== Sys2Proof/Config.lean ====
section
/-! DEFINITION. What an implementation fixes (00_scope.md R9, R11; 20_memory.md R53, R66), the vocabulary of the event
history (10_state.md R30 to R35), and the oracle's free values (10_state.md R36). -/

namespace Sys2Proof

/-- A status condition the engine samples (10_state.md R31). -/
inductive Cond where
  | sb | addr | af | txe | btf | rxne | stopclr | idle
  deriving DecidableEq, Repr

/-- The error pairs `(category, check)`: only these occur (40_bounded_poll.md R95). -/
inductive Err where
  | argIfidRange | argCountZero | argHzMax
  | timeoutSb | timeoutAddr | timeoutTxeData | timeoutTxeFinal | timeoutRxne | timeoutBtfA | timeoutBtfB
  | timeoutStopclr | timeoutIdle
  | nackAddr | nackAfFinal
  deriving DecidableEq, Repr

/-- The result a command ends with (40_bounded_poll.md R95, R96). -/
inductive Result where
  | ok (n : Count)
  | err (e : Err)
  deriving DecidableEq, Repr

/-- An event of the history (10_state.md R30, R31, R33, R35). -/
inductive Event where
  /-- `Accept(w)`. -/
  | accept (w : Word)
  /-- `START`. -/
  | start
  /-- `STOP`. -/
  | stop
  /-- `ACK:=v`. -/
  | ack (v : Bool)
  /-- `POS:=v`. -/
  | pos (v : Bool)
  /-- `AF:=0`. -/
  | clearAf
  /-- `DR<-b`. -/
  | drWrite (b : Byte)
  /-- `DR->b`. -/
  | drRead (b : Byte)
  /-- `SR1?`. -/
  | sr1
  /-- `SR2?`. -/
  | sr2
  /-- `?c=v`. -/
  | sample (c : Cond) (v : Bool)
  /-- `CLKEN`. -/
  | clken
  /-- `PRST`. -/
  | prst
  /-- `PINS`. -/
  | pins
  /-- `TIMING(hz)`. -/
  | timing (hz : Word)
  /-- `PDIS`. -/
  | pdis
  /-- `M[a]->v`. -/
  | memRead (a : Word) (v : Byte)
  /-- `M[a]<-v`. -/
  | memWrite (a : Word) (v : Byte)
  /-- `Done(r)`. -/
  | done (r : Result)
  deriving DecidableEq, Repr

/-- An event with the `ifid` of the command that performed it (10_state.md R35). -/
structure HistEntry where
  ifid : Ifid
  ev   : Event
  deriving DecidableEq, Repr

/-- Where a READ of three or more bytes asserts STOP (00_scope.md R9, 43_read.md R163). -/
inductive StopPoint where
  | afterAckOff
  | afterBtfB
  deriving DecidableEq, Repr

/-- A Physical Interface Descriptor `(regs, clkEn, sda, scl, af)` (00_scope.md R11); `clkEn` is a register and a bit. -/
structure Descriptor where
  regs     : Nat
  clkEnReg : Nat
  clkEnBit : Nat
  sda      : Nat
  scl      : Nat
  af       : Nat
  deriving DecidableEq, Repr

/-- A range of host memory that refuses some accesses (20_memory.md R53: the host memory "admits or refuses each
access"). -/
structure Region where
  base   : Nat
  size   : Nat
  reads  : Bool
  writes : Bool
  deriving DecidableEq, Repr

/-- The parameters a model takes as arguments (00_scope.md R9). `N_IF` is the number of rows of the registry. -/
structure Platform where
  /-- `REGISTRY`, row `i` for interface `i`. -/
  registry    : List Descriptor
  /-- `MAX_HZ`. -/
  maxHz       : Nat
  /-- `SHORT_BUDGET`. -/
  shortBudget : Nat
  /-- `LONG_BUDGET`. -/
  longBudget  : Nat
  /-- `READ3_STOP_POINT`. -/
  read3Stop   : StopPoint
  /-- `ENGINE_BASE` (20_memory.md R66). -/
  engineBase  : Word
  /-- Where the host memory does not admit every access (20_memory.md R53). -/
  regions     : List Region
  deriving DecidableEq, Repr

/-- `N_IF` (00_scope.md R9). -/
def Platform.nIf (p : Platform) : Nat := p.registry.length

/-- The platform in force at `State.reset`: the parameters of 95_test_vectors.md section 0. DESIGN CHOICE, unsafe: the
spec leaves them open (notes/assumptions/4.md). -/
def Platform.reference : Platform where
  registry    := [⟨0, 0, 0, 0, 1, 0⟩, ⟨1, 0, 1, 2, 3, 0⟩]
  maxHz       := 400000
  shortBudget := 3
  longBudget  := 5
  read3Stop   := .afterAckOff
  engineBase  := 0x40000000
  regions     := []

/-- The oracle's answer to a `Sample(c)` no script answers: a free value of the free choice, the history so far and the
condition (10_state.md R31, R36). Safe: nothing is known of it (notes/assumptions/3.md). -/
opaque Config.oracleBit : Nat → List HistEntry → Cond → Bool

/-- The oracle's answer to a `P.readDR()` no script answers (10_state.md R32, R36). Safe (notes/assumptions/3.md). -/
opaque Config.oracleByte : Nat → List HistEntry → Byte

end Sys2Proof
end

