-- ==== Sys2Proof/Syntax.lean ====
section
/-! DEFINITION. The seven commands (30_encoding.md R71): one constructor per row of spec/opcode_table.json, each with
the operand fields of its word (30_encoding.md R70). -/

namespace Sys2Proof

/-- A command of the engine. The operand registers `HZ` and `BUF` are read at acceptance (30_encoding.md R72), so they
are no part of the command's word. -/
inductive Instr where
  | openIf   (f : Fields)
  | close    (f : Fields)
  | setFreq  (f : Fields)
  | write    (f : Fields)
  | read     (f : Fields)
  | writeRaw (f : Fields)
  | genStop  (f : Fields)
  deriving DecidableEq, Repr

/-- The operand fields of a command's word. -/
def Instr.fields : Instr → Fields
  | .openIf f | .close f | .setFreq f | .write f | .read f | .writeRaw f | .genStop f => f

/-- `cur.stop` (30_encoding.md R72). -/
def Instr.stop (i : Instr) : Bool := i.fields.stop

/-- `cur.addr` (30_encoding.md R72). -/
def Instr.addr (i : Instr) : SlaveAddr := i.fields.addr

/-- `cur.ifid` (30_encoding.md R72). -/
def Instr.ifid (i : Instr) : Ifid := i.fields.ifid

/-- `cur.count` (30_encoding.md R72). -/
def Instr.count (i : Instr) : Count := i.fields.count

end Sys2Proof
end

