-- ==== Sys2Proof/WellFormed.lean ====
section
/-! DEFINITION. Which commands have a meaning with given operand registers. The fields of a command's word are in
range by their types; what is left to check is 30_encoding.md R76: a frequency of zero, and a buffer that wraps
(20_memory.md R52). -/

namespace Sys2Proof

/-- The command programs a frequency (30_encoding.md R73: OPEN and SETFREQ use `HZ`). -/
def Instr.usesHz : Instr → Bool
  | .openIf _ | .setFreq _ => true
  | .close _ | .write _ | .read _ | .writeRaw _ | .genStop _ => false

/-- The command accesses the buffer (30_encoding.md R73: WRITE, READ and WRITERAW use `BUF` and `COUNT`). -/
def Instr.usesBuf : Instr → Bool
  | .write _ | .read _ | .writeRaw _ => true
  | .openIf _ | .close _ | .setFreq _ | .genStop _ => false

/-- First check: an OPEN or SETFREQ has a nonzero frequency (30_encoding.md R76). -/
def Instr.freqGiven (i : Instr) (hz : Word) : Bool := !(i.usesHz && hz == 0)

/-- Second check: the last buffer byte has a 32-bit address (20_memory.md R52). -/
def Instr.bufferFits (i : Instr) (buf : Word) : Bool :=
  !(i.usesBuf && decide (2 ^ 32 < buf.toNat + i.count.toNat))

/-- The command has a meaning with these operand registers (30_encoding.md R76). -/
def Instr.wellFormed (i : Instr) (hz buf : Word) : Bool := i.freqGiven hz && i.bufferFits buf

end Sys2Proof
end

