-- ==== Sys2Proof/Decode.lean ====
section
/-! DEFINITION. The decoder of a command word, the refusals of 30_encoding.md R76, and the encoder written from the
same format (30_encoding.md R70, R71). -/

namespace Sys2Proof

/-- Why a command word, or its operand values, have no meaning (30_encoding.md R76). -/
inductive DecodeError where
  /-- `OP = 000`. -/
  | reservedOp
  /-- Bit 11 is set. -/
  | reservedBit11
  /-- OPEN or SETFREQ with `HZ = 0`. -/
  | zeroFrequency
  /-- A WRITE, WRITERAW or READ whose buffer range wraps (20_memory.md R52). -/
  | bufferWraps
  deriving DecidableEq, Repr

/-- `OP`, bits 2:0 (30_encoding.md R70). -/
def opField (w : Word) : BitVec 3 := w.extractLsb' 0 3

/-- The operand fields of a command word (30_encoding.md R70, R72). -/
def operandFields (w : Word) : Fields where
  stop  := w[3]
  addr  := w.extractLsb' 4 7
  ifid  := w.extractLsb' 12 4
  count := w.extractLsb' 16 16

/-- The command a word stands for (30_encoding.md R71), or the reason it has none (R76). -/
def decode (w : Word) : Except DecodeError Instr :=
  if w[11] then .error .reservedBit11
  else match (opField w).toNat with
    | 1 => .ok (.openIf (operandFields w))
    | 2 => .ok (.close (operandFields w))
    | 3 => .ok (.setFreq (operandFields w))
    | 4 => .ok (.write (operandFields w))
    | 5 => .ok (.read (operandFields w))
    | 6 => .ok (.writeRaw (operandFields w))
    | 7 => .ok (.genStop (operandFields w))
    | _ => .error .reservedOp

/-- Why a decoded command is refused with these operand registers, if it is (30_encoding.md R76, 20_memory.md R52):
with `count = 0` no buffer byte is touched, so nothing wraps. -/
def refusedOperands (i : Instr) (hz buf : Word) : Option DecodeError :=
  match i with
  | .openIf _ | .setFreq _ => if hz = 0 then some .zeroFrequency else none
  | .write f | .read f | .writeRaw f =>
    if f.count ≠ 0 ∧ buf.toNat + f.count.toNat - 1 > 2 ^ 32 - 1 then some .bufferWraps else none
  | .close _ | .genStop _ => none

/-- `OP` of a command (30_encoding.md R71). -/
def opcode : Instr → BitVec 3
  | .openIf _   => 1
  | .close _    => 2
  | .setFreq _  => 3
  | .write _    => 4
  | .read _     => 5
  | .writeRaw _ => 6
  | .genStop _  => 7

/-- A word from its fields, each at its place: COUNT 31:16, IFID 15:12, bit 11 zero, ADDR 10:4, STOP 3, OP 2:0
(30_encoding.md R70). -/
def packWord (f : Fields) (op : BitVec 3) : Word :=
  f.count.setWidth 32 <<< 16 ||| f.ifid.setWidth 32 <<< 12 ||| f.addr.setWidth 32 <<< 4 |||
    (BitVec.ofBool f.stop).setWidth 32 <<< 3 ||| op.setWidth 32

/-- The command word of a command. -/
def encode (i : Instr) : Word := packWord i.fields (opcode i)

/-- The command the decoder reads from a table row's bits. A command is one 32-bit word (30_encoding.md R75), so the
row's bits are the word's. -/
def decodeTableWord (nbits w : Nat) : Option Instr :=
  match decode (BitVec.ofNat 32 (w % 2 ^ nbits)) with
  | .ok i => some i
  | .error _ => none

end Sys2Proof
end

