-- ==== Sys2Proof/Machine/State.lean ====
section
/-! DEFINITION. The state of the engine, its host and its environment as plain data (10_state.md R20), the reasons a
step stops (60_exceptions.md R193), and the state after reset (10_state.md R39). -/

namespace Sys2Proof.Machine

/-- `phase` (10_state.md R26). -/
inductive Phase where
  | idle
  | run
  deriving DecidableEq, Repr

/-- `cur`: the command latched at acceptance with its operand registers (10_state.md R26, 30_encoding.md R72). -/
structure Cur where
  cmd : Instr
  hz  : Word
  buf : Word
  deriving DecidableEq, Repr

/-- `upc`: the points of the micro-programs (10_state.md R27). A point stands before its next action; checks, arithmetic
and branches between two actions belong to the action that follows them (10_state.md R26). A poll has two points: its
first sample (`…Start`) and the loop. -/
inductive Upc where
  /-- Every command: the interface check and the first action. -/
  | entry
  /-- OPEN (41_lifecycle.md R110). -/
  | openReset | openPins
  /-- SETFREQ_BODY (R113). -/
  | freqBody | freqPoll | freqTiming
  /-- CLOSE (R116): the poll, `PDIS` after an idle bus, and `finish` after a poll that failed. -/
  | closePoll | closeDisable | closeTimeout
  /-- READ's second action (43_read.md R160). -/
  | setAck
  /-- The start and address phase of WRITE and READ (42_write.md R130, 43_read.md R160). -/
  | clearAf | start | sbStart | sbPoll | addrByte | addrStart | addrPoll | afNack | afTimeout
  /-- WRITE: the address-acknowledged condition is cleared (42_write.md R133). -/
  | wrSr1 | wrSr2
  /-- DATA_OUT (42_write.md R134). -/
  | outInit | txePoll | outRead | outSend | outNext | outLoop | outReadB | outSendB | outNextB
  | txeFinalPoll | outAf | outNack | outStop
  /-- A stop that was asserted: wait until it clears (42_write.md R137, R145; 43_read.md R164). -/
  | stopStart | stopPoll
  /-- READ after the acknowledged address: the sub-protocol is chosen by the count (43_read.md R160). -/
  | rdSelect
  /-- READ_1 (43_read.md R161). -/
  | r1Stop | r1Sr1 | r1Sr2 | r1Start | r1Poll | r1Read | r1Store
  /-- READ_2 (43_read.md R162). -/
  | r2Pos | r2Sr1 | r2Sr2 | r2Start | r2Poll | r2Stop | r2Read1 | r2Store1 | r2Read2 | r2Store2
  /-- READ_N (43_read.md R163). -/
  | rnSr2 | rnInit | rnPoll | rnRead | rnStore | rnNext | rnBtfAPoll | rnAckOff | rnStopA | rnReadA | rnStoreA
  | rnBtfBStart | rnBtfBPoll | rnStopB | rnReadB | rnStoreB | rnReadC | rnStoreC
  /-- READ_END (43_read.md R164). -/
  | readEnd
  /-- `finish(Ok(n))`. -/
  | finishOk
  deriving DecidableEq, Repr

/-- A host action. The host stores and loads the register block and host memory (20_memory.md R50), and may reset the
engine (70_reset_and_hazards.md R222). `engine` gives the engine a turn; `await` is the wait loop of a call
(30_encoding.md R81); `skipIfNeg k` leaves out the next `k` actions when the loaded result is negative (R82). -/
inductive HostOp where
  | regStore (a : Word) (size : Nat) (v : Word)
  | regLoad (a : Word) (size : Nat)
  | memStore (a : Word) (v : Byte)
  | memLoad (a : Word)
  | engineReset
  | engine
  | await
  | skipIfNeg (k : Nat)
  deriving DecidableEq, Repr

/-- The host memory: addresses strictly rising, no entry of value 0 (what an unlisted address reads as). -/
abbrev Memory := List Host.Cell

/-- The state: the spec's `(regs, seq, cfg, hist)` (10_state.md R20), the host memory (20_memory.md R53), the parameters
(00_scope.md R9), and the model's own fields that hold the oracle and the host. -/
structure State where
  /-- `HZ` (10_state.md R21, R22). -/
  hz       : Word
  /-- `BUF` (10_state.md R21, R22). -/
  buf      : Word
  /-- `RESULT` (10_state.md R21, R24). -/
  result   : Word
  /-- `phase` (10_state.md R26). -/
  phase    : Phase
  /-- `cur` (10_state.md R26). -/
  cur      : Cur
  /-- `upc` (10_state.md R26, R27). -/
  upc      : Upc
  /-- `rem`: bytes still to transfer (10_state.md R26). -/
  rem      : Count
  /-- `idx`: index of the next byte (10_state.md R26). -/
  idx      : Count
  /-- `pcnt`: samples taken by the current poll (10_state.md R26). -/
  pcnt     : Nat
  /-- `b` of the pseudocode, between the two actions that move a byte (20_memory.md R54; notes/assumptions/7.md). -/
  dat      : Byte
  /-- `cfg[i].hz` (10_state.md R29). -/
  cfg      : Vector (Option Word) 16
  /-- `hist`, oldest event first (10_state.md R35). -/
  hist     : List HistEntry
  /-- The host memory (20_memory.md R50, R53). -/
  mem      : Memory
  /-- The parameters; no step writes them (00_scope.md R9). -/
  platform : Platform
  /-- The model's own: the oracle's answers to the coming samples (10_state.md R36). -/
  bits     : List Bool
  /-- The model's own: the oracle's answers to the coming data-register reads. -/
  bytes    : List Byte
  /-- The model's own: the oracle's free choice after its scripts. -/
  seed     : Nat
  /-- The model's own: what the host does next. -/
  host     : List HostOp
  /-- The model's own: the value of the host's last load. -/
  hostVal  : Word
  deriving DecidableEq, Repr

/-- The reasons the machine stops: none is a final state of the engine (60_exceptions.md R193). -/
inductive Fault where
  /-- A command is issued while another runs: raised by a host write of `CMD` while busy, and by a meaning asked for a
  command other than the running one (10_state.md R23). Safe. -/
  | cmdWhileBusy
  /-- The host accesses a byte of the running command's buffer: raised by a host load or store of memory (20_memory.md
  R60). Safe. -/
  | bufRace
  /-- The spec's "stuck": the host memory refuses an access, raised by MemRead and MemWrite and by the host's own loads
  and stores (20_memory.md R53). Safe. -/
  | memRefused
  /-- `upc` is no point of the running command's micro-program: raised by the meanings, in states no run reaches
  (notes/assumptions/10.md). Safe. -/
  | foreignPoint
  deriving DecidableEq, Repr

/-- What lies outside the model: the host program or the configuration is refused (60_exceptions.md R193). -/
inductive Refusal where
  /-- The command word or its operand values have no meaning: raised by a write of `CMD` (30_encoding.md R76). Safe. -/
  | command (e : DecodeError)
  /-- A narrow, wide or misaligned access to the register block: raised by the host's loads and stores of registers
  (20_memory.md R56). Safe. -/
  | registerAccess
  /-- The platform breaks a constraint of 00_scope.md R9 or 20_memory.md R67: raised by every step. Safe. -/
  | badPlatform
  /-- A command without a meaning: raised by no arm, since every command has one. Safe. -/
  | notModelled (mnemonic : String)
  deriving DecidableEq, Repr

/-- The outcome of one step of this machine. -/
abbrev Step := Host.Outcome State Fault Refusal

/-- The machine right after reset (10_state.md R39). `cur`, `upc`, `rem`, `idx`, `pcnt` and `dat` have no reset value in
the spec: DESIGN CHOICE, unsafe (notes/assumptions/5.md). Memory: notes/assumptions/6.md. Platform:
notes/assumptions/4.md. The model's own fields: notes/assumptions/25.md. -/
def State.reset : State where
  hz       := 0
  buf      := 0
  result   := 0
  phase    := .idle
  cur      := ⟨.genStop ⟨false, 0, 0, 0⟩, 0, 0⟩
  upc      := .entry
  rem      := 0
  idx      := 0
  pcnt     := 0
  dat      := 0
  cfg      := Vector.replicate 16 none
  hist     := []
  mem      := []
  platform := Platform.reference
  bits     := []
  bytes    := []
  seed     := 0
  host     := []
  hostVal  := 0

end Sys2Proof.Machine
end

