-- ==== Sys2Proof/Machine/Flags.lean ====
section
/-! DEFINITION. The pure functions over results, status conditions and the history: the result encoding
(40_bounded_poll.md R95, R96), the budget of a poll (R91), STATUS (10_state.md R25), and the peripheral's latches as the
history shows them (10_state.md R34). -/

namespace Sys2Proof.Machine

/-- The category number of an error (40_bounded_poll.md R95): ARG 1, TIMEOUT 2, NACK 3. -/
def errCategory : Err → Nat
  | .argIfidRange | .argCountZero | .argHzMax => 1
  | .timeoutSb | .timeoutAddr | .timeoutTxeData | .timeoutTxeFinal | .timeoutRxne | .timeoutBtfA | .timeoutBtfB
  | .timeoutStopclr | .timeoutIdle => 2
  | .nackAddr | .nackAfFinal => 3

/-- The check number of an error (40_bounded_poll.md R95). -/
def errCheck : Err → Nat
  | .argIfidRange    => 1
  | .argCountZero    => 2
  | .argHzMax        => 3
  | .timeoutSb       => 4
  | .timeoutAddr     => 5
  | .timeoutTxeData  => 6
  | .timeoutTxeFinal => 7
  | .timeoutRxne     => 9
  | .timeoutBtfA     => 10
  | .timeoutBtfB     => 11
  | .timeoutStopclr  => 12
  | .timeoutIdle     => 13
  | .nackAddr        => 5
  | .nackAfFinal     => 8

/-- The integer a result stands for: the count, or `-(16 * cat + chk)` (40_bounded_poll.md R96). -/
def resultValue : Result → Int
  | .ok n  => n.toNat
  | .err e => -(16 * errCategory e + errCheck e : Nat)

/-- `enc(r)`: the 32-bit two's-complement word of a result (40_bounded_poll.md R96). -/
def encResult (r : Result) : Word := BitVec.ofInt 32 (resultValue r)

/-- The budget of a poll on a condition: the long one for `IDLE`, the short one for every other (40_bounded_poll.md
R91). -/
def budget (p : Platform) : Cond → Nat
  | .idle => p.longBudget
  | .sb | .addr | .af | .txe | .btf | .rxne | .stopclr => p.shortBudget

/-- `STATUS`: bit 0 is `BUSY`, 1 exactly when `phase = RUN`; the other bits read 0 (10_state.md R21, R25). -/
def status (s : State) : Word :=
  match s.phase with
  | .idle => 0
  | .run  => 1

/-- What an event leaves in the acknowledge-enable latch, if it writes it: `TIMING` counts as `ACK:=1` (10_state.md
R34). -/
def ackWritten : Event → Option Bool
  | .ack v    => some v
  | .timing _ => some true
  | _         => none

/-- What an event leaves in the byte-position latch, if it writes it (10_state.md R34). -/
def posWritten : Event → Option Bool
  | .pos v => some v
  | _      => none

/-- The last value the history's events of one interface leave in something, if any does. -/
def lastWritten {α : Type} (f : Event → Option α) (i : Ifid) : List HistEntry → Option α
  | []     => none
  | h :: t => (lastWritten f i t).or (if h.ifid = i then f h.ev else none)

/-- `ackLatch(ifid)`: `none` is the spec's "unknown" (10_state.md R34). -/
def ackLatch (h : List HistEntry) (i : Ifid) : Option Bool := lastWritten ackWritten i h

/-- `posLatch(ifid)`: `none` is the spec's "unknown" (10_state.md R34). -/
def posLatch (h : List HistEntry) (i : Ifid) : Option Bool := lastWritten posWritten i h

/-- The frequency a `TIMING` event programs (10_state.md R33). -/
def timingWritten : Event → Option Word
  | .timing hz => some hz
  | _          => none

/-- The frequency of an interface's last `TIMING` event, of which `cfg[ifid].hz` is the record (41_lifecycle.md
R112). -/
def lastTiming (h : List HistEntry) (i : Ifid) : Option Word := lastWritten timingWritten i h

end Sys2Proof.Machine
end

