-- ==== Sys2Proof/Machine/Operands.lean ====
section
/-! DEFINITION. The operand forms: which fields a command reads (30_encoding.md R73), the address byte (R78), the
addresses of buffer bytes (20_memory.md R52, R54), and the constraints on the parameters (00_scope.md R9, 20_memory.md
R53, R67). -/

namespace Sys2Proof.Machine

/-- Two commands have the same `OP` and agree on every field of the word their `OP` reads (30_encoding.md R73). -/
def sameOperands : Instr → Instr → Prop
  | .openIf f,   .openIf g   => f.ifid = g.ifid
  | .close f,    .close g    => f.ifid = g.ifid
  | .setFreq f,  .setFreq g  => f.ifid = g.ifid
  | .write f,    .write g    => f = g
  | .read f,     .read g     => f = g
  | .writeRaw f, .writeRaw g => f.ifid = g.ifid ∧ f.count = g.count ∧ f.stop = g.stop
  | .genStop f,  .genStop g  => f.ifid = g.ifid
  | _,           _           => False

/-- The address byte `((addr << 1) | dir)[7:0]`; `dir` is true for READ (30_encoding.md R78). -/
def addressByte (addr : SlaveAddr) (dir : Bool) : Byte :=
  addr.setWidth 8 <<< 1 ||| (BitVec.ofBool dir).setWidth 8

/-- The host address of buffer byte `k`: `BUF + k` (20_memory.md R52). -/
def bufAddr (buf : Word) (k : Count) : Word := buf + k.setWidth 32

/-- A host address is a byte of the command's buffer `[BUF, BUF + count)` (20_memory.md R52, R60). A command that uses
no buffer has none (30_encoding.md R73). -/
def inBuffer (c : Cur) (a : Word) : Bool :=
  (c.cmd.usesBuf && decide (c.buf.toNat ≤ a.toNat)) && decide (a.toNat < c.buf.toNat + c.cmd.count.toNat)

/-- The region holds the address. -/
def regionHolds (r : Region) (a : Nat) : Bool := decide (r.base ≤ a) && decide (a < r.base + r.size)

/-- The host memory admits a read of the byte (20_memory.md R53). -/
def admitsRead (p : Platform) (a : Word) : Bool := p.regions.all fun r => !regionHolds r a.toNat || r.reads

/-- The host memory admits a write of the byte (20_memory.md R53). -/
def admitsWrite (p : Platform) (a : Word) : Bool := p.regions.all fun r => !regionHolds r a.toNat || r.writes

/-- Two rows of the registry share neither their register block nor any pin, so each has its own bus (20_memory.md R67,
92_eei_decisions.md D1). DEDUCED, safe: R67's "distinct pin pairs" is read as pairs with no pin in common
(notes/assumptions/26.md). -/
def apart (d e : Descriptor) : Bool :=
  decide (d.regs ≠ e.regs) && decide (d.sda ≠ e.sda ∧ d.sda ≠ e.scl ∧ d.scl ≠ e.sda ∧ d.scl ≠ e.scl)

/-- The parameters keep the constraints of 00_scope.md R9 (`1 <= N_IF <= 16`, `SHORT_BUDGET >= 1`,
`LONG_BUDGET >= SHORT_BUDGET`) and of 20_memory.md R67 (any two rows of the registry are apart). -/
def platformOk (p : Platform) : Bool :=
  decide (1 ≤ p.nIf ∧ p.nIf ≤ 16 ∧ 1 ≤ p.shortBudget ∧ p.shortBudget ≤ p.longBudget) &&
    decide (p.registry.Pairwise fun d e => apart d e = true)

/-- The register block an event's primitive or sample is directed to: `REGISTRY[ifid].regs` (10_state.md R30, 00_scope.md
R11). -/
def eventRegs (p : Platform) (h : HistEntry) : Option Nat := p.registry[h.ifid.toNat]?.map fun d => d.regs

/-- The descriptor fields handed to an event's primitive: `clkEn` to `ClockEnable`, `sda`, `scl` and `af` to
`ConfigurePins` (00_scope.md R11, 10_state.md R33). -/
def eventFields (p : Platform) (h : HistEntry) : Option (List Nat) :=
  p.registry[h.ifid.toNat]?.map fun d =>
    match h.ev with
    | .clken => [d.clkEnReg, d.clkEnBit]
    | .pins  => [d.sda, d.scl, d.af]
    | _      => []

/-- The constant offsets of the register block (10_state.md R21). -/
def offCmd : Nat := 0x00
/-- `HZ`. -/
def offHz : Nat := 0x04
/-- `BUF`. -/
def offBuf : Nat := 0x08
/-- `RESULT`. -/
def offResult : Nat := 0x0C
/-- `STATUS`. -/
def offStatus : Nat := 0x10

/-- The offset of a host address in the register block at `ENGINE_BASE` (20_memory.md R50, R66). -/
def regOffset (p : Platform) (a : Word) : Nat := (a - p.engineBase).toNat

/-- The host address of the register at an offset. -/
def regAddr (p : Platform) (off : Nat) : Word := p.engineBase + BitVec.ofNat 32 off

/-- An access to the register block is an aligned 32-bit word (20_memory.md R56). -/
def regAccessOk (p : Platform) (a : Word) (size : Nat) : Bool := decide (size = 4) && decide (regOffset p a % 4 = 0)

end Sys2Proof.Machine
end

