-- ==== Sys2Proof/Machine/Ops.lean ====
section
/-! DEFINITION. The named operations the micro-programs are made of: host memory (20_memory.md R53), events and
primitives (10_state.md R30 to R33), samples and the bounded poll (40_bounded_poll.md R90), `finish` and `raise` (R97),
the interface check (R93), acceptance (10_state.md R26) and engine reset (70_reset_and_hazards.md R220, R222). -/

namespace Sys2Proof.Machine

/-! ## Host memory -/

/-- The byte at an address; an unlisted address reads 0 (DESIGN CHOICE, unsafe: notes/assumptions/6.md). -/
def memGet : Memory → Nat → Byte
  | [], _          => 0
  | (b, v) :: t, a => if b = a then v else memGet t a

/-- The memory with one byte written, in canonical form: a byte of value 0 is not listed. -/
def memSet : Memory → Nat → Byte → Memory
  | [], a, v          => if v = 0 then [] else [(a, v)]
  | (b, w) :: t, a, v =>
    if a < b then (if v = 0 then (b, w) :: t else (a, v) :: (b, w) :: t)
    else if a = b then (if v = 0 then t else (a, v) :: t)
    else (b, w) :: memSet t a v

/-- Every listed address is above `lo`, the addresses rise strictly, and no listed byte is 0. -/
def memAbove : Nat → Memory → Bool
  | _, []          => true
  | lo, (b, v) :: t => decide (lo ≤ b) && (decide (v ≠ 0) && memAbove (b + 1) t)

/-- The canonical form: strictly rising 32-bit addresses (20_memory.md R50), no listed byte of value 0. -/
def Memory.wf (m : Memory) : Bool := memAbove 0 m && m.all fun c => decide (c.1 < 2 ^ 32)

/-! ## Events and primitives -/

/-- Append an event of the running command to the history (10_state.md R35). -/
def emit (e : Event) (s : State) : State := { s with hist := s.hist ++ [⟨s.cur.cmd.ifid, e⟩] }

/-- One step that performs a control primitive and goes to the next point (10_state.md R30, R33). -/
def act (e : Event) (nxt : Upc) (s : State) : Step := .next { emit e s with upc := nxt }

/-- The oracle's answer to a sample of `c` now: its script's next answer, else a free value (10_state.md R31, R36). -/
def answer (c : Cond) (s : State) : Bool :=
  match s.bits with
  | v :: _ => v
  | []     => Config.oracleBit s.seed s.hist c

/-- The oracle's answer to a data-register read now (10_state.md R32, R36). -/
def answerByte (s : State) : Byte :=
  match s.bytes with
  | b :: _ => b
  | []     => Config.oracleByte s.seed s.hist

/-- The state after `Sample(c)`: the event `?c=v`, and the answer used up (10_state.md R31). -/
def sampled (c : Cond) (s : State) : State := { emit (.sample c (answer c s)) s with bits := s.bits.tail }

/-- One step that samples `c` and goes on by the answer. -/
def sample (c : Cond) (yes no : Upc) (s : State) : Step :=
  .next { sampled c s with upc := if answer c s then yes else no }

/-- The next action of `Poll(c, B)` at its loop test (40_bounded_poll.md R90): a sample while the budget lasts, and after
`B` false samples the first action of `fail`. -/
def poll (c : Cond) (loop ok : Upc) (fail : State → Step) (s : State) : Step :=
  if s.pcnt < budget s.platform c then
    .next { sampled c s with pcnt := s.pcnt + 1, upc := if answer c s then ok else loop }
  else fail s

/-- The first action of `Poll(c, B)`: `pcnt <- 0`, then as at the loop test (40_bounded_poll.md R90). -/
def startPoll (c : Cond) (loop ok : Upc) (fail : State → Step) (s : State) : Step :=
  poll c loop ok fail { s with pcnt := 0 }

/-- `P.writeDR(b)` of the address byte (30_encoding.md R78); `dir` is true for READ. -/
def sendAddress (dir : Bool) (nxt : Upc) (s : State) : Step :=
  act (.drWrite (addressByte s.cur.cmd.addr dir)) nxt s

/-- `b <- MemRead(BUF + k, 1)` (20_memory.md R53, R54); stuck where the host memory refuses the read. -/
def loadByte (k : Count) (nxt : Upc) (s : State) : Step :=
  let a := bufAddr s.cur.buf k
  if admitsRead s.platform a then
    .next { emit (.memRead a (memGet s.mem a.toNat)) s with dat := memGet s.mem a.toNat, upc := nxt }
  else .fault .memRefused

/-- `P.writeDR(b)` of the byte just read from memory (20_memory.md R54). -/
def sendByte (nxt : Upc) (s : State) : Step := act (.drWrite s.dat) nxt s

/-- `b <- P.readDR()` (10_state.md R32). -/
def receiveByte (nxt : Upc) (s : State) : Step :=
  .next { emit (.drRead (answerByte s)) s with bytes := s.bytes.tail, dat := answerByte s, upc := nxt }

/-- `MemWrite(BUF + k, 1, b)` of the byte just received (20_memory.md R53, R54); stuck where the host memory refuses the
write. -/
def storeByte (k : Count) (nxt : Upc) (s : State) : Step :=
  let a := bufAddr s.cur.buf k
  if admitsWrite s.platform a then
    .next { emit (.memWrite a s.dat) s with mem := memSet s.mem a.toNat s.dat, upc := nxt }
  else .fault .memRefused

/-- `rem <- count; idx <- 0` (42_write.md R134, 43_read.md R163). -/
def initTransfer (s : State) : State := { s with rem := s.cur.cmd.count, idx := 0 }

/-- `idx <- idx + 1; rem <- rem - 1` (42_write.md R134, 43_read.md R163). -/
def advance (s : State) : State := { s with idx := s.idx + 1, rem := s.rem - 1 }

/-- `P.programTiming(hz)` and in the same step `cfg[ifid].hz <- hz` (41_lifecycle.md R113, 10_state.md R29). -/
def programTiming (nxt : Upc) (s : State) : Step :=
  .next { emit (.timing s.cur.hz) s with
    cfg := s.cfg.setIfInBounds s.cur.cmd.ifid.toNat (some s.cur.hz), upc := nxt }

/-! ## The end of a command, its first check, its acceptance -/

/-- The state after `finish(r)`: `RESULT` written, `phase` IDLE, `Done(r)` recorded (40_bounded_poll.md R97). -/
def finished (r : Result) (s : State) : State := { emit (.done r) s with result := encResult r, phase := .idle }

/-- `finish(r)` is one step (40_bounded_poll.md R97). -/
def finish (r : Result) (s : State) : Step := .next (finished r s)

/-- `raise E`: an error ends the command with `finish(Err)` and nothing else (00_scope.md R12, 60_exceptions.md R195). -/
def raise (e : Err) (s : State) : Step := finish (.err e) s

/-- The interface check, the first action of every command (40_bounded_poll.md R93). -/
def checkIfid (k : State → Step) (s : State) : Step :=
  if s.platform.nIf ≤ s.cur.cmd.ifid.toNat then raise .argIfidRange s else k s

/-- The state after the acceptance of a command (10_state.md R26): `cur` latched with `HZ` and `BUF`, `phase` RUN, `upc`
at the entry, `Accept(w)` recorded; no primitive is performed. -/
def accepted (i : Instr) (s : State) : State :=
  emit (.accept (encode i)) { s with cur := ⟨i, s.hz, s.buf⟩, phase := .run, upc := .entry }

/-- Acceptance, or the refusal of operand values that have no meaning (10_state.md R26, 30_encoding.md R76). -/
def accept (i : Instr) (s : State) : Step :=
  match refusedOperands i s.hz s.buf with
  | some e => .refused (.command e)
  | none   => .next (accepted i s)

/-- One step of a command: its acceptance when the engine is IDLE, the next action of its micro-program when it is the
running command, and the fault `CMD_WHILE_BUSY` when another command runs (10_state.md R23, R26). -/
def command (i : Instr) (micro : State → Step) (s : State) : Step :=
  match s.phase with
  | .idle => accept i s
  | .run  => if s.cur.cmd = i then micro s else .fault .cmdWhileBusy

/-- Engine reset (70_reset_and_hazards.md R220, R222): every piece of engine state as after reset, no `Done`; the host's
memory and program, the oracle and the parameters are not engine state and stay. DESIGN CHOICE, unsafe: past its scripts
the oracle sees the emptied history and the kept `seed`, whatever the bus had done before (notes/assumptions/28.md). -/
def engineReset (s : State) : State :=
  { State.reset with
    mem := s.mem, platform := s.platform, bits := s.bits, bytes := s.bytes, seed := s.seed,
    host := s.host, hostVal := s.hostVal }

end Sys2Proof.Machine
end

