-- ==== Sys2Proof/Machine/Lifecycle.lean ====
section
/-! DEFINITION. The lifecycle commands OPEN, CLOSE and SETFREQ (41_lifecycle.md). Each match arm is one point of the
pseudocode with the checks that stand before its action. -/

namespace Sys2Proof.Machine

/-- SETFREQ_BODY from its first line (41_lifecycle.md R113): the frequency check precedes every primitive of the body, then
the idle poll. -/
def freqCheck (s : State) : Step :=
  if s.cur.hz.toNat > s.platform.maxHz then raise .argHzMax s
  else startPoll .idle .freqPoll .freqTiming (raise .timeoutIdle) s

/-- SETFREQ_BODY (41_lifecycle.md R113), shared by OPEN and SETFREQ. -/
def setFreqBody (s : State) : Step :=
  match s.upc with
  | .freqBody   => freqCheck s
  | .freqPoll   => poll .idle .freqPoll .freqTiming (raise .timeoutIdle) s
  | .freqTiming => programTiming .finishOk s
  | .finishOk   => finish (.ok 0) s
  | _           => .fault .foreignPoint

/-- OPEN (41_lifecycle.md R110): `CLKEN, PRST, PINS`, then SETFREQ_BODY. -/
def openStep (s : State) : Step :=
  match s.upc with
  | .entry     => checkIfid (act .clken .openReset) s
  | .openReset => act .prst .openPins s
  | .openPins  => act .pins .freqBody s
  | _          => setFreqBody s

/-- SETFREQ (41_lifecycle.md R113). -/
def setFreqStep (s : State) : Step :=
  match s.upc with
  | .entry    => checkIfid freqCheck s
  | .freqBody => .fault .foreignPoint
  | _         => setFreqBody s

/-- CLOSE (41_lifecycle.md R116): the idle poll, then `PDIS` in both cases. -/
def closeStep (s : State) : Step :=
  match s.upc with
  | .entry        => checkIfid (startPoll .idle .closePoll .closeDisable (act .pdis .closeTimeout)) s
  | .closePoll    => poll .idle .closePoll .closeDisable (act .pdis .closeTimeout) s
  | .closeDisable => act .pdis .finishOk s
  | .closeTimeout => raise .timeoutIdle s
  | .finishOk     => finish (.ok 0) s
  | _             => .fault .foreignPoint

/-- OPEN: bring an interface out of reset and program its bus frequency (41_lifecycle.md R110 to R112). -/
def execOpen (f : Fields) (s : State) : Step := command (.openIf f) openStep s

/-- CLOSE: wait for the bus to go idle, then disable the interface (41_lifecycle.md R116 to R118). -/
def execClose (f : Fields) (s : State) : Step := command (.close f) closeStep s

/-- SETFREQ: program the bus frequency (41_lifecycle.md R113 to R115). -/
def execSetFreq (f : Fields) (s : State) : Step := command (.setFreq f) setFreqStep s

end Sys2Proof.Machine
end

