-- ==== Sys2Proof/Machine/Transfer.lean ====
section
/-! DEFINITION. The sub-programs the transfer commands share: the start and address phase of WRITE and READ (42_write.md
R130, 43_read.md R160) and the wait for a stop to clear (42_write.md R137, R145; 43_read.md R164). -/

namespace Sys2Proof.Machine

/-- A failed address poll is classified by one sample of `AF` (40_bounded_poll.md R98). -/
def classifyAddress (s : State) : Step := sample .af .afNack .afTimeout s

/-- From `AF:=0` to the acknowledged address: `dir` is the direction bit, `done` the point after the address poll. -/
def addressPhase (dir : Bool) (done : Upc) (s : State) : Step :=
  match s.upc with
  | .clearAf   => act .clearAf .start s
  | .start     => act .start .sbStart s
  | .sbStart   => startPoll .sb .sbPoll .addrByte (raise .timeoutSb) s
  | .sbPoll    => poll .sb .sbPoll .addrByte (raise .timeoutSb) s
  | .addrByte  => sendAddress dir .addrStart s
  | .addrStart => startPoll .addr .addrPoll done classifyAddress s
  | .addrPoll  => poll .addr .addrPoll done classifyAddress s
  | .afNack    => raise .nackAddr s
  | .afTimeout => raise .timeoutAddr s
  | _          => .fault .foreignPoint

/-- The first sample of the wait for an asserted stop to clear. -/
def stopWait (s : State) : Step := startPoll .stopclr .stopPoll .finishOk (raise .timeoutStopclr) s

/-- The wait for an asserted stop to clear, then `finish(Ok(n))`. -/
def stopPhase (n : Count) (s : State) : Step :=
  match s.upc with
  | .stopStart => stopWait s
  | .stopPoll  => poll .stopclr .stopPoll .finishOk (raise .timeoutStopclr) s
  | .finishOk  => finish (.ok n) s
  | _          => .fault .foreignPoint

end Sys2Proof.Machine
end

