-- ==== Sys2Proof/Machine/ReadPath.lean ====
section
/-! DEFINITION. The read command READ (43_read.md). Each match arm is one point of the pseudocode with the checks and
arithmetic that stand before its action. -/

namespace Sys2Proof.Machine

/-- The sub-protocol's first action, chosen by the count (43_read.md R160 to R163). -/
def readSelect (s : State) : Step :=
  if s.cur.cmd.count = 1 then act (.ack false) .r1Stop s
  else if s.cur.cmd.count = 2 then act (.ack false) .r2Pos s
  else act .sr1 .rnSr2 s

/-- READ_1 (43_read.md R161): acknowledge is disabled and stop armed before the address condition is cleared. -/
def read1 (s : State) : Step :=
  match s.upc with
  | .r1Stop  => if s.cur.cmd.stop then act .stop .r1Sr1 s else act .sr1 .r1Sr2 s
  | .r1Sr1   => act .sr1 .r1Sr2 s
  | .r1Sr2   => act .sr2 .r1Start s
  | .r1Start => startPoll .rxne .r1Poll .r1Read (raise .timeoutRxne) s
  | .r1Poll  => poll .rxne .r1Poll .r1Read (raise .timeoutRxne) s
  | .r1Read  => receiveByte .r1Store s
  | .r1Store => storeByte 0 .readEnd s
  | _        => .fault .foreignPoint

/-- READ_2 (43_read.md R162): acknowledge off and POS on before the address condition is cleared. -/
def read2 (s : State) : Step :=
  match s.upc with
  | .r2Pos    => act (.pos true) .r2Sr1 s
  | .r2Sr1    => act .sr1 .r2Sr2 s
  | .r2Sr2    => act .sr2 .r2Start s
  | .r2Start  => startPoll .btf .r2Poll .r2Stop (raise .timeoutBtfA) s
  | .r2Poll   => poll .btf .r2Poll .r2Stop (raise .timeoutBtfA) s
  | .r2Stop   => if s.cur.cmd.stop then act .stop .r2Read1 s else receiveByte .r2Store1 s
  | .r2Read1  => receiveByte .r2Store1 s
  | .r2Store1 => storeByte 0 .r2Read2 s
  | .r2Read2  => receiveByte .r2Store2 s
  | .r2Store2 => storeByte 1 .readEnd s
  | _         => .fault .foreignPoint

/-- The loop test of READ_N, `while rem > 3`, and after it the first BTF wait (43_read.md R163). -/
def readTop (s : State) : Step :=
  if 3 < s.rem.toNat then startPoll .rxne .rnPoll .rnRead (raise .timeoutRxne) s
  else startPoll .btf .rnBtfAPoll .rnAckOff (raise .timeoutBtfA) s

/-- READ_N (43_read.md R163): the last three bytes are read behind two BTF waits. -/
def readN (s : State) : Step :=
  match s.upc with
  | .rnSr2       => act .sr2 .rnInit s
  | .rnInit      => readTop (initTransfer s)
  | .rnPoll      => poll .rxne .rnPoll .rnRead (raise .timeoutRxne) s
  | .rnRead      => receiveByte .rnStore s
  | .rnStore     => storeByte s.idx .rnNext s
  | .rnNext      => readTop (advance s)
  | .rnBtfAPoll  => poll .btf .rnBtfAPoll .rnAckOff (raise .timeoutBtfA) s
  | .rnAckOff    => act (.ack false) .rnStopA s
  | .rnStopA     =>
    if s.cur.cmd.stop ∧ s.platform.read3Stop = .afterAckOff then act .stop .rnReadA s else receiveByte .rnStoreA s
  | .rnReadA     => receiveByte .rnStoreA s
  | .rnStoreA    => storeByte s.idx .rnBtfBStart s
  | .rnBtfBStart => startPoll .btf .rnBtfBPoll .rnStopB (raise .timeoutBtfB) (advance s)
  | .rnBtfBPoll  => poll .btf .rnBtfBPoll .rnStopB (raise .timeoutBtfB) s
  | .rnStopB     =>
    if s.cur.cmd.stop ∧ s.platform.read3Stop = .afterBtfB then act .stop .rnReadB s else receiveByte .rnStoreB s
  | .rnReadB     => receiveByte .rnStoreB s
  | .rnStoreB    => storeByte s.idx .rnReadC s
  | .rnReadC     => receiveByte .rnStoreC (advance s)
  | .rnStoreC    => storeByte s.idx .readEnd s
  | _            => .fault .foreignPoint

/-- READ_END (43_read.md R164): with a stop requested, wait until it clears. -/
def readEnd (s : State) : Step := if s.cur.cmd.stop then stopWait s else finish (.ok s.cur.cmd.count) s

/-- READ (43_read.md R160). -/
def readStep (s : State) : Step :=
  match s.upc with
  | .entry =>
    checkIfid (fun s => if s.cur.cmd.count = 0 then raise .argCountZero s else act (.pos false) .setAck s) s
  | .setAck => act (.ack true) .clearAf s
  | .clearAf | .start | .sbStart | .sbPoll | .addrByte | .addrStart | .addrPoll | .afNack | .afTimeout =>
    addressPhase true .rdSelect s
  | .rdSelect => readSelect s
  | .r1Stop | .r1Sr1 | .r1Sr2 | .r1Start | .r1Poll | .r1Read | .r1Store => read1 s
  | .r2Pos | .r2Sr1 | .r2Sr2 | .r2Start | .r2Poll | .r2Stop | .r2Read1 | .r2Store1 | .r2Read2 | .r2Store2 => read2 s
  | .rnSr2 | .rnInit | .rnPoll | .rnRead | .rnStore | .rnNext | .rnBtfAPoll | .rnAckOff | .rnStopA | .rnReadA
  | .rnStoreA | .rnBtfBStart | .rnBtfBPoll | .rnStopB | .rnReadB | .rnStoreB | .rnReadC | .rnStoreC => readN s
  | .readEnd => readEnd s
  | .stopPoll | .finishOk => stopPhase s.cur.cmd.count s
  | .openReset | .openPins | .freqBody | .freqPoll | .freqTiming | .closePoll | .closeDisable | .closeTimeout
  | .wrSr1 | .wrSr2 | .outInit | .txePoll | .outRead | .outSend | .outNext | .outLoop | .outReadB | .outSendB
  | .outNextB | .txeFinalPoll | .outAf | .outNack | .outStop | .stopStart => .fault .foreignPoint

/-- READ: address a slave for reading and receive bytes into the buffer (43_read.md R160 to R169). -/
def execRead (f : Fields) (s : State) : Step := command (.read f) readStep s

end Sys2Proof.Machine
end

