-- ==== Sys2Proof/Machine/WritePath.lean ====
section
/-! DEFINITION. The write commands WRITE, WRITERAW and GENSTOP (42_write.md). Each match arm is one point of the
pseudocode with the checks and arithmetic that stand before its action. -/

namespace Sys2Proof.Machine

/-- The first sample of the final `TXE` poll (42_write.md R136). -/
def txeFinal (s : State) : Step := startPoll .txe .txeFinalPoll .outAf (raise .timeoutTxeFinal) s

/-- The loop test of DATA_OUT, `while rem > 0` (42_write.md R134). -/
def outTop (s : State) : Step :=
  if s.rem = 0 then txeFinal s else startPoll .txe .txePoll .outRead (raise .timeoutTxeData) s

/-- After a byte sent behind a `TXE` poll: the BTF shortcut's sample, if a byte remains (42_write.md R135). -/
def outShortcut (s : State) : Step := if s.rem = 0 then txeFinal s else sample .btf .outReadB .outLoop s

/-- DATA_OUT (42_write.md R134), shared by WRITE and WRITERAW. -/
def dataOut (s : State) : Step :=
  match s.upc with
  | .outInit      => outTop (initTransfer s)
  | .txePoll      => poll .txe .txePoll .outRead (raise .timeoutTxeData) s
  | .outRead      => loadByte s.idx .outSend s
  | .outSend      => sendByte .outNext s
  | .outNext      => outShortcut (advance s)
  | .outLoop      => outTop s
  | .outReadB     => loadByte s.idx .outSendB s
  | .outSendB     => sendByte .outNextB s
  | .outNextB     => outTop (advance s)
  | .txeFinalPoll => poll .txe .txeFinalPoll .outAf (raise .timeoutTxeFinal) s
  | .outAf        => sample .af .outNack .outStop s
  | .outNack      => raise .nackAfFinal s
  | .outStop      => if s.cur.cmd.stop then act .stop .stopStart s else finish (.ok s.cur.cmd.count) s
  | _             => stopPhase s.cur.cmd.count s

/-- WRITE (42_write.md R130). -/
def writeStep (s : State) : Step :=
  match s.upc with
  | .entry => checkIfid (act (.pos false) .clearAf) s
  | .wrSr1 => act .sr1 .wrSr2 s
  | .wrSr2 => act .sr2 .outInit s
  | .clearAf | .start | .sbStart | .sbPoll | .addrByte | .addrStart | .addrPoll | .afNack | .afTimeout =>
    addressPhase false .wrSr1 s
  | _      => dataOut s

/-- WRITERAW (42_write.md R140): DATA_OUT alone. Its first action is DATA_OUT's. -/
def writeRawStep (s : State) : Step :=
  match s.upc with
  | .entry   => checkIfid (fun s => outTop (initTransfer s)) s
  | .outInit => .fault .foreignPoint
  | _        => dataOut s

/-- GENSTOP (42_write.md R145). -/
def genStopStep (s : State) : Step :=
  match s.upc with
  | .entry => checkIfid (act .stop .stopStart) s
  | _      => stopPhase 0 s

/-- WRITE: address a slave for writing and send the buffer's bytes (42_write.md R130 to R139). -/
def execWrite (f : Fields) (s : State) : Step := command (.write f) writeStep s

/-- WRITERAW: continue a write already addressed (42_write.md R140, R141). -/
def execWriteRaw (f : Fields) (s : State) : Step := command (.writeRaw f) writeRawStep s

/-- GENSTOP: generate a stop condition and wait for it to complete (42_write.md R145). -/
def execGenStop (f : Fields) (s : State) : Step := command (.genStop f) genStopStep s

end Sys2Proof.Machine
end

