-- ==== Sys2Proof/Machine/Dispatch.lean ====
section
/-! DEFINITION. One arm per command: one step of the command (10_state.md R26). -/

namespace Sys2Proof.Machine

def exec (i : Instr) (s : State) : Host.Outcome State Fault Refusal :=
  match i with
  | .openIf f => Sys2Proof.Machine.execOpen f s
  | .close f => Sys2Proof.Machine.execClose f s
  | .setFreq f => Sys2Proof.Machine.execSetFreq f s
  | .write f => Sys2Proof.Machine.execWrite f s
  | .read f => Sys2Proof.Machine.execRead f s
  | .writeRaw f => Sys2Proof.Machine.execWriteRaw f s
  | .genStop f => Sys2Proof.Machine.execGenStop f s

end Sys2Proof.Machine
end

