-- ==== Sys2Proof/Machine/HostPort.lean ====
section
/-! DEFINITION. The host's side: the register block (10_state.md R21 to R25), the host's loads and stores of memory
(20_memory.md R60, R61), engine reset, whose turn it is, and the host sequences CALL, WRREAD and PROBE (30_encoding.md
R81, R82). -/

namespace Sys2Proof.Machine

/-- What a load of a register returns: `CMD` and the unlisted offsets read 0 (10_state.md R21). -/
def regRead (off : Nat) (s : State) : Word :=
  if off = offHz then s.hz
  else if off = offBuf then s.buf
  else if off = offResult then s.result
  else if off = offStatus then status s
  else 0

/-- A store of `CMD`: the fault CMD_WHILE_BUSY while a command runs (10_state.md R23), else the acceptance of the decoded
command (R26) or the refusal of the word (30_encoding.md R76). -/
def cmdWrite (w : Word) (s : State) : Step :=
  match s.phase with
  | .run  => .fault .cmdWhileBusy
  | .idle =>
    match decode w with
    | .ok i    => exec i s
    | .error e => .refused (.command e)

/-- A store to a register: `HZ` and `BUF` hold what the host writes (10_state.md R22); the read-only registers and the
unlisted offsets ignore it (R21). -/
def regWrite (off : Nat) (v : Word) (s : State) : Step :=
  if off = offCmd then cmdWrite v s
  else if off = offHz then .next { s with hz := v }
  else if off = offBuf then .next { s with buf := v }
  else .next s

/-- The host's access to a memory byte meets the running command's buffer (20_memory.md R60). -/
def races (a : Word) (s : State) : Bool :=
  match s.phase with
  | .idle => false
  | .run  => inBuffer s.cur a

/-- The host loads a byte of memory. -/
def hostLoad (a : Word) (s : State) : Step :=
  if races a s then .fault .bufRace
  else if admitsRead s.platform a then .next { s with hostVal := (memGet s.mem a.toNat).setWidth 32 }
  else .fault .memRefused

/-- The host stores a byte of memory. -/
def hostStore (a : Word) (v : Byte) (s : State) : Step :=
  if races a s then .fault .bufRace
  else if admitsWrite s.platform a then .next { s with mem := memSet s.mem a.toNat v }
  else .fault .memRefused

/-- The engine's turn: the running command's next action; in IDLE the engine waits (70_reset_and_hazards.md R220). -/
def engineTurn (s : State) : Step :=
  match s.phase with
  | .idle => .next s
  | .run  => exec s.cur.cmd s

/-- One host action, already taken off the host's list. -/
def hostAction (op : HostOp) (s : State) : Step :=
  match op with
  | .regStore a size v =>
    if regAccessOk s.platform a size then regWrite (regOffset s.platform a) v s else .refused .registerAccess
  | .regLoad a size =>
    if regAccessOk s.platform a size then .next { s with hostVal := regRead (regOffset s.platform a) s }
    else .refused .registerAccess
  | .memStore a v => hostStore a v s
  | .memLoad a => hostLoad a s
  | .engineReset => .next (engineReset s)
  | .engine => engineTurn s
  | .await =>
    match s.phase with
    | .run  => engineTurn { s with host := .await :: s.host }
    | .idle => .next { s with hostVal := status s }
  | .skipIfNeg k => .next (if s.hostVal.msb then { s with host := s.host.drop k } else s)

/-- Whose turn it is: the host's next action, and the engine's when the host has none. -/
def turn (s : State) : Step :=
  match s.host with
  | []         => engineTurn s
  | op :: rest => hostAction op { s with host := rest }

/-- The host call of a command (30_encoding.md R81): the operand registers it uses, its word, the wait, the result. -/
def callOps (p : Platform) (i : Instr) (hz buf : Word) : List HostOp :=
  (if i.usesHz then [.regStore (regAddr p offHz) 4 hz] else []) ++
  (if i.usesBuf then [.regStore (regAddr p offBuf) 4 buf] else []) ++
  [.regStore (regAddr p offCmd) 4 (encode i), .await, .regLoad (regAddr p offResult) 4]

/-- `WRREAD` (30_encoding.md R82): a one-byte WRITE with no stop, then, if its result is not negative, the READ. -/
def wrReadOps (p : Platform) (i : Ifid) (a : SlaveAddr) (reg : Word) (n : Count) (buf : Word) : List HostOp :=
  callOps p (.write ⟨false, a, i, 1⟩) 0 reg ++
  (.skipIfNeg (callOps p (.read ⟨true, a, i, n⟩) 0 buf).length :: callOps p (.read ⟨true, a, i, n⟩) 0 buf)

/-- `PROBE` (30_encoding.md R82): a zero-length WRITE and a one-byte READ, both with a stop. DESIGN CHOICE, safe: R82 names
no `buf` for the WRITE, and its CALL stores the READ's buffer into `BUF` (notes/assumptions/27.md). -/
def probeOps (p : Platform) (i : Ifid) (a : SlaveAddr) (buf : Word) : List HostOp :=
  callOps p (.write ⟨true, a, i, 0⟩) 0 buf ++ callOps p (.read ⟨true, a, i, 1⟩) 0 buf

/-- The host's list that makes a command word's acceptance the next step, and the operand registers it needs: a zero
`HZ` becomes 100000 for a command that uses it, a `BUF` whose range wraps becomes 0 (notes/assumptions/13.md). -/
def placeWord (w : Word) (s : State) : State :=
  let s' := { s with phase := .idle, host := .regStore (regAddr s.platform offCmd) 4 w :: s.host }
  match decode w with
  | .error _ => s'
  | .ok i =>
    match refusedOperands i s.hz s.buf with
    | some .zeroFrequency => { s' with hz := 100000 }
    | some .bufferWraps   => { s' with buf := 0 }
    | _                   => s'

end Sys2Proof.Machine
end

