-- ==== Sys2Proof/Machine/Step.lean ====
section
/-! DEFINITION. One step of the machine: a platform outside the constraints is refused (00_scope.md R9, 20_memory.md R67),
else the agent whose turn it is acts. -/

namespace Sys2Proof.Machine

/-- One step. -/
def step (s : State) : Host.Outcome State Fault Refusal :=
  if platformOk s.platform then turn s else .refused .badPlatform

/-- The state with a command word stored to `CMD` by the very next step (notes/assumptions/13.md). -/
def State.withFetchWord (s : State) (nbits w : Nat) : State := placeWord (BitVec.ofNat 32 (w % 2 ^ nbits)) s

end Sys2Proof.Machine
end

