-- ==== Sys2Proof/Safety.lean ====
section
/-! DEFINITION. The terms the statements use: runs of a command, the points of each micro-program, the invariants of the
machine, the bus states the history shows (10_state.md R37), and the event sequences of undisturbed transfers. -/

namespace Sys2Proof.Machine

/-! ## Runs -/

/-- The command is the running one. -/
abbrev Running (i : Instr) (s : State) : Prop := s.phase = .run ∧ s.cur.cmd = i

/-- `n` steps of a command, stopping at the first fault or refusal. -/
def execFor (i : Instr) : Nat → State → Step
  | 0,     s => .next s
  | n + 1, s =>
    match exec i s with
    | .next t    => execFor i n t
    | .fault r   => .fault r
    | .refused r => .refused r

/-- `n` steps of the machine, stopping at the first fault or refusal. -/
def stepFor : Nat → State → Step
  | 0,     s => .next s
  | n + 1, s =>
    match step s with
    | .next t    => stepFor n t
    | .fault r   => .fault r
    | .refused r => .refused r

/-- Events of one command as history entries (10_state.md R35). -/
def tagged (i : Ifid) (es : List Event) : List HistEntry := es.map fun e => ⟨i, e⟩

/-- The state after one primitive of the running command: its event, the next point, nothing else. -/
def did (e : Event) (nxt : Upc) (s : State) : State :=
  { s with hist := s.hist ++ [⟨s.cur.cmd.ifid, e⟩], upc := nxt }

/-- The state after one sample of the running command. -/
def asked (c : Cond) (nxt : Upc) (s : State) : State :=
  { s with hist := s.hist ++ [⟨s.cur.cmd.ifid, .sample c (answer c s)⟩], bits := s.bits.tail, upc := nxt }

/-- The state after `finish(r)` (40_bounded_poll.md R97). -/
def ended (r : Result) (s : State) : State :=
  { s with hist := s.hist ++ [⟨s.cur.cmd.ifid, .done r⟩], result := encResult r, phase := .idle }

/-- At the point `u`, the loop of `Poll(c, B)`, the command samples `c` while the budget lasts and otherwise answers
`fail` (40_bounded_poll.md R90). -/
def PollsAt (i : Instr) (s : State) (u : Upc) (c : Cond) (ok : Upc) (fail : State → Step) : Prop :=
  s.upc = u →
    (s.pcnt < budget s.platform c →
      exec i s = .next { asked c (if answer c s then ok else u) s with pcnt := s.pcnt + 1 }) ∧
    (budget s.platform c ≤ s.pcnt → exec i s = fail s)

/-- The first action of `Poll(c, B)` taken in a state: `pcnt` counts from 0 (40_bounded_poll.md R90). -/
def firstSample (c : Cond) (loop ok : Upc) (fail : State → Step) (s : State) : Step :=
  if 0 < budget s.platform c then
    .next { asked c (if answer c s then ok else loop) { s with pcnt := 0 } with pcnt := 1 }
  else fail { s with pcnt := 0 }

/-- `finish(Err(e))` as the outcome of a step. -/
def endsErr (e : Err) (s : State) : Step := .next (ended (.err e) s)

/-! ## The micro-programs' points -/

/-- The points of SETFREQ_BODY after its first action (41_lifecycle.md R113). -/
def freqPoints : List Upc := [.freqPoll, .freqTiming, .finishOk]

/-- The points of the start and address phase after `POS:=0` (42_write.md R130, 43_read.md R160). -/
def addressPoints : List Upc :=
  [.clearAf, .start, .sbStart, .sbPoll, .addrByte, .addrStart, .addrPoll, .afNack, .afTimeout]

/-- The points of DATA_OUT after its first action (42_write.md R134). -/
def outPoints : List Upc :=
  [.txePoll, .outRead, .outSend, .outNext, .outLoop, .outReadB, .outSendB, .outNextB, .txeFinalPoll, .outAf, .outNack,
    .outStop, .stopStart, .stopPoll, .finishOk]

/-- The points of READ_1 (43_read.md R161). -/
def read1Points : List Upc := [.r1Stop, .r1Sr1, .r1Sr2, .r1Start, .r1Poll, .r1Read, .r1Store]

/-- The points of READ_2 (43_read.md R162). -/
def read2Points : List Upc :=
  [.r2Pos, .r2Sr1, .r2Sr2, .r2Start, .r2Poll, .r2Stop, .r2Read1, .r2Store1, .r2Read2, .r2Store2]

/-- The points of READ_N before the acknowledge is disabled (43_read.md R163). -/
def readNPointsA : List Upc :=
  [.rnSr2, .rnInit, .rnPoll, .rnRead, .rnStore, .rnNext, .rnBtfAPoll, .rnAckOff]

/-- The points of READ_N after the acknowledge is disabled (43_read.md R163). -/
def readNPointsB : List Upc :=
  [.rnStopA, .rnReadA, .rnStoreA, .rnBtfBStart, .rnBtfBPoll, .rnStopB, .rnReadB, .rnStoreB, .rnReadC, .rnStoreC]

/-- The points of READ_END (43_read.md R164). -/
def readEndPoints : List Upc := [.readEnd, .stopPoll, .finishOk]

/-- The points of a command's micro-program (10_state.md R27). -/
def points : Instr → List Upc
  | .openIf _   => .entry :: .openReset :: .openPins :: .freqBody :: freqPoints
  | .close _    => [.entry, .closePoll, .closeDisable, .closeTimeout, .finishOk]
  | .setFreq _  => .entry :: freqPoints
  | .write _    => .entry :: (addressPoints ++ (.wrSr1 :: .wrSr2 :: .outInit :: outPoints))
  | .read _     =>
    .entry :: .setAck :: (addressPoints ++ (.rdSelect :: (read1Points ++ (read2Points ++ (readNPointsA ++
      (readNPointsB ++ readEndPoints))))))
  | .writeRaw _ => .entry :: outPoints
  | .genStop _  => [.entry, .stopStart, .stopPoll, .finishOk]

/-- The condition a poll's loop point samples, and where its success leads. -/
def pollLoop : Instr → Upc → Option (Cond × Upc)
  | .openIf _,   .freqPoll     => some (.idle, .freqTiming)
  | .setFreq _,  .freqPoll     => some (.idle, .freqTiming)
  | .close _,    .closePoll    => some (.idle, .closeDisable)
  | .write _,    .sbPoll       => some (.sb, .addrByte)
  | .read _,     .sbPoll       => some (.sb, .addrByte)
  | .write _,    .addrPoll     => some (.addr, .wrSr1)
  | .read _,     .addrPoll     => some (.addr, .rdSelect)
  | .write _,    .txePoll      => some (.txe, .outRead)
  | .writeRaw _, .txePoll      => some (.txe, .outRead)
  | .write _,    .txeFinalPoll => some (.txe, .outAf)
  | .writeRaw _, .txeFinalPoll => some (.txe, .outAf)
  | .read _,     .r1Poll       => some (.rxne, .r1Read)
  | .read _,     .rnPoll       => some (.rxne, .rnRead)
  | .read _,     .r2Poll       => some (.btf, .r2Stop)
  | .read _,     .rnBtfAPoll   => some (.btf, .rnAckOff)
  | .read _,     .rnBtfBPoll   => some (.btf, .rnStopB)
  | .write _,    .stopPoll     => some (.stopclr, .finishOk)
  | .writeRaw _, .stopPoll     => some (.stopclr, .finishOk)
  | .read _,     .stopPoll     => some (.stopclr, .finishOk)
  | .genStop _,  .stopPoll     => some (.stopclr, .finishOk)
  | _,           _             => none

/-- The most steps a command takes after its acceptance (40_bounded_poll.md R100). -/
def stepBound (p : Platform) : Instr → Nat
  | .openIf _   => p.longBudget + 5
  | .setFreq _  => p.longBudget + 2
  | .close _    => p.longBudget + 2
  | .genStop _  => p.shortBudget + 2
  | .write f    => 4 * p.shortBudget + 10 + f.count.toNat * (p.shortBudget + 3)
  | .writeRaw f => 2 * p.shortBudget + 3 + f.count.toNat * (p.shortBudget + 3)
  | .read f     =>
    if f.count.toNat ≤ 2 then 4 * p.shortBudget + 2 * f.count.toNat + 11
    else (f.count.toNat + 2) * p.shortBudget + 2 * f.count.toNat + 10

/-- The errors a command may end with: the Results lines of its rule (41_lifecycle.md R110, R113, R116; 42_write.md R130,
R140, R145; 43_read.md R160). -/
def errorsOf : Instr → List Err
  | .openIf _   => [.argIfidRange, .argHzMax, .timeoutIdle]
  | .setFreq _  => [.argIfidRange, .argHzMax, .timeoutIdle]
  | .close _    => [.argIfidRange, .timeoutIdle]
  | .genStop _  => [.argIfidRange, .timeoutStopclr]
  | .write _    =>
    [.argIfidRange, .timeoutSb, .timeoutAddr, .timeoutTxeData, .timeoutTxeFinal, .timeoutStopclr, .nackAddr, .nackAfFinal]
  | .writeRaw _ => [.argIfidRange, .timeoutTxeData, .timeoutTxeFinal, .timeoutStopclr, .nackAfFinal]
  | .read _     =>
    [.argIfidRange, .argCountZero, .timeoutSb, .timeoutAddr, .timeoutRxne, .timeoutBtfA, .timeoutBtfB, .timeoutStopclr,
      .nackAddr]

/-- The count a command's success reports: the byte count of a transfer, 0 of a control operation (40_bounded_poll.md
R96). -/
def okCount : Instr → Count
  | .write f | .read f | .writeRaw f => f.count
  | .openIf _ | .close _ | .setFreq _ | .genStop _ => 0

/-- The error a failed poll ends with at its loop point (40_bounded_poll.md R95, R98), where the failure ends the command
at once: not the address poll of WRITE and READ, which is classified, nor the idle poll of CLOSE, which disables the
peripheral first. -/
def pollError : Instr → Upc → Option Err
  | .openIf _,   .freqPoll     => some .timeoutIdle
  | .setFreq _,  .freqPoll     => some .timeoutIdle
  | .write _,    .sbPoll       => some .timeoutSb
  | .read _,     .sbPoll       => some .timeoutSb
  | .write _,    .txePoll      => some .timeoutTxeData
  | .writeRaw _, .txePoll      => some .timeoutTxeData
  | .write _,    .txeFinalPoll => some .timeoutTxeFinal
  | .writeRaw _, .txeFinalPoll => some .timeoutTxeFinal
  | .read _,     .r1Poll       => some .timeoutRxne
  | .read _,     .rnPoll       => some .timeoutRxne
  | .read _,     .r2Poll       => some .timeoutBtfA
  | .read _,     .rnBtfAPoll   => some .timeoutBtfA
  | .read _,     .rnBtfBPoll   => some .timeoutBtfB
  | .write _,    .stopPoll     => some .timeoutStopclr
  | .writeRaw _, .stopPoll     => some .timeoutStopclr
  | .read _,     .stopPoll     => some .timeoutStopclr
  | .genStop _,  .stopPoll     => some .timeoutStopclr
  | _,           _             => none

/-- The buffer index a point stores to (43_read.md R161 to R163); only READ's points store. -/
def storeIndex (s : State) : Option Count :=
  match s.upc with
  | .r1Store | .r2Store1 => some 0
  | .r2Store2 => some 1
  | .rnStore | .rnStoreA | .rnStoreB | .rnStoreC => some s.idx
  | _ => none

/-- The registers and fields no command writes: the host's registers, the parameters, the host and the oracle's free
choice are the same. -/
def SameOutside (s t : State) : Prop :=
  t.hz = s.hz ∧ t.buf = s.buf ∧ t.platform = s.platform ∧ t.host = s.host ∧ t.hostVal = s.hostVal ∧ t.seed = s.seed

/-- The state with another command latched. -/
def withCur (c : Cur) (s : State) : State := { s with cur := c }

/-- The state with other values in the operand registers. -/
def withOperands (hz buf : Word) (s : State) : State := { s with hz := hz, buf := buf }

/-- An outcome with its next state changed. -/
def mapNext (g : State → State) : Step → Step
  | .next t    => .next (g t)
  | .fault r   => .fault r
  | .refused r => .refused r

/-! ## Invariants -/

/-- Bytes sent or received and bytes still to transfer make up the count (42_write.md R134, 43_read.md R163). -/
def Counts (s : State) : Prop := s.idx.toNat + s.rem.toNat = s.cur.cmd.count.toNat

/-- What holds of `rem`, `idx` and `cur` at each point of a running command. -/
def AtPoint (s : State) : Prop :=
  match s.upc with
  | .freqPoll | .freqTiming => s.cur.hz.toNat ≤ s.platform.maxHz
  | .txePoll | .outRead | .outSend | .outNext | .outLoop | .outReadB | .outSendB | .outNextB => Counts s ∧ s.rem ≠ 0
  | .txeFinalPoll | .outAf | .outNack | .outStop => Counts s ∧ s.rem = 0
  | .setAck | .rdSelect => s.cur.cmd.count ≠ 0
  | .r1Stop | .r1Sr1 | .r1Sr2 | .r1Start | .r1Poll | .r1Read | .r1Store => s.cur.cmd.count = 1
  | .r2Pos | .r2Sr1 | .r2Sr2 | .r2Start | .r2Poll | .r2Stop | .r2Read1 | .r2Store1 | .r2Read2 | .r2Store2 =>
    s.cur.cmd.count = 2
  | .rnSr2 | .rnInit => 3 ≤ s.cur.cmd.count.toNat
  | .rnPoll | .rnRead | .rnStore | .rnNext => Counts s ∧ 3 < s.rem.toNat
  | .rnBtfAPoll | .rnAckOff | .rnStopA | .rnReadA | .rnStoreA | .rnBtfBStart => Counts s ∧ s.rem = 3
  | .rnBtfBPoll | .rnStopB | .rnReadB | .rnStoreB | .rnReadC => Counts s ∧ s.rem = 2 ∧ s.idx ≠ 0
  | .rnStoreC => Counts s ∧ s.rem = 1 ∧ 2 ≤ s.idx.toNat
  | _ => True

/-- What holds of a running command: its operands have a meaning, `upc` is a point of its micro-program, past the first
action its interface exists and a READ has a byte to read, and the registers are right for the point. -/
def RunsWell (s : State) : Prop :=
  s.cur.cmd.wellFormed s.cur.hz s.cur.buf = true ∧ s.upc ∈ points s.cur.cmd ∧
  (s.upc ≠ .entry → s.cur.cmd.ifid.toNat < s.platform.nIf) ∧
  (∀ f, s.cur.cmd = .read f → s.upc ≠ .entry → f.count ≠ 0) ∧ AtPoint s

/-- The control invariant: a running command runs well, and the poll counter fits its register and the poll's budget
(10_state.md R26, 60_exceptions.md R200). -/
def Controlled (s : State) : Prop :=
  (s.phase = .run → RunsWell s) ∧ s.pcnt ≤ s.platform.longBudget ∧
  (s.phase = .run → ∀ c ok, pollLoop s.cur.cmd s.upc = some (c, ok) → s.pcnt ≤ budget s.platform c)

/-- The result of the last `Done` event, if there is one (10_state.md R24). -/
def lastDone : List HistEntry → Option Result
  | []     => none
  | h :: t => (lastDone t).or (match h.ev with | .done r => some r | _ => none)

/-- The registers the history records: `RESULT` is the last result, 0 before any (10_state.md R24), and `cfg[i].hz` is the
frequency of the last `TIMING` of the interface, `none` before any (10_state.md R29, 41_lifecycle.md R112). -/
def Recorded (s : State) : Prop :=
  s.result = (match lastDone s.hist with | some r => encResult r | none => 0) ∧
  ∀ i : Ifid, s.cfg[i.toNat]? = some (lastTiming s.hist i)

/-- The last event of the history. -/
def lastEvent (s : State) : Option Event := s.hist.getLast?.map fun h => h.ev

/-- The second read of an address-clear pair is next (42_write.md R133, 43_read.md R161 to R163). -/
def atSecondRead : Upc → Bool
  | .wrSr2 | .r1Sr2 | .r2Sr2 | .rnSr2 => true
  | _ => false

/-- What the last event is where one action follows another at once: a byte is sent right after its read and stored right
after its receipt (20_memory.md R54), and the reads of the two status registers are adjacent (70_reset_and_hazards.md
R224). -/
def Adjacent (s : State) : Prop :=
  s.phase = .run →
    match s.upc with
    | .outSend | .outSendB => lastEvent s = some (.memRead (bufAddr s.cur.buf s.idx) s.dat)
    | .outNext | .outNextB => lastEvent s = some (.drWrite s.dat)
    | .r1Store | .r2Store1 | .r2Store2 | .rnStore | .rnStoreA | .rnStoreB | .rnStoreC =>
      lastEvent s = some (.drRead s.dat)
    | .wrSr2 | .r1Sr2 | .r2Sr2 | .rnSr2 => lastEvent s = some .sr1
    | _ => True

/-- The peripheral's latches of the running command's interface, as the history shows them (10_state.md R34). -/
def LatchesAre (s : State) (ack pos : Bool) : Prop :=
  ackLatch s.hist s.cur.cmd.ifid = some ack ∧ posLatch s.hist s.cur.cmd.ifid = some pos

/-- The latches at each point of a running READ: acknowledge is on until the point its sub-protocol names, off from there
to the end, and POS is on only in the two-byte case after it was set (43_read.md R160 to R163, R165, R168). A running
WRITE has POS off past its first action (42_write.md R131). -/
def Armed (s : State) : Prop :=
  s.phase = .run →
    (∀ f, s.cur.cmd = .write f → s.upc ≠ .entry → posLatch s.hist f.ifid = some false) ∧
    (∀ f, s.cur.cmd = .read f →
      (s.upc = .setAck → posLatch s.hist f.ifid = some false) ∧
      (s.upc ∈ addressPoints ∨ s.upc = .rdSelect ∨ s.upc ∈ readNPointsA → LatchesAre s true false) ∧
      (s.upc ∈ read1Points ∨ s.upc = .r2Pos ∨ s.upc ∈ readNPointsB → LatchesAre s false false) ∧
      (s.upc ∈ read2Points → s.upc ≠ .r2Pos → LatchesAre s false true) ∧
      (s.upc ∈ readEndPoints → LatchesAre s false (f.count == 2)))

/-- The platform keeps its constraints and the memory its canonical form. -/
def Sound (s : State) : Prop := platformOk s.platform = true ∧ Memory.wf s.mem = true

/-- The host memory admits every access a command makes to its buffer: WRITE and WRITERAW read its bytes, READ writes them,
and the control operations access none (20_memory.md R52, R53). -/
def BufferAdmitted (i : Instr) (s : State) : Prop :=
  match i with
  | .write f | .writeRaw f =>
    ∀ k : Count, k.toNat < f.count.toNat → admitsRead s.platform (bufAddr s.cur.buf k) = true
  | .read f => ∀ k : Count, k.toNat < f.count.toNat → admitsWrite s.platform (bufAddr s.cur.buf k) = true
  | .openIf _ | .close _ | .setFreq _ | .genStop _ => True

/-! ## The bus states of the history (10_state.md R37; notes/assumptions/18.md) -/

/-- The conceptual bus states of a running WRITE or READ (10_state.md R37). -/
inductive BusState where
  | idle | startPending | addressPending | dataPhase | stopPending
  deriving DecidableEq, Repr

/-- The events of the last accepted command after its `Accept`. -/
def commandEvents (h : List HistEntry) : List Event :=
  h.foldl (fun es x => match x.ev with | .accept _ => [] | e => es ++ [e]) []

/-- The event moves a data byte through the data register. -/
def movesByte : Event → Bool
  | .drWrite _ | .drRead _ => true
  | _ => false

/-- The phases a running WRITE or READ is in, from the events it has performed (10_state.md R37): Start-Pending from
`START` until a true `SB`; Address-Pending from the address byte until `SR2?`; Data-Phase from then until the last byte
is moved; Stop-Pending from `STOP` until a true `STOPCLR`. The phases of a READ overlap, so it is a list. -/
def openPhases (es : List Event) (count : Count) : List BusState :=
  let moved := es.countP movesByte
  (if es.contains .start && !es.contains (.sample .sb true) then [.startPending] else []) ++
  (if decide (0 < moved) && !es.contains .sr2 then [.addressPending] else []) ++
  (if es.contains .sr2 && decide (moved - 1 < count.toNat) then [.dataPhase] else []) ++
  (if es.contains .stop && !es.contains (.sample .stopclr true) then [.stopPending] else [])

/-- The phases of the command running on an interface: none without one, or when it is no WRITE or READ. -/
def runningPhases (s : State) (i : Ifid) : List BusState :=
  match s.phase, s.cur.cmd with
  | .run, .write f | .run, .read f => if f.ifid = i then openPhases (commandEvents s.hist) f.count else []
  | _, _ => []

/-- How far an interface has come towards the state an OPEN leaves, since reset and its last `PDIS`: nothing is known of it,
`PRST` was performed, or `TIMING` after that (10_state.md R39, 60_exceptions.md R205). -/
inductive OpenStage where
  | unclaimed | afterReset | opened
  deriving DecidableEq, Repr

/-- What an event of an interface makes of its stage. -/
def OpenStage.after : OpenStage → Event → OpenStage
  | _,          .prst     => .afterReset
  | _,          .pdis     => .unclaimed
  | .unclaimed, .timing _ => .unclaimed
  | _,          .timing _ => .opened
  | st,         _         => st

/-- The stage of an interface as the history shows it. -/
def openStage (h : List HistEntry) (i : Ifid) : OpenStage :=
  h.foldl (fun st x => if x.ifid = i then st.after x.ev else st) .unclaimed

/-- The bus states of an interface (10_state.md R37): the phases of its running WRITE or READ, and Idle otherwise. `none` is
"makes no claim": outside those phases, after an error of the interface's last command (R37), and while no OPEN's `PRST`
and a `TIMING` have been performed since reset (R39) and since the last `PDIS` (60_exceptions.md R205). DEDUCED
(notes/assumptions/18.md). -/
def busStates (s : State) (i : Ifid) : Option (List BusState) :=
  match runningPhases s i with
  | []      =>
    match openStage s.hist i, lastDone (s.hist.filter fun h => h.ifid = i) with
    | .opened, some (.ok _) => some [.idle]
    | _, _                  => none
  | b :: bs => some (b :: bs)

/-! ## Event sequences of undisturbed transfers -/

/-- The byte of the buffer at an index. -/
def bufByte (m : Memory) (buf : Word) (k : Nat) : Byte := memGet m (bufAddr buf (BitVec.ofNat 16 k)).toNat

/-- `MemRead` of buffer byte `k` and the data-register write that sends it (20_memory.md R54). -/
def sendEvents (m : Memory) (buf : Word) (k : Nat) : List Event :=
  [.memRead (bufAddr buf (BitVec.ofNat 16 k)) (bufByte m buf k), .drWrite (bufByte m buf k)]

/-- The loop of DATA_OUT (42_write.md R134, R135) with every poll true at its first sample, from index `k` with `n` bytes to
go; `btf k` answers the shortcut's sample after byte `k`. -/
def outEvents (m : Memory) (buf : Word) (btf : Nat → Bool) : Nat → Nat → List Event
  | _, 0     => []
  | k, 1     => .sample .txe true :: sendEvents m buf k
  | k, n + 2 =>
    .sample .txe true :: sendEvents m buf k ++ .sample .btf (btf k) ::
      (if btf k then sendEvents m buf (k + 1) ++ outEvents m buf btf (k + 2) n
       else outEvents m buf btf (k + 1) (n + 1))

/-- The answers that make the loop of DATA_OUT take `outEvents`. -/
def outBits (btf : Nat → Bool) : Nat → Nat → List Bool
  | _, 0     => []
  | _, 1     => [true]
  | k, n + 2 => true :: btf k :: (if btf k then outBits btf (k + 2) n else outBits btf (k + 1) (n + 1))

/-- DATA_OUT with every poll true at its first sample and no acknowledge failure (42_write.md R134 to R137). -/
def dataOutEvents (m : Memory) (buf : Word) (btf : Nat → Bool) (f : Fields) : List Event :=
  outEvents m buf btf 0 f.count.toNat ++ .sample .txe true :: .sample .af false ::
    ((if f.stop then [.stop, .sample .stopclr true] else []) ++ [.done (.ok f.count)])

/-- The answers that make DATA_OUT take `dataOutEvents`. -/
def dataOutBits (btf : Nat → Bool) (f : Fields) : List Bool :=
  outBits btf 0 f.count.toNat ++ true :: false :: (if f.stop then [true] else [])

/-- The start and address phase of WRITE with every poll true at its first sample (42_write.md R130). -/
def writeEvents (f : Fields) : List Event :=
  [.accept (encode (.write f)), .pos false, .clearAf, .start, .sample .sb true, .drWrite (addressByte f.addr false),
    .sample .addr true, .sr1, .sr2]

/-- Receipt of a byte and its store at buffer index `k` (20_memory.md R54). -/
def receiveEvents (buf : Word) (k : Nat) (b : Byte) : List Event :=
  [.drRead b, .memWrite (bufAddr buf (BitVec.ofNat 16 k)) b]

/-- The stop event where a READ asks for one. -/
def stopEvent (stop : Bool) : List Event := if stop then [.stop] else []

/-- READ_N from its loop on, received bytes given, every poll true at its first sample (43_read.md R163). -/
def readNEvents (p : Platform) (stop : Bool) (buf : Word) : Nat → List Byte → List Event
  | k, [a, b, c] =>
    .sample .btf true :: .ack false :: (stopEvent (stop && p.read3Stop == .afterAckOff) ++ receiveEvents buf k a ++
      .sample .btf true :: (stopEvent (stop && p.read3Stop == .afterBtfB) ++ receiveEvents buf (k + 1) b ++
        receiveEvents buf (k + 2) c))
  | k, a :: t => .sample .rxne true :: (receiveEvents buf k a ++ readNEvents p stop buf (k + 1) t)
  | _, []     => []

/-- The sub-protocol of a READ of the given bytes, every poll true at its first sample (43_read.md R161 to R163). -/
def readBody (p : Platform) (stop : Bool) (buf : Word) : List Byte → List Event
  | []     => []
  | [a]    => .ack false :: (stopEvent stop ++ .sr1 :: .sr2 :: .sample .rxne true :: receiveEvents buf 0 a)
  | [a, b] =>
    .ack false :: .pos true :: .sr1 :: .sr2 :: .sample .btf true ::
      (stopEvent stop ++ receiveEvents buf 0 a ++ receiveEvents buf 1 b)
  | bs     => .sr1 :: .sr2 :: readNEvents p stop buf 0 bs

/-- A READ of the given bytes, every poll true at its first sample (43_read.md R160 to R164). -/
def readEvents (p : Platform) (f : Fields) (buf : Word) (bs : List Byte) : List Event :=
  [.accept (encode (.read f)), .pos false, .ack true, .clearAf, .start, .sample .sb true,
    .drWrite (addressByte f.addr true), .sample .addr true] ++ readBody p f.stop buf bs ++
    (if f.stop then [.sample .stopclr true] else []) ++ [.done (.ok f.count)]

/-- How many samples `readEvents` takes. -/
def sampleCount (es : List Event) : Nat :=
  es.countP fun e => match e with | .sample _ _ => true | _ => false

/-- The memory after the bytes are stored at consecutive buffer indices. -/
def storeBytes (buf : Word) : Nat → List Byte → Memory → Memory
  | _, [],     m => m
  | k, b :: t, m => storeBytes buf (k + 1) t (memSet m (bufAddr buf (BitVec.ofNat 16 k)).toNat b)

end Sys2Proof.Machine
end

