-- ==== Sys2Proof/Certificates/Slice0/Obligations.lean ====
section
/-! DEFINITION. The statements for the provers, from the numbered rules of spec/. -/

open Sys2Proof Sys2Proof.Machine

/-! ## Encoding -/

/-- Decoding the word of a command gives the command back, every field at every value (30_encoding.md section 1 and 2). -/
def Obligations.DecodeOfEncodeIsTheCommand : Prop :=
  ∀ i : Instr, decode (encode i) = .ok i

/-- A word that decodes is the word of its command: no bit of an accepted word is dropped (30_encoding.md section 1). -/
def Obligations.EncodeOfDecodeIsTheWord : Prop :=
  ∀ (w : Word) (i : Instr), decode w = .ok i → encode i = w

/-- 30_encoding.md R71: with the reserved bit clear, `OP` selects the command. -/
def Obligations.OpSelectsTheCommand : Prop :=
  ∀ w : Word, w[11] = false →
    (w.extractLsb' 0 3 = 1 → decode w = .ok (.openIf (operandFields w))) ∧
    (w.extractLsb' 0 3 = 2 → decode w = .ok (.close (operandFields w))) ∧
    (w.extractLsb' 0 3 = 3 → decode w = .ok (.setFreq (operandFields w))) ∧
    (w.extractLsb' 0 3 = 4 → decode w = .ok (.write (operandFields w))) ∧
    (w.extractLsb' 0 3 = 5 → decode w = .ok (.read (operandFields w))) ∧
    (w.extractLsb' 0 3 = 6 → decode w = .ok (.writeRaw (operandFields w))) ∧
    (w.extractLsb' 0 3 = 7 → decode w = .ok (.genStop (operandFields w))) ∧
    (w.extractLsb' 0 3 = 0 → ∃ e, decode w = .error e)

/-- The words of 30_encoding.md R80 and 95_test_vectors.md V-ENC decode to the commands written beside them. -/
def Obligations.SpecWordsDecode : Prop :=
  decode 0x00010684 = .ok (.write ⟨false, 0x68, 0, 1⟩) ∧
  decode 0x0038068D = .ok (.read ⟨true, 0x68, 0, 56⟩) ∧
  decode 0x0002000E = .ok (.writeRaw ⟨true, 0, 0, 2⟩) ∧
  decode 0x00001001 = .ok (.openIf ⟨false, 0, 1, 0⟩) ∧
  decode 0x00000007 = .ok (.genStop ⟨false, 0, 0, 0⟩) ∧
  decode 0xFFFF07FA = .ok (.close ⟨true, 0x7F, 0, 0xFFFF⟩) ∧
  decode 0x00000000 = .error .reservedOp ∧
  decode 0x00000801 = .error .reservedBit11

/-- 30_encoding.md R76: in IDLE a `CMD` write is refused exactly for a reserved `OP`, bit 11, a zero frequency, or a
buffer that wraps; any other word is accepted. -/
def Obligations.MeaninglessCommandsAreRefused : Prop :=
  ∀ (w : Word) (s : State), s.phase = .idle →
    (w.extractLsb' 0 3 = 0 ∨ w[11] = true → ∃ e, cmdWrite w s = .refused (.command e)) ∧
    (∀ i, decode w = .ok i → i.usesHz = true → s.hz = 0 → cmdWrite w s = .refused (.command .zeroFrequency)) ∧
    (∀ i, decode w = .ok i → i.usesBuf = true → 1 ≤ i.count.toNat → 2 ^ 32 - 1 < s.buf.toNat + i.count.toNat - 1 →
      cmdWrite w s = .refused (.command .bufferWraps)) ∧
    (∀ i, decode w = .ok i → i.wellFormed s.hz s.buf = true → ∃ t, cmdWrite w s = .next t)

/-- 30_encoding.md R72: the operands assembled at acceptance. -/
def Obligations.AcceptanceAssemblesTheOperands : Prop :=
  ∀ (w : Word) (i : Instr) (s : State), s.phase = .idle → decode w = .ok i → i.wellFormed s.hz s.buf = true →
    ∃ t, cmdWrite w s = .next t ∧
      opcode t.cur.cmd = w.extractLsb' 0 3 ∧ t.cur.cmd.stop = w[3] ∧ t.cur.cmd.addr = w.extractLsb' 4 7 ∧
      t.cur.cmd.ifid = w.extractLsb' 12 4 ∧ t.cur.cmd.count = w.extractLsb' 16 16 ∧
      t.cur.hz = s.hz ∧ t.cur.buf = s.buf

/-- 30_encoding.md R78: the address byte, and that WRITE sends it with direction 0 and READ with direction 1. -/
def Obligations.AddressByteOnTheBus : Prop :=
  (∀ (a : SlaveAddr) (d : Bool),
    addressByte a d = ((a.setWidth 8 <<< 1) ||| (BitVec.ofBool d).setWidth 8) ∧
    (addressByte a d).extractLsb' 1 7 = a ∧ (addressByte a d)[0] = d) ∧
  (∀ f s, Running (.write f) s → s.upc = .addrByte →
    exec (.write f) s = .next (did (.drWrite (addressByte f.addr false)) .addrStart s)) ∧
  (∀ f s, Running (.read f) s → s.upc = .addrByte →
    exec (.read f) s = .next (did (.drWrite (addressByte f.addr true)) .addrStart s))

/-- 30_encoding.md R73: a field a command does not read has no effect on any step: with another word of the same `OP` that
agrees on the fields it reads, and other values in the operand registers it does not use, it is refused in the same cases
and every later step is the same but for the latched command. -/
def Obligations.IgnoredFieldsHaveNoEffect : Prop :=
  ∀ (i j : Instr) (s : State) (hz buf : Word), sameOperands i j →
    ((i.usesHz = true → hz = s.hz) → (i.usesBuf = true → buf = s.buf) → s.phase = .idle →
      ∀ r, exec i s = .refused r ↔ exec j (withOperands hz buf s) = .refused r) ∧
    ((i.usesHz = true → hz = s.cur.hz) → (i.usesBuf = true → buf = s.cur.buf) → Running i s →
      exec j (withCur ⟨j, hz, buf⟩ s) = mapNext (withCur ⟨j, hz, buf⟩) (exec i s))

/-! ## Results -/

/-- 40_bounded_poll.md R96: the result codes, and the count a success reports. -/
def Obligations.ResultCodes : Prop :=
  (∀ n : Count, (encResult (.ok n)).toInt = n.toNat) ∧
  (∀ e : Err, (encResult (.err e)).toInt = -(16 * errCategory e + errCheck e : Nat)) ∧
  (encResult (.err .argIfidRange)).toInt = -17 ∧ (encResult (.err .argCountZero)).toInt = -18 ∧
  (encResult (.err .argHzMax)).toInt = -19 ∧ (encResult (.err .timeoutSb)).toInt = -36 ∧
  (encResult (.err .timeoutAddr)).toInt = -37 ∧ (encResult (.err .timeoutTxeData)).toInt = -38 ∧
  (encResult (.err .timeoutTxeFinal)).toInt = -39 ∧ (encResult (.err .timeoutRxne)).toInt = -41 ∧
  (encResult (.err .timeoutBtfA)).toInt = -42 ∧ (encResult (.err .timeoutBtfB)).toInt = -43 ∧
  (encResult (.err .timeoutStopclr)).toInt = -44 ∧ (encResult (.err .timeoutIdle)).toInt = -45 ∧
  (encResult (.err .nackAddr)).toInt = -53 ∧ (encResult (.err .nackAfFinal)).toInt = -56 ∧
  (∀ (i : Instr) (s t : State) (h : Ifid) (n : Count), Running i s → exec i s = .next t →
    t.hist = s.hist ++ [⟨h, .done (.ok n)⟩] → n = okCount i)

/-- A command ends only with the errors its rule lists (the Results lines of 41_lifecycle.md, 42_write.md, 43_read.md). -/
def Obligations.ErrorsAreThoseOfTheCommand : Prop :=
  ∀ (i : Instr) (s t : State) (h : Ifid) (e : Err), Running i s → exec i s = .next t →
    t.hist = s.hist ++ [⟨h, .done (.err e)⟩] → e ∈ errorsOf i

/-- 40_bounded_poll.md R97: the step that records `Done(r)` writes `RESULT`, sets IDLE, and does nothing else; and no other
step writes `RESULT` or leaves RUN. -/
def Obligations.FinishWritesResultAndStops : Prop :=
  ∀ (i : Instr) (s t : State), platformOk s.platform = true → Running i s → exec i s = .next t →
    (∃ r, t = ended r s ∧ status t = 0) ∨
    (t.result = s.result ∧ t.phase = .run ∧ ∃ e, t.hist = s.hist ++ [⟨i.ifid, e⟩] ∧ ∀ r, e ≠ .done r)

/-! ## The host port -/

/-- 10_state.md R39: the state after reset, where the spec gives it. -/
def Obligations.ResetState : Prop :=
  State.reset.phase = .idle ∧ State.reset.result = 0 ∧ status State.reset = 0 ∧ State.reset.hz = 0 ∧
  State.reset.buf = 0 ∧ (∀ i : Ifid, State.reset.cfg[i.toNat]? = some none) ∧ State.reset.hist = []

/-- Loads and stores of the register block (10_state.md section 1): what each register reads, that `HZ` and `BUF` take the
stored word, and that an unlisted offset reads 0 and ignores a store. That a store to `RESULT` or `STATUS` is ignored is
the model's choice (notes/assumptions/11.md). -/
def Obligations.RegisterBlockLoadsAndStores : Prop :=
  ∀ (s : State) (a v : Word) (rest : List HostOp), platformOk s.platform = true →
    regOffset s.platform a % 4 = 0 →
    (s.host = .regLoad a 4 :: rest →
      (regOffset s.platform a = 0x00 → step s = .next { s with host := rest, hostVal := 0 }) ∧
      (regOffset s.platform a = 0x04 → step s = .next { s with host := rest, hostVal := s.hz }) ∧
      (regOffset s.platform a = 0x08 → step s = .next { s with host := rest, hostVal := s.buf }) ∧
      (regOffset s.platform a = 0x0C → step s = .next { s with host := rest, hostVal := s.result }) ∧
      (regOffset s.platform a = 0x10 → s.phase = .idle → step s = .next { s with host := rest, hostVal := 0 }) ∧
      (regOffset s.platform a = 0x10 → s.phase = .run → step s = .next { s with host := rest, hostVal := 1 }) ∧
      (0x10 < regOffset s.platform a → step s = .next { s with host := rest, hostVal := 0 })) ∧
    (s.host = .regStore a 4 v :: rest →
      (regOffset s.platform a = 0x04 → step s = .next { s with host := rest, hz := v }) ∧
      (regOffset s.platform a = 0x08 → step s = .next { s with host := rest, buf := v }) ∧
      (regOffset s.platform a = 0x0C ∨ 0x10 ≤ regOffset s.platform a → step s = .next { s with host := rest }))

/-- 10_state.md R22: `HZ` and `BUF` hold what the host wrote, and the running command never reads them. -/
def Obligations.OperandRegistersAreReadOnlyAtAcceptance : Prop :=
  (∀ (v : Word) (s : State), regWrite offHz v s = .next { s with hz := v } ∧
    regWrite offBuf v s = .next { s with buf := v }) ∧
  (∀ (i : Instr) (s : State) (hz buf : Word), Running i s →
    exec i (withOperands hz buf s) = mapNext (withOperands hz buf) (exec i s))

/-- A `CMD` write while busy is the fault CMD_WHILE_BUSY (10_state.md section 1). That it is so for a reserved word too, which
alone would be refused, is the model's reading (notes/assumptions/24.md). -/
def Obligations.CommandWhileBusyFaults : Prop :=
  ∀ (s : State) (a w : Word) (rest : List HostOp), platformOk s.platform = true → s.phase = .run →
    regOffset s.platform a = 0 → s.host = .regStore a 4 w :: rest → step s = .fault .cmdWhileBusy

/-- The host's access to the running buffer is the fault BUF_RACE; any other access the memory admits goes through (20_memory.md
section 5). -/
def Obligations.HostMemoryAccessAndRace : Prop :=
  ∀ (s : State) (a : Word) (v : Byte) (rest : List HostOp), platformOk s.platform = true →
    (s.phase = .run → s.cur.cmd.usesBuf = true → s.cur.buf.toNat ≤ a.toNat →
      a.toNat < s.cur.buf.toNat + s.cur.cmd.count.toNat →
      (s.host = .memLoad a :: rest → step s = .fault .bufRace) ∧
      (s.host = .memStore a v :: rest → step s = .fault .bufRace)) ∧
    ((s.phase = .run → s.cur.cmd.usesBuf = true → s.cur.buf.toNat ≤ a.toNat →
        s.cur.buf.toNat + s.cur.cmd.count.toNat ≤ a.toNat) →
      (s.host = .memLoad a :: rest → admitsRead s.platform a = true →
        step s = .next { s with host := rest, hostVal := (memGet s.mem a.toNat).setWidth 32 }) ∧
      (s.host = .memStore a v :: rest → admitsWrite s.platform a = true → Memory.wf s.mem = true →
        ∃ t, step s = .next t ∧ t = { s with host := rest, mem := t.mem } ∧ memGet t.mem a.toNat = v ∧
          ∀ b, b ≠ a.toNat → memGet t.mem b = memGet s.mem b))

/-- A narrower, wider or misaligned access to the register block is refused (20_memory.md section 3). That alignment is that
of the offset from `ENGINE_BASE` is the model's reading (notes/assumptions/19.md). -/
def Obligations.RegisterAccessesAreAlignedWords : Prop :=
  ∀ (s : State) (a v : Word) (size : Nat) (rest : List HostOp), platformOk s.platform = true →
    size ≠ 4 ∨ regOffset s.platform a % 4 ≠ 0 →
    s.host = .regLoad a size :: rest ∨ s.host = .regStore a size v :: rest → step s = .refused .registerAccess

/-- Engine reset, while a command runs or not: the engine's registers, `cfg` and `hist` are as after reset and no `Done` is
recorded (70_reset_and_hazards.md section 1). That the host memory, the parameters and the host's list stay is the model's
reading (notes/assumptions/15.md). -/
def Obligations.EngineResetEndsTheCommand : Prop :=
  ∀ (s : State) (rest : List HostOp), platformOk s.platform = true → s.host = .engineReset :: rest →
    ∃ t, step s = .next t ∧ t.phase = .idle ∧ t.result = 0 ∧ t.hz = 0 ∧ t.buf = 0 ∧ t.hist = [] ∧
      (∀ i : Ifid, t.cfg[i.toNat]? = some none) ∧ t.mem = s.mem ∧ t.platform = s.platform ∧ t.host = rest

/-- A step runs the decoded command: a store of `CMD` in IDLE is `exec` of the command its word decodes to; while a command
runs and the host has no action, gives a turn or waits, a step is `exec` of the running command; and with no command and
no host action the engine waits. -/
def Obligations.StepRunsTheDecodedCommand : Prop :=
  ∀ s : State, platformOk s.platform = true →
    (∀ a w i rest, s.host = .regStore a 4 w :: rest → regOffset s.platform a = 0 → s.phase = .idle →
      decode w = .ok i → step s = exec i { s with host := rest }) ∧
    (∀ i, Running i s → s.host = [] → step s = exec i s) ∧
    (∀ i rest, Running i s → s.host = .engine :: rest → step s = exec i { s with host := rest }) ∧
    (∀ i rest, Running i s → s.host = .await :: rest → step s = exec i s) ∧
    (s.phase = .idle → s.host = [] → step s = .next s)

/-- The host sequences of 30_encoding.md section 5, in the model's host actions (notes/assumptions/12.md). CALL: from IDLE the
list stores `HZ` and `BUF` where the command uses them, then the store of `CMD` is `exec` of the command with the rest of
the list waiting and loading RESULT; the wait ends when `BUSY` reads 0, and the load gives the call's result. WRREAD: the
one-byte WRITE, then a skip that leaves out exactly the READ's call when the loaded result is negative, and nothing
otherwise. PROBE: the two calls; that its WRITE's call stores the READ's buffer is the model's choice
(notes/assumptions/27.md). -/
def Obligations.HostSequencesWaitAndSkip : Prop :=
  (∀ (s : State) (i : Instr) (hz buf : Word) (rest : List HostOp), platformOk s.platform = true → s.phase = .idle →
    s.host = callOps s.platform i hz buf ++ rest →
    stepFor ((if i.usesHz then 1 else 0) + (if i.usesBuf then 1 else 0) + 1) s = exec i { s with
      hz := if i.usesHz then hz else s.hz, buf := if i.usesBuf then buf else s.buf,
      host := .await :: .regLoad (regAddr s.platform offResult) 4 :: rest }) ∧
  (∀ (s : State) (rest : List HostOp), platformOk s.platform = true →
    (s.phase = .idle → s.host = .await :: rest → step s = .next { s with host := rest, hostVal := 0 }) ∧
    (s.host = .regLoad (regAddr s.platform offResult) 4 :: rest →
      step s = .next { s with host := rest, hostVal := s.result })) ∧
  (∀ (p : Platform) (j : Ifid) (a : SlaveAddr) (reg buf : Word) (n : Count), ∃ k,
    wrReadOps p j a reg n buf = callOps p (.write ⟨false, a, j, 1⟩) 0 reg ++
      .skipIfNeg k :: callOps p (.read ⟨true, a, j, n⟩) 0 buf ∧
    ∀ (s : State) (rest : List HostOp), platformOk s.platform = true →
      s.host = .skipIfNeg k :: (callOps p (.read ⟨true, a, j, n⟩) 0 buf ++ rest) →
      (s.hostVal.toInt < 0 → step s = .next { s with host := rest }) ∧
      (0 ≤ s.hostVal.toInt → step s = .next { s with host := callOps p (.read ⟨true, a, j, n⟩) 0 buf ++ rest })) ∧
  (∀ (p : Platform) (j : Ifid) (a : SlaveAddr) (buf : Word),
    probeOps p j a buf = callOps p (.write ⟨true, a, j, 0⟩) 0 buf ++ callOps p (.read ⟨true, a, j, 1⟩) 0 buf)

/-- A platform that breaks a constraint of the parameters is refused: the model's form of 00_scope.md section 3 and
20_memory.md section 6 (notes/assumptions/8.md). That rows which share one pin are refused
is the model's reading of "distinct pin pairs" (notes/assumptions/26.md). -/
def Obligations.PlatformConstraints : Prop :=
  (∀ s : State, platformOk s.platform = false → step s = .refused .badPlatform) ∧
  ∀ p : Platform, platformOk p = true ↔
    (1 ≤ p.registry.length ∧ p.registry.length ≤ 16 ∧ 1 ≤ p.shortBudget ∧ p.shortBudget ≤ p.longBudget ∧
      ∀ (a b : Nat), a < b → ∀ (x y : Descriptor), p.registry[a]? = some x → p.registry[b]? = some y →
        x.regs ≠ y.regs ∧ x.sda ≠ y.sda ∧ x.sda ≠ y.scl ∧ x.scl ≠ y.sda ∧ x.scl ≠ y.scl)

/-! ## Acceptance and the micro-programs -/

/-- The acceptance of a command whose operands have a meaning is one step, which latches it with `HZ` and `BUF`, enters RUN
at the entry, records `Accept(w)`, and does nothing else (10_state.md section 2). -/
def Obligations.AcceptanceIsOneStep : Prop :=
  ∀ (i : Instr) (s : State), s.phase = .idle → i.wellFormed s.hz s.buf = true →
    exec i s = .next { s with
      cur := ⟨i, s.hz, s.buf⟩, phase := .run, upc := .entry, hist := s.hist ++ [⟨i.ifid, .accept (encode i)⟩] }

/-- 40_bounded_poll.md R93: every command's first action is the interface check. -/
def Obligations.InterfaceCheckComesFirst : Prop :=
  ∀ (i : Instr) (s : State), Running i s → s.upc = .entry → s.platform.nIf ≤ i.ifid.toNat →
    exec i s = .next (ended (.err .argIfidRange) s)

/-- 41_lifecycle.md R110: OPEN's micro-program, point by point. -/
def Obligations.OpenMicroProgram : Prop :=
  ∀ (f : Fields) (s : State), Running (.openIf f) s →
    opcode (.openIf f) = 1 ∧
    (s.upc = .entry → s.platform.nIf ≤ f.ifid.toNat → exec (.openIf f) s = endsErr .argIfidRange s) ∧
    (s.upc = .entry → f.ifid.toNat < s.platform.nIf → exec (.openIf f) s = .next (did .clken .openReset s)) ∧
    (s.upc = .openReset → exec (.openIf f) s = .next (did .prst .openPins s)) ∧
    (s.upc = .openPins → exec (.openIf f) s = .next (did .pins .freqBody s)) ∧
    (s.upc = .freqBody → s.platform.maxHz < s.cur.hz.toNat → exec (.openIf f) s = endsErr .argHzMax s) ∧
    (s.upc = .freqBody → s.cur.hz.toNat ≤ s.platform.maxHz →
      exec (.openIf f) s = firstSample .idle .freqPoll .freqTiming (endsErr .timeoutIdle) s) ∧
    PollsAt (.openIf f) s .freqPoll .idle .freqTiming (endsErr .timeoutIdle) ∧
    (s.upc = .freqTiming → ∃ t, exec (.openIf f) s = .next t ∧ t = { did (.timing s.cur.hz) .finishOk s with cfg := t.cfg } ∧
      ∀ j : Ifid, t.cfg[j.toNat]? = if j = f.ifid then some (some s.cur.hz) else s.cfg[j.toNat]?) ∧
    (s.upc = .finishOk → exec (.openIf f) s = .next (ended (.ok 0) s))

/-- 41_lifecycle.md R113: SETFREQ's micro-program, point by point. -/
def Obligations.SetFreqMicroProgram : Prop :=
  ∀ (f : Fields) (s : State), Running (.setFreq f) s →
    opcode (.setFreq f) = 3 ∧
    (s.upc = .entry → s.platform.nIf ≤ f.ifid.toNat → exec (.setFreq f) s = endsErr .argIfidRange s) ∧
    (s.upc = .entry → f.ifid.toNat < s.platform.nIf → s.platform.maxHz < s.cur.hz.toNat →
      exec (.setFreq f) s = endsErr .argHzMax s) ∧
    (s.upc = .entry → f.ifid.toNat < s.platform.nIf → s.cur.hz.toNat ≤ s.platform.maxHz →
      exec (.setFreq f) s = firstSample .idle .freqPoll .freqTiming (endsErr .timeoutIdle) s) ∧
    PollsAt (.setFreq f) s .freqPoll .idle .freqTiming (endsErr .timeoutIdle) ∧
    (s.upc = .freqTiming → ∃ t, exec (.setFreq f) s = .next t ∧ t = { did (.timing s.cur.hz) .finishOk s with cfg := t.cfg } ∧
      ∀ j : Ifid, t.cfg[j.toNat]? = if j = f.ifid then some (some s.cur.hz) else s.cfg[j.toNat]?) ∧
    (s.upc = .finishOk → exec (.setFreq f) s = .next (ended (.ok 0) s))

/-- 41_lifecycle.md R116: CLOSE's micro-program, point by point: `PDIS` follows a failed idle poll too. -/
def Obligations.CloseMicroProgram : Prop :=
  ∀ (f : Fields) (s : State), Running (.close f) s →
    opcode (.close f) = 2 ∧
    (s.upc = .entry → s.platform.nIf ≤ f.ifid.toNat → exec (.close f) s = endsErr .argIfidRange s) ∧
    (s.upc = .entry → f.ifid.toNat < s.platform.nIf →
      exec (.close f) s =
        firstSample .idle .closePoll .closeDisable (fun s => .next (did .pdis .closeTimeout s)) s) ∧
    PollsAt (.close f) s .closePoll .idle .closeDisable (fun s => .next (did .pdis .closeTimeout s)) ∧
    (s.upc = .closeDisable → exec (.close f) s = .next (did .pdis .finishOk s)) ∧
    (s.upc = .closeTimeout → exec (.close f) s = endsErr .timeoutIdle s) ∧
    (s.upc = .finishOk → exec (.close f) s = .next (ended (.ok 0) s))

/-- The start and address phase of WRITE up to the cleared address condition, point by point (42_write.md section 1). -/
def Obligations.WriteStartAndAddressPhase : Prop :=
  ∀ (f : Fields) (s : State), Running (.write f) s →
    (s.upc = .entry → s.platform.nIf ≤ f.ifid.toNat → exec (.write f) s = endsErr .argIfidRange s) ∧
    (s.upc = .entry → f.ifid.toNat < s.platform.nIf → exec (.write f) s = .next (did (.pos false) .clearAf s)) ∧
    (s.upc = .clearAf → exec (.write f) s = .next (did .clearAf .start s)) ∧
    (s.upc = .start → exec (.write f) s = .next (did .start .sbStart s)) ∧
    (s.upc = .sbStart → exec (.write f) s = firstSample .sb .sbPoll .addrByte (endsErr .timeoutSb) s) ∧
    PollsAt (.write f) s .sbPoll .sb .addrByte (endsErr .timeoutSb) ∧
    (s.upc = .addrByte → exec (.write f) s = .next (did (.drWrite (addressByte f.addr false)) .addrStart s)) ∧
    (s.upc = .addrStart → exec (.write f) s = firstSample .addr .addrPoll .wrSr1
      (fun s => .next (asked .af (if answer .af s then .afNack else .afTimeout) s)) s) ∧
    PollsAt (.write f) s .addrPoll .addr .wrSr1
      (fun s => .next (asked .af (if answer .af s then .afNack else .afTimeout) s)) ∧
    (s.upc = .afNack → exec (.write f) s = endsErr .nackAddr s) ∧
    (s.upc = .afTimeout → exec (.write f) s = endsErr .timeoutAddr s) ∧
    (s.upc = .wrSr1 → exec (.write f) s = .next (did .sr1 .wrSr2 s)) ∧
    (s.upc = .wrSr2 → exec (.write f) s = .next (did .sr2 .outInit s))

/-- 42_write.md R134: DATA_OUT, point by point, for WRITE and WRITERAW. Its first action is WRITE's at `outInit` and
WRITERAW's at the entry (42_write.md R140). -/
def Obligations.DataOutMicroProgram : Prop :=
  ∀ (i : Instr) (f : Fields) (s : State), i = .write f ∨ i = .writeRaw f → Running i s →
    ((i = .write f ∧ s.upc = .outInit ∨ i = .writeRaw f ∧ s.upc = .entry ∧ f.ifid.toNat < s.platform.nIf) →
      exec i s = if f.count = 0
        then firstSample .txe .txeFinalPoll .outAf (endsErr .timeoutTxeFinal) { s with rem := f.count, idx := 0 }
        else firstSample .txe .txePoll .outRead (endsErr .timeoutTxeData) { s with rem := f.count, idx := 0 }) ∧
    PollsAt i s .txePoll .txe .outRead (endsErr .timeoutTxeData) ∧
    (s.upc = .outRead ∨ s.upc = .outReadB → admitsRead s.platform (s.cur.buf + s.idx.setWidth 32) = true →
      exec i s = .next { did (.memRead (s.cur.buf + s.idx.setWidth 32) (memGet s.mem (s.cur.buf + s.idx.setWidth 32).toNat))
        (if s.upc = .outRead then .outSend else .outSendB) s with
          dat := memGet s.mem (s.cur.buf + s.idx.setWidth 32).toNat }) ∧
    (s.upc = .outSend → exec i s = .next (did (.drWrite s.dat) .outNext s)) ∧
    (s.upc = .outSendB → exec i s = .next (did (.drWrite s.dat) .outNextB s)) ∧
    (s.upc = .outNext → s.rem - 1 ≠ 0 → ∃ t, t = { s with idx := s.idx + 1, rem := s.rem - 1 } ∧
      exec i s = .next (asked .btf (if answer .btf t then .outReadB else .outLoop) t)) ∧
    (s.upc = .outNext ∨ s.upc = .outNextB → s.rem - 1 = 0 →
      exec i s = firstSample .txe .txeFinalPoll .outAf (endsErr .timeoutTxeFinal)
        { s with idx := s.idx + 1, rem := s.rem - 1 }) ∧
    (s.upc = .outNextB → s.rem - 1 ≠ 0 →
      exec i s = firstSample .txe .txePoll .outRead (endsErr .timeoutTxeData)
        { s with idx := s.idx + 1, rem := s.rem - 1 }) ∧
    (s.upc = .outLoop → s.rem ≠ 0 →
      exec i s = firstSample .txe .txePoll .outRead (endsErr .timeoutTxeData) s) ∧
    (s.upc = .outLoop → s.rem = 0 →
      exec i s = firstSample .txe .txeFinalPoll .outAf (endsErr .timeoutTxeFinal) s) ∧
    PollsAt i s .txeFinalPoll .txe .outAf (endsErr .timeoutTxeFinal) ∧
    (s.upc = .outAf → exec i s = .next (asked .af (if answer .af s then .outNack else .outStop) s)) ∧
    (s.upc = .outNack → exec i s = endsErr .nackAfFinal s) ∧
    (s.upc = .outStop → f.stop = true → exec i s = .next (did .stop .stopStart s)) ∧
    (s.upc = .outStop → f.stop = false → exec i s = .next (ended (.ok f.count) s)) ∧
    (s.upc = .stopStart → exec i s = firstSample .stopclr .stopPoll .finishOk (endsErr .timeoutStopclr) s) ∧
    PollsAt i s .stopPoll .stopclr .finishOk (endsErr .timeoutStopclr) ∧
    (s.upc = .finishOk → exec i s = .next (ended (.ok f.count) s))

/-- 42_write.md R145: GENSTOP's micro-program, point by point. -/
def Obligations.GenStopMicroProgram : Prop :=
  ∀ (f : Fields) (s : State), Running (.genStop f) s →
    opcode (.genStop f) = 7 ∧
    (s.upc = .entry → s.platform.nIf ≤ f.ifid.toNat → exec (.genStop f) s = endsErr .argIfidRange s) ∧
    (s.upc = .entry → f.ifid.toNat < s.platform.nIf → exec (.genStop f) s = .next (did .stop .stopStart s)) ∧
    (s.upc = .stopStart →
      exec (.genStop f) s = firstSample .stopclr .stopPoll .finishOk (endsErr .timeoutStopclr) s) ∧
    PollsAt (.genStop f) s .stopPoll .stopclr .finishOk (endsErr .timeoutStopclr) ∧
    (s.upc = .finishOk → exec (.genStop f) s = .next (ended (.ok 0) s))

/-- 43_read.md R160: READ's common part, point by point, to the first action of the sub-protocol the count selects. -/
def Obligations.ReadCommonMicroProgram : Prop :=
  ∀ (f : Fields) (s : State), Running (.read f) s →
    (s.upc = .entry → s.platform.nIf ≤ f.ifid.toNat → exec (.read f) s = endsErr .argIfidRange s) ∧
    (s.upc = .entry → f.ifid.toNat < s.platform.nIf → f.count = 0 → exec (.read f) s = endsErr .argCountZero s) ∧
    (s.upc = .entry → f.ifid.toNat < s.platform.nIf → f.count ≠ 0 →
      exec (.read f) s = .next (did (.pos false) .setAck s)) ∧
    (s.upc = .setAck → exec (.read f) s = .next (did (.ack true) .clearAf s)) ∧
    (s.upc = .clearAf → exec (.read f) s = .next (did .clearAf .start s)) ∧
    (s.upc = .start → exec (.read f) s = .next (did .start .sbStart s)) ∧
    (s.upc = .sbStart → exec (.read f) s = firstSample .sb .sbPoll .addrByte (endsErr .timeoutSb) s) ∧
    PollsAt (.read f) s .sbPoll .sb .addrByte (endsErr .timeoutSb) ∧
    (s.upc = .addrByte → exec (.read f) s = .next (did (.drWrite (addressByte f.addr true)) .addrStart s)) ∧
    (s.upc = .addrStart → exec (.read f) s = firstSample .addr .addrPoll .rdSelect
      (fun s => .next (asked .af (if answer .af s then .afNack else .afTimeout) s)) s) ∧
    PollsAt (.read f) s .addrPoll .addr .rdSelect
      (fun s => .next (asked .af (if answer .af s then .afNack else .afTimeout) s)) ∧
    (s.upc = .afNack → exec (.read f) s = endsErr .nackAddr s) ∧
    (s.upc = .afTimeout → exec (.read f) s = endsErr .timeoutAddr s) ∧
    (s.upc = .rdSelect → f.count = 1 → exec (.read f) s = .next (did (.ack false) .r1Stop s)) ∧
    (s.upc = .rdSelect → f.count = 2 → exec (.read f) s = .next (did (.ack false) .r2Pos s)) ∧
    (s.upc = .rdSelect → f.count ≠ 1 → f.count ≠ 2 → exec (.read f) s = .next (did .sr1 .rnSr2 s))

/-- The state after a byte received from the data register. -/
def receivedAt (nxt : Upc) (s : State) : State :=
  { did (.drRead (answerByte s)) nxt s with bytes := s.bytes.tail, dat := answerByte s }

/-- The store of the received byte at buffer index `k`: it is an event, the byte reads back, and every other byte of memory
reads as before. The memory is in canonical form, which every step keeps (`Obligations.StepKeepsMemoryAndPlatform`). -/
def StoresAt (i : Instr) (s : State) (u : Upc) (k : Count) (nxt : Upc) : Prop :=
  s.upc = u → Memory.wf s.mem = true → admitsWrite s.platform (s.cur.buf + k.setWidth 32) = true →
    ∃ t, exec i s = .next t ∧ t = { did (.memWrite (s.cur.buf + k.setWidth 32) s.dat) nxt s with mem := t.mem } ∧
      memGet t.mem (s.cur.buf + k.setWidth 32).toNat = s.dat ∧
      ∀ a, a ≠ (s.cur.buf + k.setWidth 32).toNat → memGet t.mem a = memGet s.mem a

/-- 43_read.md R161: READ_1, point by point. Its first action `ACK:=0` is at `rdSelect`. -/
def Obligations.ReadOneMicroProgram : Prop :=
  ∀ (f : Fields) (s : State), Running (.read f) s →
    (s.upc = .rdSelect → f.count = 1 → exec (.read f) s = .next (did (.ack false) .r1Stop s)) ∧
    (s.upc = .r1Stop → f.stop = true → exec (.read f) s = .next (did .stop .r1Sr1 s)) ∧
    (s.upc = .r1Stop → f.stop = false → exec (.read f) s = .next (did .sr1 .r1Sr2 s)) ∧
    (s.upc = .r1Sr1 → exec (.read f) s = .next (did .sr1 .r1Sr2 s)) ∧
    (s.upc = .r1Sr2 → exec (.read f) s = .next (did .sr2 .r1Start s)) ∧
    (s.upc = .r1Start → exec (.read f) s = firstSample .rxne .r1Poll .r1Read (endsErr .timeoutRxne) s) ∧
    PollsAt (.read f) s .r1Poll .rxne .r1Read (endsErr .timeoutRxne) ∧
    (s.upc = .r1Read → exec (.read f) s = .next (receivedAt .r1Store s)) ∧
    StoresAt (.read f) s .r1Store 0 .readEnd

/-- 43_read.md R162: READ_2, point by point. Its first action `ACK:=0` is at `rdSelect`. -/
def Obligations.ReadTwoMicroProgram : Prop :=
  ∀ (f : Fields) (s : State), Running (.read f) s →
    (s.upc = .rdSelect → f.count = 2 → exec (.read f) s = .next (did (.ack false) .r2Pos s)) ∧
    (s.upc = .r2Pos → exec (.read f) s = .next (did (.pos true) .r2Sr1 s)) ∧
    (s.upc = .r2Sr1 → exec (.read f) s = .next (did .sr1 .r2Sr2 s)) ∧
    (s.upc = .r2Sr2 → exec (.read f) s = .next (did .sr2 .r2Start s)) ∧
    (s.upc = .r2Start → exec (.read f) s = firstSample .btf .r2Poll .r2Stop (endsErr .timeoutBtfA) s) ∧
    PollsAt (.read f) s .r2Poll .btf .r2Stop (endsErr .timeoutBtfA) ∧
    (s.upc = .r2Stop → f.stop = true → exec (.read f) s = .next (did .stop .r2Read1 s)) ∧
    (s.upc = .r2Stop → f.stop = false → exec (.read f) s = .next (receivedAt .r2Store1 s)) ∧
    (s.upc = .r2Read1 → exec (.read f) s = .next (receivedAt .r2Store1 s)) ∧
    StoresAt (.read f) s .r2Store1 0 .r2Read2 ∧
    (s.upc = .r2Read2 → exec (.read f) s = .next (receivedAt .r2Store2 s)) ∧
    StoresAt (.read f) s .r2Store2 1 .readEnd

/-- 43_read.md R163: READ_N, point by point, for both values of READ3_STOP_POINT. Its first action is at `rdSelect`. -/
def Obligations.ReadManyMicroProgram : Prop :=
  ∀ (f : Fields) (s : State), Running (.read f) s →
    (s.upc = .rdSelect → f.count ≠ 1 → f.count ≠ 2 → exec (.read f) s = .next (did .sr1 .rnSr2 s)) ∧
    (s.upc = .rnSr2 → exec (.read f) s = .next (did .sr2 .rnInit s)) ∧
    (s.upc = .rnInit → ∃ t, t = { s with rem := f.count, idx := 0 } ∧
      exec (.read f) s = if 3 < t.rem.toNat then firstSample .rxne .rnPoll .rnRead (endsErr .timeoutRxne) t
        else firstSample .btf .rnBtfAPoll .rnAckOff (endsErr .timeoutBtfA) t) ∧
    PollsAt (.read f) s .rnPoll .rxne .rnRead (endsErr .timeoutRxne) ∧
    (s.upc = .rnRead → exec (.read f) s = .next (receivedAt .rnStore s)) ∧
    StoresAt (.read f) s .rnStore s.idx .rnNext ∧
    (s.upc = .rnNext → ∃ t, t = { s with idx := s.idx + 1, rem := s.rem - 1 } ∧
      exec (.read f) s = if 3 < t.rem.toNat then firstSample .rxne .rnPoll .rnRead (endsErr .timeoutRxne) t
        else firstSample .btf .rnBtfAPoll .rnAckOff (endsErr .timeoutBtfA) t) ∧
    PollsAt (.read f) s .rnBtfAPoll .btf .rnAckOff (endsErr .timeoutBtfA) ∧
    (s.upc = .rnAckOff → exec (.read f) s = .next (did (.ack false) .rnStopA s)) ∧
    (s.upc = .rnStopA → exec (.read f) s =
      if f.stop = true ∧ s.platform.read3Stop = .afterAckOff then .next (did .stop .rnReadA s)
      else .next (receivedAt .rnStoreA s)) ∧
    (s.upc = .rnReadA → exec (.read f) s = .next (receivedAt .rnStoreA s)) ∧
    StoresAt (.read f) s .rnStoreA s.idx .rnBtfBStart ∧
    (s.upc = .rnBtfBStart → exec (.read f) s =
      firstSample .btf .rnBtfBPoll .rnStopB (endsErr .timeoutBtfB) { s with idx := s.idx + 1, rem := s.rem - 1 }) ∧
    PollsAt (.read f) s .rnBtfBPoll .btf .rnStopB (endsErr .timeoutBtfB) ∧
    (s.upc = .rnStopB → exec (.read f) s =
      if f.stop = true ∧ s.platform.read3Stop = .afterBtfB then .next (did .stop .rnReadB s)
      else .next (receivedAt .rnStoreB s)) ∧
    (s.upc = .rnReadB → exec (.read f) s = .next (receivedAt .rnStoreB s)) ∧
    StoresAt (.read f) s .rnStoreB s.idx .rnReadC ∧
    (s.upc = .rnReadC →
      exec (.read f) s = .next (receivedAt .rnStoreC { s with idx := s.idx + 1, rem := s.rem - 1 })) ∧
    StoresAt (.read f) s .rnStoreC s.idx .readEnd

/-- 43_read.md R164: READ_END, point by point. -/
def Obligations.ReadEndMicroProgram : Prop :=
  ∀ (f : Fields) (s : State), Running (.read f) s →
    (s.upc = .readEnd → f.stop = true →
      exec (.read f) s = firstSample .stopclr .stopPoll .finishOk (endsErr .timeoutStopclr) s) ∧
    (s.upc = .readEnd → f.stop = false → exec (.read f) s = .next (ended (.ok f.count) s)) ∧
    PollsAt (.read f) s .stopPoll .stopclr .finishOk (endsErr .timeoutStopclr) ∧
    (s.upc = .finishOk → exec (.read f) s = .next (ended (.ok f.count) s))

/-- At every point of its micro-program a running command takes a step: one event of its interface, and then it is either at
a point of its micro-program or ended. The memory must admit the bytes of the buffer; where it refuses one, the engine is
stuck (20_memory.md section 2). -/
def Obligations.EveryPointTakesOneAction : Prop :=
  ∀ (i : Instr) (s : State), Running i s → s.upc ∈ points i →
    (∀ k : Count, admitsRead s.platform (bufAddr s.cur.buf k) = true ∧
      admitsWrite s.platform (bufAddr s.cur.buf k) = true) →
    ∃ t e, exec i s = .next t ∧ t.hist = s.hist ++ [⟨i.ifid, e⟩] ∧ SameOutside s t ∧ t.cur = s.cur ∧
      (t.phase = .run ∧ t.upc ∈ points i ∨ t.phase = .idle ∧ ∃ r, e = .done r)

/-- 20_memory.md section 2: where the host memory refuses a byte the engine is stuck, a fault in this model. -/
def Obligations.RefusedMemoryAccessIsStuck : Prop :=
  (∀ (i : Instr) (f : Fields) (s : State), i = .write f ∨ i = .writeRaw f → Running i s →
    s.upc = .outRead ∨ s.upc = .outReadB → admitsRead s.platform (bufAddr s.cur.buf s.idx) = false →
    exec i s = .fault .memRefused) ∧
  (∀ (f : Fields) (s : State) (k : Count), Running (.read f) s → storeIndex s = some k →
    admitsWrite s.platform (bufAddr s.cur.buf k) = false → exec (.read f) s = .fault .memRefused)

/-! ## Polls -/

/-- 40_bounded_poll.md R90 at every poll of every command: with `k` false answers and then a true one within what is left of
the budget it takes `k + 1` samples and succeeds; with only false answers it takes exactly the samples left, and the
next step takes no sample of the poll. -/
def Obligations.PollIsBounded : Prop :=
  ∀ (i : Instr) (s : State) (c : Cond) (ok : Upc) (rest : List Bool), Running i s → pollLoop i s.upc = some (c, ok) →
    (∀ k, s.pcnt + k < budget s.platform c → s.bits = List.replicate k false ++ true :: rest →
      execFor i (k + 1) s = .next { s with
        hist := s.hist ++ tagged i.ifid (List.replicate k (.sample c false) ++ [.sample c true]),
        bits := rest, pcnt := s.pcnt + k + 1, upc := ok }) ∧
    (∀ k, s.pcnt + k = budget s.platform c → s.bits = List.replicate k false ++ rest →
      execFor i k s = .next { s with
        hist := s.hist ++ tagged i.ifid (List.replicate k (.sample c false)),
        bits := rest, pcnt := s.pcnt + k } ∧
      ∀ t, execFor i (k + 1) s = .next t → ∀ v, lastEvent t ≠ some (.sample c v))

/-- 40_bounded_poll.md R98: a failed address poll is classified by one sample of AF, and every other failed poll ends the
command at once with its timeout; CLOSE disables the peripheral before (40_bounded_poll.md R99). -/
def Obligations.FailedPollsAreClassified : Prop :=
  ∀ (i : Instr) (s : State) (c : Cond) (ok : Upc), Running i s → pollLoop i s.upc = some (c, ok) →
    budget s.platform c ≤ s.pcnt →
    (c = .addr → ∃ t, exec i s = .next t ∧
      t = asked .af (if answer .af s then .afNack else .afTimeout) s ∧
      exec i t = if answer .af s then endsErr .nackAddr t else endsErr .timeoutAddr t) ∧
    (c ≠ .addr → (∀ f, i ≠ .close f) → ∃ e, pollError i s.upc = some e ∧ errCategory e = 2 ∧ exec i s = endsErr e s) ∧
    (∀ f, i = .close f → ∃ t, exec i s = .next t ∧ t = did .pdis .closeTimeout s ∧ exec i t = endsErr .timeoutIdle t)

/-! ## Whole runs -/

/-- What a whole run of a command leaves: it is over with a result and a history, and everything outside is as before. -/
def RunLeaves (s t : State) (i : Ifid) (es : List Event) (r : Result) : Prop :=
  t.phase = .idle ∧ t.result = encResult r ∧ t.hist = s.hist ++ tagged i es ∧ SameOutside s t

/-- OPEN from acceptance to `Done(Ok(0))` when the bus is idle at sample `k + 1` (41_lifecycle.md section on OPEN). -/
def Obligations.OpenRunsToCompletion : Prop :=
  ∀ (f : Fields) (s : State) (k : Nat) (rest : List Bool), s.phase = .idle → s.hz ≠ 0 →
    f.ifid.toNat < s.platform.nIf → s.hz.toNat ≤ s.platform.maxHz → k < s.platform.longBudget →
    s.bits = List.replicate k false ++ true :: rest →
    ∃ t, execFor (.openIf f) (k + 7) s = .next t ∧
      RunLeaves s t f.ifid ([.accept (encode (.openIf f)), .clken, .prst, .pins] ++
        List.replicate k (.sample .idle false) ++ [.sample .idle true, .timing s.hz, .done (.ok 0)]) (.ok 0) ∧
      t.bits = rest ∧ t.mem = s.mem ∧
      ∀ j : Ifid, t.cfg[j.toNat]? = if j = f.ifid then some (some s.hz) else s.cfg[j.toNat]?

/-- 41_lifecycle.md R111: OPEN over the maximum frequency has clocked, reset and configured the interface when it ends, and
leaves `cfg` alone. -/
def Obligations.OpenOverMaximumTouchesHardware : Prop :=
  ∀ (f : Fields) (s : State), s.phase = .idle → s.platform.maxHz < s.hz.toNat → f.ifid.toNat < s.platform.nIf →
    ∃ t, execFor (.openIf f) 5 s = .next t ∧
      RunLeaves s t f.ifid [.accept (encode (.openIf f)), .clken, .prst, .pins, .done (.err .argHzMax)]
        (.err .argHzMax) ∧
      t.bits = s.bits ∧ t.mem = s.mem ∧ t.cfg = s.cfg

/-- SETFREQ from acceptance to its end: over the maximum, with the bus idle at sample `k + 1`, and with the bus never idle;
in the first and the last case `cfg` stays as it was (41_lifecycle.md section on SETFREQ). -/
def Obligations.SetFreqRunsToCompletion : Prop :=
  ∀ (f : Fields) (s : State) (rest : List Bool), s.phase = .idle → s.hz ≠ 0 → f.ifid.toNat < s.platform.nIf →
    (s.platform.maxHz < s.hz.toNat → ∃ t, execFor (.setFreq f) 2 s = .next t ∧
      RunLeaves s t f.ifid [.accept (encode (.setFreq f)), .done (.err .argHzMax)] (.err .argHzMax) ∧
      t.cfg = s.cfg ∧ t.mem = s.mem ∧ t.bits = s.bits) ∧
    (∀ k, s.hz.toNat ≤ s.platform.maxHz → k < s.platform.longBudget → s.bits = List.replicate k false ++ true :: rest →
      ∃ t, execFor (.setFreq f) (k + 4) s = .next t ∧
        RunLeaves s t f.ifid (.accept (encode (.setFreq f)) :: List.replicate k (.sample .idle false) ++
          [.sample .idle true, .timing s.hz, .done (.ok 0)]) (.ok 0) ∧
        t.bits = rest ∧ t.mem = s.mem ∧
        ∀ j : Ifid, t.cfg[j.toNat]? = if j = f.ifid then some (some s.hz) else s.cfg[j.toNat]?) ∧
    (s.hz.toNat ≤ s.platform.maxHz → 1 ≤ s.platform.longBudget →
      s.bits = List.replicate s.platform.longBudget false ++ rest →
      ∃ t, execFor (.setFreq f) (s.platform.longBudget + 2) s = .next t ∧
        RunLeaves s t f.ifid (.accept (encode (.setFreq f)) ::
          List.replicate s.platform.longBudget (.sample .idle false) ++ [.done (.err .timeoutIdle)]) (.err .timeoutIdle) ∧
        t.bits = rest ∧ t.mem = s.mem ∧ t.cfg = s.cfg)

/-- CLOSE from acceptance to its end: with the bus idle at sample `k + 1`, and with the bus never idle, when it disables the
peripheral all the same (41_lifecycle.md section on CLOSE). -/
def Obligations.CloseRunsToCompletion : Prop :=
  ∀ (f : Fields) (s : State) (rest : List Bool), s.phase = .idle → f.ifid.toNat < s.platform.nIf →
    (∀ k, k < s.platform.longBudget → s.bits = List.replicate k false ++ true :: rest →
      ∃ t, execFor (.close f) (k + 4) s = .next t ∧
        RunLeaves s t f.ifid (.accept (encode (.close f)) :: List.replicate k (.sample .idle false) ++
          [.sample .idle true, .pdis, .done (.ok 0)]) (.ok 0) ∧
        t.bits = rest ∧ t.mem = s.mem ∧ t.cfg = s.cfg) ∧
    (1 ≤ s.platform.longBudget → s.bits = List.replicate s.platform.longBudget false ++ rest →
      ∃ t, execFor (.close f) (s.platform.longBudget + 3) s = .next t ∧
        RunLeaves s t f.ifid (.accept (encode (.close f)) ::
          List.replicate s.platform.longBudget (.sample .idle false) ++ [.pdis, .done (.err .timeoutIdle)])
          (.err .timeoutIdle) ∧
        t.bits = rest ∧ t.mem = s.mem ∧ t.cfg = s.cfg)

/-- GENSTOP from acceptance to its end: with the stop cleared at sample `k + 1`, and with a stop that never clears
(42_write.md section 3). -/
def Obligations.GenStopRunsToCompletion : Prop :=
  ∀ (f : Fields) (s : State) (rest : List Bool), s.phase = .idle → f.ifid.toNat < s.platform.nIf →
    (∀ k, k < s.platform.shortBudget → s.bits = List.replicate k false ++ true :: rest →
      ∃ t, execFor (.genStop f) (k + 4) s = .next t ∧
        RunLeaves s t f.ifid (.accept (encode (.genStop f)) :: .stop :: List.replicate k (.sample .stopclr false) ++
          [.sample .stopclr true, .done (.ok 0)]) (.ok 0) ∧
        t.bits = rest ∧ t.mem = s.mem ∧ t.cfg = s.cfg) ∧
    (1 ≤ s.platform.shortBudget → s.bits = List.replicate s.platform.shortBudget false ++ rest →
      ∃ t, execFor (.genStop f) (s.platform.shortBudget + 3) s = .next t ∧
        RunLeaves s t f.ifid (.accept (encode (.genStop f)) :: .stop ::
          List.replicate s.platform.shortBudget (.sample .stopclr false) ++ [.done (.err .timeoutStopclr)])
          (.err .timeoutStopclr) ∧
        t.bits = rest ∧ t.mem = s.mem ∧ t.cfg = s.cfg)

/-- An undisturbed WRITE of any length, for every pattern of BTF answers: the buffer's bytes go out in index order after the
address byte, the result is the count, and memory is unchanged (42_write.md section 1). -/
def Obligations.WriteRunsToCompletion : Prop :=
  ∀ (f : Fields) (s : State) (btf : Nat → Bool) (rest : List Bool), s.phase = .idle →
    f.ifid.toNat < s.platform.nIf → 1 ≤ s.platform.shortBudget →
    (Instr.write f).wellFormed s.hz s.buf = true →
    (∀ k : Count, k.toNat < f.count.toNat → admitsRead s.platform (bufAddr s.buf k) = true) →
    s.bits = [true, true] ++ dataOutBits btf f ++ rest →
    ∃ t, execFor (.write f) (writeEvents f ++ dataOutEvents s.mem s.buf btf f).length s = .next t ∧
      RunLeaves s t f.ifid (writeEvents f ++ dataOutEvents s.mem s.buf btf f) (.ok f.count) ∧
      t.bits = rest ∧ t.mem = s.mem ∧ t.cfg = s.cfg

/-- An undisturbed WRITERAW of any length: DATA_OUT alone (42_write.md section 2). -/
def Obligations.WriteRawRunsToCompletion : Prop :=
  ∀ (f : Fields) (s : State) (btf : Nat → Bool) (rest : List Bool), s.phase = .idle →
    f.ifid.toNat < s.platform.nIf → 1 ≤ s.platform.shortBudget →
    (Instr.writeRaw f).wellFormed s.hz s.buf = true →
    (∀ k : Count, k.toNat < f.count.toNat → admitsRead s.platform (bufAddr s.buf k) = true) →
    s.bits = dataOutBits btf f ++ rest →
    ∃ t, execFor (.writeRaw f) ((dataOutEvents s.mem s.buf btf f).length + 1) s = .next t ∧
      RunLeaves s t f.ifid (.accept (encode (.writeRaw f)) :: dataOutEvents s.mem s.buf btf f) (.ok f.count) ∧
      t.bits = rest ∧ t.mem = s.mem ∧ t.cfg = s.cfg

/-- An undisturbed READ of any length from 1: the received bytes are stored at the buffer's indices in order, the events are
those of the sub-protocol the count selects, and the result is the count (43_read.md). -/
def Obligations.ReadRunsToCompletion : Prop :=
  ∀ (f : Fields) (s : State) (bs more : List Byte) (rest : List Bool), s.phase = .idle →
    f.ifid.toNat < s.platform.nIf → 1 ≤ s.platform.shortBudget →
    (Instr.read f).wellFormed s.hz s.buf = true → f.count ≠ 0 → bs.length = f.count.toNat →
    (∀ k : Count, k.toNat < f.count.toNat → admitsWrite s.platform (bufAddr s.buf k) = true) →
    s.bytes = bs ++ more →
    s.bits = List.replicate (sampleCount (readEvents s.platform f s.buf bs)) true ++ rest →
    ∃ t, execFor (.read f) (readEvents s.platform f s.buf bs).length s = .next t ∧
      RunLeaves s t f.ifid (readEvents s.platform f s.buf bs) (.ok f.count) ∧
      t.bits = rest ∧ t.bytes = more ∧ t.cfg = s.cfg ∧ t.mem = storeBytes s.buf 0 bs s.mem

/-- Whatever the oracle answers, a command that has been accepted ends within its bound, where the host memory admits every
access it makes to its buffer (40_bounded_poll.md section 4). -/
def Obligations.EveryCommandEndsWithinItsBound : Prop :=
  ∀ (i : Instr) (s : State), Running i s → s.upc = .entry → BufferAdmitted i s →
    ∃ n t, n ≤ stepBound s.platform i ∧ execFor i n s = .next t ∧ t.phase = .idle

/-! ## Frames -/

/-- What every step of a running command leaves alone and the one event it adds: 10_state.md R22, R24, R26, R35. -/
def Obligations.EachStepIsOneEventOfTheCommand : Prop :=
  ∀ (i : Instr) (s t : State), Running i s → exec i s = .next t →
    SameOutside s t ∧ t.cur = s.cur ∧ (∃ e, t.hist = s.hist ++ [⟨i.ifid, e⟩]) ∧
    (s.bits = t.bits ∨ s.bits.tail = t.bits) ∧ (s.bytes = t.bytes ∨ s.bytes.tail = t.bytes)

/-- 10_state.md R29: `cfg[ifid].hz` is written only by the `TIMING` step of an OPEN or SETFREQ, for its own interface, and
no other step of any command changes it. -/
def Obligations.ConfigurationIsWrittenOnlyByTiming : Prop :=
  ∀ (i : Instr) (s t : State), exec i s = .next t →
    (t.cfg = s.cfg ∧ (∀ hz, t.hist ≠ s.hist ++ [⟨i.ifid, .timing hz⟩])) ∨
    (((∃ f, i = .openIf f) ∨ ∃ f, i = .setFreq f) ∧ s.phase = .run ∧ s.upc = .freqTiming ∧
      t.hist = s.hist ++ [⟨i.ifid, .timing s.cur.hz⟩] ∧
      ∀ j : Ifid, t.cfg[j.toNat]? = if j = i.ifid then some (some s.cur.hz) else s.cfg[j.toNat]?)

/-- The memory frame of every command: only READ stores, one byte of its buffer at the index of its point, and every other
byte reads as before (20_memory.md section 1, 42_write.md R139, 43_read.md R166). -/
def Obligations.MemoryIsWrittenOnlyByRead : Prop :=
  ∀ (i : Instr) (s t : State), exec i s = .next t →
    ((∀ f, i ≠ .read f) ∨ s.phase = .idle ∨ storeIndex s = none → t.mem = s.mem) ∧
    (∀ k, Memory.wf s.mem = true → Running i s → (∃ f, i = .read f) → storeIndex s = some k →
      memGet t.mem (bufAddr s.cur.buf k).toNat = s.dat ∧
      ∀ a, a ≠ (bufAddr s.cur.buf k).toNat → memGet t.mem a = memGet s.mem a)

/-- 20_memory.md R52: a memory access of a command that runs well is of a byte of its buffer. -/
def Obligations.BufferAccessesStayInside : Prop :=
  ∀ (i : Instr) (s t : State) (h : Ifid) (a : Word) (v : Byte), Controlled s → Running i s → exec i s = .next t →
    (t.hist = s.hist ++ [⟨h, .memRead a v⟩] ∨ t.hist = s.hist ++ [⟨h, .memWrite a v⟩]) →
    i.usesBuf = true ∧ ∃ k : Nat, k < i.count.toNat ∧ a.toNat = s.cur.buf.toNat + k

/-- A command on one interface leaves the history and the configuration of every other alone, and on a sound platform other
interfaces have other register blocks (20_memory.md section 6). -/
def Obligations.InterfacesAreIsolated : Prop :=
  (∀ (i : Instr) (s t : State) (j : Ifid), exec i s = .next t → j ≠ i.ifid →
    t.hist.filter (fun h => h.ifid = j) = s.hist.filter (fun h => h.ifid = j) ∧ t.cfg[j.toNat]? = s.cfg[j.toNat]? ∧
    ackLatch t.hist j = ackLatch s.hist j ∧ posLatch t.hist j = posLatch s.hist j) ∧
  (∀ (p : Platform) (x y : HistEntry) (a b : Nat), platformOk p = true → x.ifid ≠ y.ifid →
    eventRegs p x = some a → eventRegs p y = some b → a ≠ b)

/-! ## Invariants -/

/-- The machine's invariants hold at reset. -/
def Obligations.ResetMeetsTheInvariants : Prop :=
  Sound State.reset ∧ Controlled State.reset ∧ Recorded State.reset ∧ Adjacent State.reset ∧ Armed State.reset

/-- Every step keeps the memory in canonical form and the parameters as they are. -/
def Obligations.StepKeepsMemoryAndPlatform : Prop :=
  ∀ s t : State, Sound s → step s = .next t → Sound t ∧ t.platform = s.platform

/-- Every step keeps the control invariant: `upc` stays in the running command's micro-program, `idx + rem = count` in the
data phase, and `pcnt` within the poll's budget. -/
def Obligations.StepKeepsControl : Prop :=
  ∀ s t : State, Controlled s → step s = .next t → Controlled t

/-- Every step keeps `RESULT` and `cfg` what the history records. -/
def Obligations.StepKeepsTheRecords : Prop :=
  ∀ s t : State, Recorded s → step s = .next t → Recorded t

/-- Every step keeps the adjacency of a byte's two actions and of the two status reads. -/
def Obligations.StepKeepsAdjacency : Prop :=
  ∀ s t : State, Adjacent s → step s = .next t → Adjacent t

/-- Every step keeps the latches at the points of READ and WRITE: the NACK-arming invariant of 43_read.md section on R165 and
the latches READ leaves (R168). -/
def Obligations.StepKeepsTheArming : Prop :=
  ∀ s t : State, Controlled s → Armed s → step s = .next t → Armed t

/-- 43_read.md R165's order at the last byte: when a READ that runs well reads its last byte from the data register, its
acknowledge latch is off, and POS is on exactly in the two-byte case. -/
def Obligations.LastByteIsReadWithAcknowledgeOff : Prop :=
  ∀ (f : Fields) (s t : State) (b : Byte), Controlled s → Armed s → Running (.read f) s → exec (.read f) s = .next t →
    t.hist = s.hist ++ [⟨f.ifid, .drRead b⟩] → t.upc = .r1Store ∨ t.upc = .r2Store2 ∨ t.upc = .rnStoreC →
    ackLatch s.hist f.ifid = some false ∧ posLatch s.hist f.ifid = some (f.count == 2)

/-- A byte is sent in the step right after it was read from the buffer, and the byte stored is the one just received; the
second status read follows the first at once (20_memory.md section 2, 70_reset_and_hazards.md section 3). -/
def Obligations.BytesMoveInAdjacentSteps : Prop :=
  ∀ (i : Instr) (s t : State) (h : Ifid), Adjacent s → Running i s → exec i s = .next t →
    (∀ b, t.hist = s.hist ++ [⟨h, .drWrite b⟩] → s.upc ≠ .addrByte →
      lastEvent s = some (.memRead (bufAddr s.cur.buf s.idx) b)) ∧
    (∀ a b, t.hist = s.hist ++ [⟨h, .memWrite a b⟩] → lastEvent s = some (.drRead b)) ∧
    (t.hist = s.hist ++ [⟨h, .sr2⟩] → lastEvent s = some .sr1)
end

