-- ==== Sys2Proof/Laws/Decode.lean ====
section
/-! SUPPORT. The fields of a packed word (30_encoding.md R70), and when the operand values of a command are refused (R76). -/

namespace Sys2Proof

@[simp] theorem opField_packWord (f : Fields) (op : BitVec 3) : opField (packWord f op) = op := by
  ext k hk
  interval_cases k <;> simp [opField, packWord]

@[simp] theorem reservedBit_packWord (f : Fields) (op : BitVec 3) : (packWord f op)[11] = false := by
  simp [packWord]

@[simp] theorem operandFields_packWord (f : Fields) (op : BitVec 3) : operandFields (packWord f op) = f := by
  obtain ⟨st, a, i, c⟩ := f
  simp only [operandFields, packWord, Fields.mk.injEq]
  refine ⟨by simp, ?_, ?_, ?_⟩ <;> ext k hk <;> interval_cases k <;> simp

/-- The bits the opcode table's mask 0x807 keeps are `OP` and the zero bit 11. -/
theorem packWord_and_mask (f : Fields) (op : BitVec 3) : packWord f op &&& 0x807 = op.setWidth 32 := by
  ext k hk
  interval_cases k <;> simp [packWord]

/-- Operand values are refused exactly where the command is not well formed with them. -/
theorem refusedOperands_eq_none (i : Instr) (hz buf : Word) :
    refusedOperands i hz buf = none ↔ i.wellFormed hz buf = true := by
  cases i with
  | openIf f | setFreq f => simp [refusedOperands, Instr.wellFormed, Instr.freqGiven, Instr.bufferFits, Instr.usesHz, Instr.usesBuf]
  | close f | genStop f => simp [refusedOperands, Instr.wellFormed, Instr.freqGiven, Instr.bufferFits, Instr.usesHz, Instr.usesBuf]
  | write f | read f | writeRaw f =>
    have h1 := buf.isLt
    have h2 : f.count = 0 ↔ f.count.toNat = 0 := by rw [← BitVec.toNat_inj]; rfl
    simp only [refusedOperands, Instr.wellFormed, Instr.freqGiven, Instr.bufferFits, Instr.usesHz, Instr.usesBuf,
      Bool.false_and, Bool.true_and, Bool.not_false, Bool.not_eq_true', decide_eq_false_iff_not, ite_eq_right_iff,
      reduceCtorEq, imp_false, ne_eq, h2]
    simp only [Instr.count, Instr.fields]
    omega

end Sys2Proof
end

