-- ==== Sys2Proof/Laws/Memory.lean ====
section
/-! SUPPORT. The laws of host memory: a read after a write, and that a write keeps the canonical form (20_memory.md R53). -/

namespace Sys2Proof.Machine

/-- A write leaves every other address alone. -/
theorem memGet_memSet_ne (m : Memory) {a b : Nat} (v : Byte) (h : b ≠ a) : memGet (memSet m a v) b = memGet m b := by
  induction m with
  | nil => unfold memSet; split_ifs <;> simp [memGet, h.symm]
  | cons c t ih =>
    obtain ⟨x, w⟩ := c
    unfold memSet
    split_ifs with h1 h2 h2 h3
    · rfl
    · simp [memGet, h.symm]
    · subst h2; simp [memGet, h.symm]
    · subst h2; simp [memGet, h.symm]
    · simp only [memGet, ih]

/-- A list whose addresses all lie above an address reads 0 there. -/
theorem memGet_below {lo a : Nat} {m : Memory} (hm : memAbove lo m = true) (h : a < lo) : memGet m a = 0 := by
  induction m generalizing lo with
  | nil => rfl
  | cons c t ih =>
    obtain ⟨x, w⟩ := c
    simp only [memAbove, Bool.and_eq_true, decide_eq_true_eq] at hm
    have hx : x ≠ a := by omega
    simp only [memGet, hx, if_false]
    exact ih hm.2.2 (by omega)

/-- A read after a write to the same address gives the value written. -/
theorem memGet_memSet_same {lo : Nat} {m : Memory} (hm : memAbove lo m = true) (a : Nat) (v : Byte) :
    memGet (memSet m a v) a = v := by
  induction m generalizing lo with
  | nil => unfold memSet; split_ifs with hv <;> simp [memGet, hv]
  | cons c t ih =>
    obtain ⟨x, w⟩ := c
    simp only [memAbove, Bool.and_eq_true, decide_eq_true_eq] at hm
    unfold memSet
    split_ifs with h1 h2 h2 h3
    · subst h2
      have hx : x ≠ a := by omega
      simp only [memGet, hx, if_false]
      exact memGet_below hm.2.2 (by omega)
    · simp [memGet]
    · rw [h3]; exact memGet_below hm.2.2 (by omega)
    · simp [memGet]
    · have hx : x ≠ a := fun e => h2 e.symm
      simp only [memGet, hx, if_false]
      exact ih hm.2.2

/-- A bound on a list's addresses may be lowered. -/
theorem memAbove_mono {lo lo' : Nat} {m : Memory} (hm : memAbove lo m = true) (h : lo' ≤ lo) : memAbove lo' m = true := by
  cases m with
  | nil => rfl
  | cons c t =>
    obtain ⟨x, w⟩ := c
    simp only [memAbove, Bool.and_eq_true, decide_eq_true_eq] at hm ⊢
    exact ⟨by omega, hm.2⟩

/-- A write at or above the bound keeps the list strictly rising, with no listed byte 0. -/
theorem memAbove_memSet {lo a : Nat} {m : Memory} (hm : memAbove lo m = true) (h : lo ≤ a) (v : Byte) :
    memAbove lo (memSet m a v) = true := by
  induction m generalizing lo with
  | nil =>
    unfold memSet
    split_ifs with hv
    · rfl
    · simpa only [memAbove, Bool.and_eq_true, decide_eq_true_eq, and_true] using ⟨h, hv⟩
  | cons c t ih =>
    obtain ⟨x, w⟩ := c
    have hm' := hm
    simp only [memAbove, Bool.and_eq_true, decide_eq_true_eq] at hm
    unfold memSet
    split_ifs with h1 h2 h2 h3
    · exact hm'
    · simp only [memAbove, Bool.and_eq_true, decide_eq_true_eq]
      exact ⟨h, h2, by omega, hm.2⟩
    · exact memAbove_mono hm.2.2 (by omega)
    · simp only [memAbove, Bool.and_eq_true, decide_eq_true_eq]
      exact ⟨h, h3, by rw [h2]; exact hm.2.2⟩
    · simp only [memAbove, Bool.and_eq_true, decide_eq_true_eq]
      exact ⟨hm.1, hm.2.1, ih hm.2.2 (by omega)⟩

/-- The addresses a write lists are the old ones and its own. -/
theorem mem_memSet {m : Memory} {a : Nat} {v : Byte} {c : Host.Cell} (h : c ∈ memSet m a v) : c ∈ m ∨ c.1 = a := by
  induction m with
  | nil => unfold memSet at h; split_ifs at h <;> simp at h; simp [h]
  | cons d t ih =>
    obtain ⟨x, w⟩ := d
    unfold memSet at h
    split_ifs at h with h1 h2 h2 h3 <;> simp only [List.mem_cons] at h ⊢
    · exact .inl h
    · rcases h with h | h
      · exact .inr (by rw [h])
      · exact .inl h
    · exact .inl (.inr h)
    · rcases h with h | h
      · exact .inr (by rw [h])
      · exact .inl (.inr h)
    · rcases h with h | h
      · exact .inl (.inl h)
      · exact (ih h).imp_left .inr

/-- Every write of a 32-bit address keeps the canonical form. -/
theorem Memory.wf_memSet {m : Memory} (hm : Memory.wf m = true) (a : Word) (v : Byte) :
    Memory.wf (memSet m a.toNat v) = true := by
  simp only [Memory.wf, Bool.and_eq_true, List.all_eq_true, decide_eq_true_eq] at hm ⊢
  refine ⟨memAbove_memSet hm.1 (Nat.zero_le _) v, fun c hc => ?_⟩
  rcases mem_memSet hc with h | h
  · exact hm.2 c h
  · rw [h]; exact a.isLt

/-- In a memory in canonical form a read after a write to the same address gives the value written. -/
theorem Memory.get_set_same {m : Memory} (hm : Memory.wf m = true) (a : Nat) (v : Byte) : memGet (memSet m a v) a = v := by
  simp only [Memory.wf, Bool.and_eq_true] at hm
  exact memGet_memSet_same hm.1 a v

/-- Reset memory is in canonical form. -/
theorem Memory.wf_reset : Memory.wf State.reset.mem = true := rfl

end Sys2Proof.Machine
end

