-- ==== Sys2Proof/Laws/State.lean ====
section
/-! SUPPORT. One lemma per field per update of the state, each true by unfolding: no later proof unfolds a record update. -/

namespace Sys2Proof.Machine

/-! ### `emit` -/

section

variable (e : Event) (s : State)

@[simp] theorem emit_hz : (emit e s).hz = s.hz := rfl
@[simp] theorem emit_buf : (emit e s).buf = s.buf := rfl
@[simp] theorem emit_result : (emit e s).result = s.result := rfl
@[simp] theorem emit_phase : (emit e s).phase = s.phase := rfl
@[simp] theorem emit_cur : (emit e s).cur = s.cur := rfl
@[simp] theorem emit_upc : (emit e s).upc = s.upc := rfl
@[simp] theorem emit_rem : (emit e s).rem = s.rem := rfl
@[simp] theorem emit_idx : (emit e s).idx = s.idx := rfl
@[simp] theorem emit_pcnt : (emit e s).pcnt = s.pcnt := rfl
@[simp] theorem emit_dat : (emit e s).dat = s.dat := rfl
@[simp] theorem emit_cfg : (emit e s).cfg = s.cfg := rfl
@[simp] theorem emit_hist : (emit e s).hist = s.hist ++ [⟨s.cur.cmd.ifid, e⟩] := rfl
@[simp] theorem emit_mem : (emit e s).mem = s.mem := rfl
@[simp] theorem emit_platform : (emit e s).platform = s.platform := rfl
@[simp] theorem emit_bits : (emit e s).bits = s.bits := rfl
@[simp] theorem emit_bytes : (emit e s).bytes = s.bytes := rfl
@[simp] theorem emit_seed : (emit e s).seed = s.seed := rfl
@[simp] theorem emit_host : (emit e s).host = s.host := rfl
@[simp] theorem emit_hostVal : (emit e s).hostVal = s.hostVal := rfl

end

/-! ### `sampled` -/

section

variable (c : Cond) (s : State)

@[simp] theorem sampled_hz : (sampled c s).hz = s.hz := rfl
@[simp] theorem sampled_buf : (sampled c s).buf = s.buf := rfl
@[simp] theorem sampled_result : (sampled c s).result = s.result := rfl
@[simp] theorem sampled_phase : (sampled c s).phase = s.phase := rfl
@[simp] theorem sampled_cur : (sampled c s).cur = s.cur := rfl
@[simp] theorem sampled_upc : (sampled c s).upc = s.upc := rfl
@[simp] theorem sampled_rem : (sampled c s).rem = s.rem := rfl
@[simp] theorem sampled_idx : (sampled c s).idx = s.idx := rfl
@[simp] theorem sampled_pcnt : (sampled c s).pcnt = s.pcnt := rfl
@[simp] theorem sampled_dat : (sampled c s).dat = s.dat := rfl
@[simp] theorem sampled_cfg : (sampled c s).cfg = s.cfg := rfl
@[simp] theorem sampled_hist : (sampled c s).hist = s.hist ++ [⟨s.cur.cmd.ifid, .sample c (answer c s)⟩] := rfl
@[simp] theorem sampled_mem : (sampled c s).mem = s.mem := rfl
@[simp] theorem sampled_platform : (sampled c s).platform = s.platform := rfl
@[simp] theorem sampled_bits : (sampled c s).bits = s.bits.tail := rfl
@[simp] theorem sampled_bytes : (sampled c s).bytes = s.bytes := rfl
@[simp] theorem sampled_seed : (sampled c s).seed = s.seed := rfl
@[simp] theorem sampled_host : (sampled c s).host = s.host := rfl
@[simp] theorem sampled_hostVal : (sampled c s).hostVal = s.hostVal := rfl

end

/-! ### `initTransfer` -/

section

variable (s : State)

@[simp] theorem initTransfer_hz : (initTransfer s).hz = s.hz := rfl
@[simp] theorem initTransfer_buf : (initTransfer s).buf = s.buf := rfl
@[simp] theorem initTransfer_result : (initTransfer s).result = s.result := rfl
@[simp] theorem initTransfer_phase : (initTransfer s).phase = s.phase := rfl
@[simp] theorem initTransfer_cur : (initTransfer s).cur = s.cur := rfl
@[simp] theorem initTransfer_upc : (initTransfer s).upc = s.upc := rfl
@[simp] theorem initTransfer_rem : (initTransfer s).rem = s.cur.cmd.count := rfl
@[simp] theorem initTransfer_idx : (initTransfer s).idx = 0 := rfl
@[simp] theorem initTransfer_pcnt : (initTransfer s).pcnt = s.pcnt := rfl
@[simp] theorem initTransfer_dat : (initTransfer s).dat = s.dat := rfl
@[simp] theorem initTransfer_cfg : (initTransfer s).cfg = s.cfg := rfl
@[simp] theorem initTransfer_hist : (initTransfer s).hist = s.hist := rfl
@[simp] theorem initTransfer_mem : (initTransfer s).mem = s.mem := rfl
@[simp] theorem initTransfer_platform : (initTransfer s).platform = s.platform := rfl
@[simp] theorem initTransfer_bits : (initTransfer s).bits = s.bits := rfl
@[simp] theorem initTransfer_bytes : (initTransfer s).bytes = s.bytes := rfl
@[simp] theorem initTransfer_seed : (initTransfer s).seed = s.seed := rfl
@[simp] theorem initTransfer_host : (initTransfer s).host = s.host := rfl
@[simp] theorem initTransfer_hostVal : (initTransfer s).hostVal = s.hostVal := rfl

end

/-! ### `advance` -/

section

variable (s : State)

@[simp] theorem advance_hz : (advance s).hz = s.hz := rfl
@[simp] theorem advance_buf : (advance s).buf = s.buf := rfl
@[simp] theorem advance_result : (advance s).result = s.result := rfl
@[simp] theorem advance_phase : (advance s).phase = s.phase := rfl
@[simp] theorem advance_cur : (advance s).cur = s.cur := rfl
@[simp] theorem advance_upc : (advance s).upc = s.upc := rfl
@[simp] theorem advance_rem : (advance s).rem = s.rem - 1 := rfl
@[simp] theorem advance_idx : (advance s).idx = s.idx + 1 := rfl
@[simp] theorem advance_pcnt : (advance s).pcnt = s.pcnt := rfl
@[simp] theorem advance_dat : (advance s).dat = s.dat := rfl
@[simp] theorem advance_cfg : (advance s).cfg = s.cfg := rfl
@[simp] theorem advance_hist : (advance s).hist = s.hist := rfl
@[simp] theorem advance_mem : (advance s).mem = s.mem := rfl
@[simp] theorem advance_platform : (advance s).platform = s.platform := rfl
@[simp] theorem advance_bits : (advance s).bits = s.bits := rfl
@[simp] theorem advance_bytes : (advance s).bytes = s.bytes := rfl
@[simp] theorem advance_seed : (advance s).seed = s.seed := rfl
@[simp] theorem advance_host : (advance s).host = s.host := rfl
@[simp] theorem advance_hostVal : (advance s).hostVal = s.hostVal := rfl

end

/-! ### `finished` -/

section

variable (r : Result) (s : State)

@[simp] theorem finished_hz : (finished r s).hz = s.hz := rfl
@[simp] theorem finished_buf : (finished r s).buf = s.buf := rfl
@[simp] theorem finished_result : (finished r s).result = encResult r := rfl
@[simp] theorem finished_phase : (finished r s).phase = .idle := rfl
@[simp] theorem finished_cur : (finished r s).cur = s.cur := rfl
@[simp] theorem finished_upc : (finished r s).upc = s.upc := rfl
@[simp] theorem finished_rem : (finished r s).rem = s.rem := rfl
@[simp] theorem finished_idx : (finished r s).idx = s.idx := rfl
@[simp] theorem finished_pcnt : (finished r s).pcnt = s.pcnt := rfl
@[simp] theorem finished_dat : (finished r s).dat = s.dat := rfl
@[simp] theorem finished_cfg : (finished r s).cfg = s.cfg := rfl
@[simp] theorem finished_hist : (finished r s).hist = s.hist ++ [⟨s.cur.cmd.ifid, .done r⟩] := rfl
@[simp] theorem finished_mem : (finished r s).mem = s.mem := rfl
@[simp] theorem finished_platform : (finished r s).platform = s.platform := rfl
@[simp] theorem finished_bits : (finished r s).bits = s.bits := rfl
@[simp] theorem finished_bytes : (finished r s).bytes = s.bytes := rfl
@[simp] theorem finished_seed : (finished r s).seed = s.seed := rfl
@[simp] theorem finished_host : (finished r s).host = s.host := rfl
@[simp] theorem finished_hostVal : (finished r s).hostVal = s.hostVal := rfl

end

/-! ### `accepted` -/

section

variable (i : Instr) (s : State)

@[simp] theorem accepted_hz : (accepted i s).hz = s.hz := rfl
@[simp] theorem accepted_buf : (accepted i s).buf = s.buf := rfl
@[simp] theorem accepted_result : (accepted i s).result = s.result := rfl
@[simp] theorem accepted_phase : (accepted i s).phase = .run := rfl
@[simp] theorem accepted_cur : (accepted i s).cur = ⟨i, s.hz, s.buf⟩ := rfl
@[simp] theorem accepted_upc : (accepted i s).upc = .entry := rfl
@[simp] theorem accepted_rem : (accepted i s).rem = s.rem := rfl
@[simp] theorem accepted_idx : (accepted i s).idx = s.idx := rfl
@[simp] theorem accepted_pcnt : (accepted i s).pcnt = s.pcnt := rfl
@[simp] theorem accepted_dat : (accepted i s).dat = s.dat := rfl
@[simp] theorem accepted_cfg : (accepted i s).cfg = s.cfg := rfl
@[simp] theorem accepted_hist : (accepted i s).hist = s.hist ++ [⟨i.ifid, .accept (encode i)⟩] := rfl
@[simp] theorem accepted_mem : (accepted i s).mem = s.mem := rfl
@[simp] theorem accepted_platform : (accepted i s).platform = s.platform := rfl
@[simp] theorem accepted_bits : (accepted i s).bits = s.bits := rfl
@[simp] theorem accepted_bytes : (accepted i s).bytes = s.bytes := rfl
@[simp] theorem accepted_seed : (accepted i s).seed = s.seed := rfl
@[simp] theorem accepted_host : (accepted i s).host = s.host := rfl
@[simp] theorem accepted_hostVal : (accepted i s).hostVal = s.hostVal := rfl

end

/-! ### `engineReset` -/

section

variable (s : State)

@[simp] theorem engineReset_hz : (engineReset s).hz = 0 := rfl
@[simp] theorem engineReset_buf : (engineReset s).buf = 0 := rfl
@[simp] theorem engineReset_result : (engineReset s).result = 0 := rfl
@[simp] theorem engineReset_phase : (engineReset s).phase = .idle := rfl
@[simp] theorem engineReset_cur : (engineReset s).cur = State.reset.cur := rfl
@[simp] theorem engineReset_upc : (engineReset s).upc = .entry := rfl
@[simp] theorem engineReset_rem : (engineReset s).rem = 0 := rfl
@[simp] theorem engineReset_idx : (engineReset s).idx = 0 := rfl
@[simp] theorem engineReset_pcnt : (engineReset s).pcnt = 0 := rfl
@[simp] theorem engineReset_dat : (engineReset s).dat = 0 := rfl
@[simp] theorem engineReset_cfg : (engineReset s).cfg = Vector.replicate 16 none := rfl
@[simp] theorem engineReset_hist : (engineReset s).hist = [] := rfl
@[simp] theorem engineReset_mem : (engineReset s).mem = s.mem := rfl
@[simp] theorem engineReset_platform : (engineReset s).platform = s.platform := rfl
@[simp] theorem engineReset_bits : (engineReset s).bits = s.bits := rfl
@[simp] theorem engineReset_bytes : (engineReset s).bytes = s.bytes := rfl
@[simp] theorem engineReset_seed : (engineReset s).seed = s.seed := rfl
@[simp] theorem engineReset_host : (engineReset s).host = s.host := rfl
@[simp] theorem engineReset_hostVal : (engineReset s).hostVal = s.hostVal := rfl

end

end Sys2Proof.Machine
end

