-- ==== Sys2Proof/Laws/Ops.lean ====
section
/-! SUPPORT. Everything one action of a command can do, said once (`Moves`), and that each shared operation does no more. -/

namespace Sys2Proof.Machine

/-- One action of the running command: it appends the event `e`, and every field but the sequencer's `upc`, `rem`, `idx`,
`pcnt` and `dat` is as before, except what `e` itself says it writes. -/
structure Moves (s t : State) (e : Event) : Prop where
  hist     : t.hist = s.hist ++ [⟨s.cur.cmd.ifid, e⟩]
  cur      : t.cur = s.cur
  hz       : t.hz = s.hz
  buf      : t.buf = s.buf
  platform : t.platform = s.platform
  host     : t.host = s.host
  hostVal  : t.hostVal = s.hostVal
  seed     : t.seed = s.seed
  bits     : t.bits = s.bits ∨ (∃ c, e = .sample c (answer c s)) ∧ t.bits = s.bits.tail
  bytes    : t.bytes = s.bytes ∨ e = .drRead (answerByte s) ∧ t.bytes = s.bytes.tail
  cfg      : t.cfg = s.cfg ∧ (∀ hz, e ≠ .timing hz) ∨
    e = .timing s.cur.hz ∧ t.cfg = s.cfg.setIfInBounds s.cur.cmd.ifid.toNat (some s.cur.hz)
  mem      : t.mem = s.mem ∧ (∀ a v, e ≠ .memWrite a v) ∨ ∃ a v, e = .memWrite a v ∧ t.mem = memSet s.mem a.toNat v
  done     : t.phase = s.phase ∧ t.result = s.result ∧ (∀ r, e ≠ .done r) ∨
    ∃ r, e = .done r ∧ t.phase = .idle ∧ t.result = encResult r

/-- The outcome is a stop, or a next state one action away from `s`. -/
def Acts (s : State) (o : Step) : Prop := ∀ t, o = .next t → ∃ e, Moves s t e

/-- The states differ at most in the sequencer's `upc`, `rem`, `idx`, `pcnt` and `dat`. -/
def SeqOnly (s t : State) : Prop :=
  t = { s with upc := t.upc, rem := t.rem, idx := t.idx, pcnt := t.pcnt, dat := t.dat }

/-- Work in the sequencer's own registers before an action belongs to the action (10_state.md R26). -/
theorem Acts.of_seqOnly {s s' : State} {o : Step} (hs : SeqOnly s s') (h : Acts s' o) : Acts s o := by
  intro t ht
  obtain ⟨e, m⟩ := h t ht
  rw [hs] at m
  exact ⟨e, { m with }⟩

theorem acts_fault (s : State) (r : Fault) : Acts s (.fault r) := fun _ h => nomatch h

theorem acts_ite {s : State} {c : Prop} [Decidable c] {a b : Step} (ha : Acts s a) (hb : Acts s b) :
    Acts s (if c then a else b) := by
  split
  · exact ha
  · exact hb

theorem seqOnly_initTransfer (s : State) : SeqOnly s (initTransfer s) := rfl

theorem seqOnly_advance (s : State) : SeqOnly s (advance s) := rfl

theorem seqOnly_pcnt (s : State) : SeqOnly s { s with pcnt := 0 } := rfl

/-- A primitive's event says it writes no configuration, no memory and no result. -/
def plainEvent : Event → Bool
  | .timing _ | .memWrite _ _ | .done _ => false
  | _ => true

theorem act_acts (e : Event) (nxt : Upc) (s : State) (he : plainEvent e = true) : Acts s (act e nxt s) := by
  rintro t ⟨⟩
  refine ⟨e, ⟨rfl, rfl, rfl, rfl, rfl, rfl, rfl, rfl, .inl rfl, .inl rfl, .inl ⟨rfl, ?_⟩, .inl ⟨rfl, ?_⟩,
    .inl ⟨rfl, rfl, ?_⟩⟩⟩ <;> intros <;> rintro rfl <;> exact Bool.noConfusion he

theorem sample_acts (c : Cond) (yes no : Upc) (s : State) : Acts s (sample c yes no s) := by
  rintro t ⟨⟩
  exact ⟨.sample c (answer c s), ⟨rfl, rfl, rfl, rfl, rfl, rfl, rfl, rfl, .inr ⟨⟨c, rfl⟩, rfl⟩, .inl rfl,
    .inl ⟨rfl, nofun⟩, .inl ⟨rfl, nofun⟩, .inl ⟨rfl, rfl, nofun⟩⟩⟩

theorem poll_acts (c : Cond) (loop ok : Upc) (fail : State → Step) (s : State) (hf : Acts s (fail s)) :
    Acts s (poll c loop ok fail s) := by
  unfold poll
  split
  · rintro t ⟨⟩
    exact ⟨.sample c (answer c s), ⟨rfl, rfl, rfl, rfl, rfl, rfl, rfl, rfl, .inr ⟨⟨c, rfl⟩, rfl⟩, .inl rfl,
      .inl ⟨rfl, nofun⟩, .inl ⟨rfl, nofun⟩, .inl ⟨rfl, rfl, nofun⟩⟩⟩
  · exact hf

theorem startPoll_acts (c : Cond) (loop ok : Upc) (fail : State → Step) (s : State) (hf : ∀ s, Acts s (fail s)) :
    Acts s (startPoll c loop ok fail s) :=
  .of_seqOnly (seqOnly_pcnt s) (poll_acts c loop ok fail _ (hf _))

theorem sendAddress_acts (dir : Bool) (nxt : Upc) (s : State) : Acts s (sendAddress dir nxt s) := act_acts _ _ _ rfl

theorem sendByte_acts (nxt : Upc) (s : State) : Acts s (sendByte nxt s) := act_acts _ _ _ rfl

theorem loadByte_acts (k : Count) (nxt : Upc) (s : State) : Acts s (loadByte k nxt s) := by
  unfold loadByte
  dsimp only
  split
  · rintro t ⟨⟩
    exact ⟨.memRead _ _, ⟨rfl, rfl, rfl, rfl, rfl, rfl, rfl, rfl, .inl rfl, .inl rfl, .inl ⟨rfl, nofun⟩,
      .inl ⟨rfl, nofun⟩, .inl ⟨rfl, rfl, nofun⟩⟩⟩
  · exact acts_fault _ _

theorem receiveByte_acts (nxt : Upc) (s : State) : Acts s (receiveByte nxt s) := by
  rintro t ⟨⟩
  exact ⟨.drRead (answerByte s), ⟨rfl, rfl, rfl, rfl, rfl, rfl, rfl, rfl, .inl rfl, .inr ⟨rfl, rfl⟩,
    .inl ⟨rfl, nofun⟩, .inl ⟨rfl, nofun⟩, .inl ⟨rfl, rfl, nofun⟩⟩⟩

theorem storeByte_acts (k : Count) (nxt : Upc) (s : State) : Acts s (storeByte k nxt s) := by
  unfold storeByte
  dsimp only
  split
  · rintro t ⟨⟩
    exact ⟨.memWrite _ _, ⟨rfl, rfl, rfl, rfl, rfl, rfl, rfl, rfl, .inl rfl, .inl rfl, .inl ⟨rfl, nofun⟩,
      .inr ⟨_, _, rfl, rfl⟩, .inl ⟨rfl, rfl, nofun⟩⟩⟩
  · exact acts_fault _ _

theorem programTiming_acts (nxt : Upc) (s : State) : Acts s (programTiming nxt s) := by
  rintro t ⟨⟩
  exact ⟨.timing s.cur.hz, ⟨rfl, rfl, rfl, rfl, rfl, rfl, rfl, rfl, .inl rfl, .inl rfl, .inr ⟨rfl, rfl⟩,
    .inl ⟨rfl, nofun⟩, .inl ⟨rfl, rfl, nofun⟩⟩⟩

theorem finish_acts (r : Result) (s : State) : Acts s (finish r s) := by
  rintro t ⟨⟩
  exact ⟨.done r, ⟨rfl, rfl, rfl, rfl, rfl, rfl, rfl, rfl, .inl rfl, .inl rfl, .inl ⟨rfl, nofun⟩, .inl ⟨rfl, nofun⟩,
    .inr ⟨r, rfl, rfl, rfl⟩⟩⟩

theorem raise_acts (e : Err) (s : State) : Acts s (raise e s) := finish_acts _ _

theorem checkIfid_acts (k : State → Step) (s : State) (hk : Acts s (k s)) : Acts s (checkIfid k s) :=
  acts_ite (raise_acts _ _) hk

/-- A sampled script answers with its head, and the answer is used up. -/
@[simp] theorem answer_cons (c : Cond) (s : State) (v : Bool) (t : List Bool) (h : s.bits = v :: t) : answer c s = v := by
  simp [answer, h]

/-- A byte script answers with its head. -/
theorem answerByte_cons (s : State) (b : Byte) (t : List Byte) (h : s.bytes = b :: t) : answerByte s = b := by
  simp [answerByte, h]

/-- Acceptance answers a next state exactly for operands that have a meaning (30_encoding.md R76). -/
theorem accept_eq_next {i : Instr} {s t : State} :
    accept i s = .next t ↔ refusedOperands i s.hz s.buf = none ∧ t = accepted i s := by
  unfold accept
  split <;> rename_i h <;> simp [h, eq_comm]

/-- Acceptance never faults. -/
theorem accept_ne_fault (i : Instr) (s : State) (r : Fault) : accept i s ≠ .fault r := by
  unfold accept
  split <;> nofun

end Sys2Proof.Machine
end

