-- ==== Sys2Proof/Laws/Exec.lean ====
section
/-! SUPPORT. `exec` at once for all commands: acceptance in IDLE, the micro-program in RUN, and one action a step. -/

namespace Sys2Proof.Machine

/-- The micro-program of a command. -/
def micro : Instr → State → Step
  | .openIf _   => openStep
  | .close _    => closeStep
  | .setFreq _  => setFreqStep
  | .write _    => writeStep
  | .read _     => readStep
  | .writeRaw _ => writeRawStep
  | .genStop _  => genStopStep

/-- Every meaning is one line over the same operation. -/
theorem exec_eq_command (i : Instr) (s : State) : exec i s = command i (micro i) s := by cases i <;> rfl

theorem exec_idle {s : State} (i : Instr) (h : s.phase = .idle) : exec i s = accept i s := by
  rw [exec_eq_command, command, h]

theorem exec_run {i : Instr} {s : State} (h : s.phase = .run) (hi : s.cur.cmd = i) : exec i s = micro i s := by
  rw [exec_eq_command, command, h]
  simp only [hi, if_true]

theorem exec_other {i : Instr} {s : State} (h : s.phase = .run) (hi : s.cur.cmd ≠ i) :
    exec i s = .fault .cmdWhileBusy := by
  rw [exec_eq_command, command, h]
  simp only [hi, if_false]

theorem freqCheck_acts (s : State) : Acts s (freqCheck s) :=
  acts_ite (raise_acts _ _) (startPoll_acts _ _ _ _ _ (raise_acts _))

theorem setFreqBody_acts (s : State) : Acts s (setFreqBody s) := by
  unfold setFreqBody
  split
  · exact freqCheck_acts s
  · exact poll_acts _ _ _ _ _ (raise_acts _ _)
  · exact programTiming_acts _ _
  · exact finish_acts _ _
  · exact acts_fault _ _

theorem stopWait_acts (s : State) : Acts s (stopWait s) := startPoll_acts _ _ _ _ _ (raise_acts _)

theorem stopPhase_acts (n : Count) (s : State) : Acts s (stopPhase n s) := by
  unfold stopPhase
  split
  · exact stopWait_acts s
  · exact poll_acts _ _ _ _ _ (raise_acts _ _)
  · exact finish_acts _ _
  · exact acts_fault _ _

theorem addressPhase_acts (dir : Bool) (done : Upc) (s : State) : Acts s (addressPhase dir done s) := by
  unfold addressPhase
  split
  · exact act_acts _ _ _ rfl
  · exact act_acts _ _ _ rfl
  · exact startPoll_acts _ _ _ _ _ (raise_acts _)
  · exact poll_acts _ _ _ _ _ (raise_acts _ _)
  · exact sendAddress_acts _ _ _
  · exact startPoll_acts _ _ _ _ _ (sample_acts _ _ _)
  · exact poll_acts _ _ _ _ _ (sample_acts _ _ _ _)
  · exact raise_acts _ _
  · exact raise_acts _ _
  · exact acts_fault _ _

theorem txeFinal_acts (s : State) : Acts s (txeFinal s) := startPoll_acts _ _ _ _ _ (raise_acts _)

theorem outTop_acts (s : State) : Acts s (outTop s) :=
  acts_ite (txeFinal_acts s) (startPoll_acts _ _ _ _ _ (raise_acts _))

theorem dataOut_acts (s : State) : Acts s (dataOut s) := by
  unfold dataOut
  split
  · exact .of_seqOnly (seqOnly_initTransfer s) (outTop_acts _)
  · exact poll_acts _ _ _ _ _ (raise_acts _ _)
  · exact loadByte_acts _ _ _
  · exact sendByte_acts _ _
  · exact .of_seqOnly (seqOnly_advance s) (acts_ite (txeFinal_acts _) (sample_acts _ _ _ _))
  · exact outTop_acts s
  · exact loadByte_acts _ _ _
  · exact sendByte_acts _ _
  · exact .of_seqOnly (seqOnly_advance s) (outTop_acts _)
  · exact poll_acts _ _ _ _ _ (raise_acts _ _)
  · exact sample_acts _ _ _ _
  · exact raise_acts _ _
  · exact acts_ite (act_acts _ _ _ rfl) (finish_acts _ _)
  · exact stopPhase_acts _ _

theorem readSelect_acts (s : State) : Acts s (readSelect s) :=
  acts_ite (act_acts _ _ _ rfl) (acts_ite (act_acts _ _ _ rfl) (act_acts _ _ _ rfl))

theorem read1_acts (s : State) : Acts s (read1 s) := by
  unfold read1
  split
  · exact acts_ite (act_acts _ _ _ rfl) (act_acts _ _ _ rfl)
  · exact act_acts _ _ _ rfl
  · exact act_acts _ _ _ rfl
  · exact startPoll_acts _ _ _ _ _ (raise_acts _)
  · exact poll_acts _ _ _ _ _ (raise_acts _ _)
  · exact receiveByte_acts _ _
  · exact storeByte_acts _ _ _
  · exact acts_fault _ _

theorem read2_acts (s : State) : Acts s (read2 s) := by
  unfold read2
  split
  · exact act_acts _ _ _ rfl
  · exact act_acts _ _ _ rfl
  · exact act_acts _ _ _ rfl
  · exact startPoll_acts _ _ _ _ _ (raise_acts _)
  · exact poll_acts _ _ _ _ _ (raise_acts _ _)
  · exact acts_ite (act_acts _ _ _ rfl) (receiveByte_acts _ _)
  · exact receiveByte_acts _ _
  · exact storeByte_acts _ _ _
  · exact receiveByte_acts _ _
  · exact storeByte_acts _ _ _
  · exact acts_fault _ _

theorem readTop_acts (s : State) : Acts s (readTop s) :=
  acts_ite (startPoll_acts _ _ _ _ _ (raise_acts _)) (startPoll_acts _ _ _ _ _ (raise_acts _))

theorem readN_acts (s : State) : Acts s (readN s) := by
  unfold readN
  split
  · exact act_acts _ _ _ rfl
  · exact .of_seqOnly (seqOnly_initTransfer s) (readTop_acts _)
  · exact poll_acts _ _ _ _ _ (raise_acts _ _)
  · exact receiveByte_acts _ _
  · exact storeByte_acts _ _ _
  · exact .of_seqOnly (seqOnly_advance s) (readTop_acts _)
  · exact poll_acts _ _ _ _ _ (raise_acts _ _)
  · exact act_acts _ _ _ rfl
  · exact acts_ite (act_acts _ _ _ rfl) (receiveByte_acts _ _)
  · exact receiveByte_acts _ _
  · exact storeByte_acts _ _ _
  · exact .of_seqOnly (seqOnly_advance s) (startPoll_acts _ _ _ _ _ (raise_acts _))
  · exact poll_acts _ _ _ _ _ (raise_acts _ _)
  · exact acts_ite (act_acts _ _ _ rfl) (receiveByte_acts _ _)
  · exact receiveByte_acts _ _
  · exact storeByte_acts _ _ _
  · exact .of_seqOnly (seqOnly_advance s) (receiveByte_acts _ _)
  · exact storeByte_acts _ _ _
  · exact acts_fault _ _

theorem openStep_acts (s : State) : Acts s (openStep s) := by
  unfold openStep
  split
  · exact checkIfid_acts _ _ (act_acts _ _ _ rfl)
  · exact act_acts _ _ _ rfl
  · exact act_acts _ _ _ rfl
  · exact setFreqBody_acts s

theorem setFreqStep_acts (s : State) : Acts s (setFreqStep s) := by
  unfold setFreqStep
  split
  · exact checkIfid_acts _ _ (freqCheck_acts s)
  · exact acts_fault _ _
  · exact setFreqBody_acts s

theorem closeStep_acts (s : State) : Acts s (closeStep s) := by
  unfold closeStep
  split
  · exact checkIfid_acts _ _ (startPoll_acts _ _ _ _ _ fun s => act_acts _ _ s rfl)
  · exact poll_acts _ _ _ _ _ (act_acts _ _ _ rfl)
  · exact act_acts _ _ _ rfl
  · exact raise_acts _ _
  · exact finish_acts _ _
  · exact acts_fault _ _

theorem writeStep_acts (s : State) : Acts s (writeStep s) := by
  unfold writeStep
  split
  case h_1 => exact checkIfid_acts _ _ (act_acts _ _ _ rfl)
  case h_2 => exact act_acts _ _ _ rfl
  case h_3 => exact act_acts _ _ _ rfl
  all_goals first | exact addressPhase_acts _ _ _ | exact dataOut_acts s

theorem writeRawStep_acts (s : State) : Acts s (writeRawStep s) := by
  unfold writeRawStep
  split
  · exact checkIfid_acts _ _ (.of_seqOnly (seqOnly_initTransfer s) (outTop_acts _))
  · exact acts_fault _ _
  · exact dataOut_acts s

theorem genStopStep_acts (s : State) : Acts s (genStopStep s) := by
  unfold genStopStep
  split
  · exact checkIfid_acts _ _ (act_acts _ _ _ rfl)
  · exact stopPhase_acts _ _

theorem readStep_acts (s : State) : Acts s (readStep s) := by
  unfold readStep
  split
  case h_1 => exact checkIfid_acts _ _ (acts_ite (raise_acts _ _) (act_acts _ _ _ rfl))
  case h_2 => exact act_acts _ _ _ rfl
  all_goals first
    | exact addressPhase_acts _ _ _
    | exact readSelect_acts s
    | exact read1_acts s
    | exact read2_acts s
    | exact readN_acts s
    | exact acts_ite (stopWait_acts s) (finish_acts _ _)
    | exact stopPhase_acts _ _
    | exact acts_fault _ _

/-- Every micro-program performs one action a step (10_state.md R26). -/
theorem micro_acts (i : Instr) (s : State) : Acts s (micro i s) := by
  cases i
  · exact openStep_acts s
  · exact closeStep_acts s
  · exact setFreqStep_acts s
  · exact writeStep_acts s
  · exact readStep_acts s
  · exact writeRawStep_acts s
  · exact genStopStep_acts s

/-- Everything one step of a command can do: in IDLE it is accepted; in RUN the command is the running one and performs one
action. -/
theorem exec_cases {i : Instr} {s t : State} (h : exec i s = .next t) :
    (s.phase = .idle ∧ refusedOperands i s.hz s.buf = none ∧ t = accepted i s) ∨
    (s.phase = .run ∧ s.cur.cmd = i ∧ micro i s = .next t ∧ ∃ e, Moves s t e) := by
  cases hp : s.phase with
  | idle => exact .inl ⟨rfl, accept_eq_next.mp (exec_idle i hp ▸ h)⟩
  | run =>
    by_cases hi : s.cur.cmd = i
    · rw [exec_run hp hi] at h
      exact .inr ⟨rfl, hi, h, micro_acts i s t h⟩
    · rw [exec_other hp hi] at h
      exact nomatch h

/-- Everything one step of the machine can do: the engine waits, a command takes a step, or the host acts on its registers,
its memory, its own list, or resets the engine. -/
theorem step_cases {s t : State} (h : step s = .next t) : platformOk s.platform = true ∧
    ((∃ i s', exec i s' = .next t ∧ ∃ l, s' = { s with host := l }) ∨
     (∃ l v, t = { s with host := l, hostVal := v }) ∨
     (∃ l v, t = { s with host := l, hz := v }) ∨ (∃ l v, t = { s with host := l, buf := v }) ∨
     (∃ l a v, t = { s with host := l, mem := memSet s.mem (BitVec.toNat (w := 32) a) v }) ∨
     (∃ l, t = engineReset { s with host := l })) := by
  unfold step at h
  split at h
  case isFalse => exact nomatch h
  rename_i hp
  refine ⟨hp, ?_⟩
  have turn_cases : ∀ (s' : State), engineTurn s' = .next t → (∃ i, exec i s' = .next t) ∨ t = s' := by
    intro s' he
    unfold engineTurn at he
    split at he
    · exact .inr (by cases he; rfl)
    · exact .inl ⟨_, he⟩
  unfold turn at h
  split at h
  · rcases turn_cases s h with ⟨i, hi⟩ | rfl
    · exact .inl ⟨i, s, hi, s.host, rfl⟩
    · exact .inr (.inl ⟨t.host, t.hostVal, rfl⟩)
  · rename_i op rest _
    unfold hostAction at h
    split at h
    · split at h
      case isFalse => exact nomatch h
      unfold regWrite at h
      split_ifs at h
      · unfold cmdWrite at h
        split at h
        · exact nomatch h
        · split at h
          · exact .inl ⟨_, _, h, rest, rfl⟩
          · exact nomatch h
      · cases h; exact .inr (.inr (.inl ⟨rest, _, rfl⟩))
      · cases h; exact .inr (.inr (.inr (.inl ⟨rest, _, rfl⟩)))
      · cases h; exact .inr (.inl ⟨rest, s.hostVal, rfl⟩)
    · split at h
      case isFalse => exact nomatch h
      cases h; exact .inr (.inl ⟨rest, _, rfl⟩)
    · unfold hostStore at h
      split_ifs at h
      cases h; exact .inr (.inr (.inr (.inr (.inl ⟨rest, _, _, rfl⟩))))
    · unfold hostLoad at h
      split_ifs at h
      cases h; exact .inr (.inl ⟨rest, _, rfl⟩)
    · cases h; exact .inr (.inr (.inr (.inr (.inr ⟨rest, rfl⟩))))
    · rcases turn_cases _ h with ⟨i, hi⟩ | rfl
      · exact .inl ⟨i, _, hi, rest, rfl⟩
      · exact .inr (.inl ⟨rest, s.hostVal, rfl⟩)
    · split at h
      · rcases turn_cases _ h with ⟨i, hi⟩ | rfl
        · exact .inl ⟨i, _, hi, _, rfl⟩
        · exact .inr (.inl ⟨_, s.hostVal, rfl⟩)
      · cases h; exact .inr (.inl ⟨rest, _, rfl⟩)
    · cases h
      split
      · exact .inr (.inl ⟨_, s.hostVal, rfl⟩)
      · exact .inr (.inl ⟨rest, s.hostVal, rfl⟩)

end Sys2Proof.Machine
end

