-- ==== Sys2Proof/Laws/Host.lean ====
section
/-! SUPPORT. The host's accesses to the register block: the address of a register has its offset, and a step that takes
one is `regWrite` or loads `regRead` there. -/

namespace Sys2Proof.Machine

/-- The address of the register at an offset has that offset. -/
theorem regOffset_regAddr (p : Platform) {off : Nat} (h : off < 2 ^ 32) :
    regOffset p (regAddr p off) = off := by
  have e : regAddr p off - p.engineBase = BitVec.ofNat 32 off := by unfold regAddr; bv_omega
  rw [regOffset, e, BitVec.toNat_ofNat, Nat.mod_eq_of_lt h]

/-- A step that stores a register at its own address. -/
theorem step_regStore {s : State} {off : Nat} {v : Word} {rest : List HostOp} (hp : platformOk s.platform = true)
    (hh : s.host = .regStore (regAddr s.platform off) 4 v :: rest) (h : off < 2 ^ 32) (h4 : off % 4 = 0) :
    step s = regWrite off v { s with host := rest } := by
  simp [step, hp, turn, hh, hostAction, regAccessOk, regOffset_regAddr _ h, h4]

/-- A step that loads a register at its own address. -/
theorem step_regLoad {s : State} {off : Nat} {rest : List HostOp} (hp : platformOk s.platform = true)
    (hh : s.host = .regLoad (regAddr s.platform off) 4 :: rest) (h : off < 2 ^ 32) (h4 : off % 4 = 0) :
    step s = .next { s with host := rest, hostVal := regRead off { s with host := rest } } := by
  simp [step, hp, turn, hh, hostAction, regAccessOk, regOffset_regAddr _ h, h4]

end Sys2Proof.Machine
end

