-- ==== Sys2Proof/Laws/PerInstr.lean ====
section
/-! SUPPORT. The families of statements made per command. `TableRow`: a command's word matches its row of the opcode table
(30_encoding.md R83: mask 0x00000807, match = `OP`). -/

namespace Sys2Proof.Laws.TableRow

/-- The `match` value of a command's row in spec/opcode_table.json. -/
def matchValue : Instr → Word
  | .openIf _   => 0x00000001
  | .close _    => 0x00000002
  | .setFreq _  => 0x00000003
  | .write _    => 0x00000004
  | .read _     => 0x00000005
  | .writeRaw _ => 0x00000006
  | .genStop _  => 0x00000007

/-- A command's word under the table's mask is its row's match value. -/
def Statement (i : Instr) : Prop := encode i &&& 0x00000807 = matchValue i

theorem openIf (f : Fields) : Statement (.openIf f) := packWord_and_mask f 1

theorem close (f : Fields) : Statement (.close f) := packWord_and_mask f 2

theorem setFreq (f : Fields) : Statement (.setFreq f) := packWord_and_mask f 3

theorem write (f : Fields) : Statement (.write f) := packWord_and_mask f 4

theorem read (f : Fields) : Statement (.read f) := packWord_and_mask f 5

theorem writeRaw (f : Fields) : Statement (.writeRaw f) := packWord_and_mask f 6

theorem genStop (f : Fields) : Statement (.genStop f) := packWord_and_mask f 7

end Sys2Proof.Laws.TableRow
end

