-- ==== Sys2Proof/Laws/Platform.lean ====
section
/-! SUPPORT. What the constraint on two rows of the registry says. -/

namespace Sys2Proof.Machine

/-- Two rows are apart when their register blocks differ and they have no pin in common. -/
theorem apart_iff (d e : Descriptor) : apart d e = true ↔
    d.regs ≠ e.regs ∧ d.sda ≠ e.sda ∧ d.sda ≠ e.scl ∧ d.scl ≠ e.sda ∧ d.scl ≠ e.scl := by
  simp only [apart, Bool.and_eq_true, decide_eq_true_eq]

/-- The order of the two rows does not matter. -/
theorem apart_symm {d e : Descriptor} (h : apart d e = true) : apart e d = true := by
  obtain ⟨h0, h1, h2, h3, h4⟩ := (apart_iff d e).mp h
  exact (apart_iff e d).mpr ⟨h0.symm, h1.symm, h3.symm, h2.symm, h4.symm⟩

end Sys2Proof.Machine
end

