-- ==== Sys2Proof/Tests/Slice0.lean ====
section
/-! SUPPORT. Smoke tests of the well-formedness checks, of the decoder and of one step of each command, with expected
values from spec/ (30_encoding.md, 95_test_vectors.md), and a witness for the hypotheses of each statement. -/

open Sys2Proof Sys2Proof.Machine

namespace Sys2Proof.Tests

/-! ## Helpers -/

/-- The command, running, at a point of its micro-program, with the buffer base of 95_test_vectors.md section 0 and a
true first answer. -/
def runningAt (i : Instr) (u : Upc) : State :=
  { State.reset with phase := .run, cur := ⟨i, 100000, 0x20000000⟩, upc := u, bits := [true], bytes := [0x5A] }

/-- The engine waiting, with operand registers and scripted answers. -/
def waiting (hz buf : Word) (bits : List Bool) : State := { State.reset with hz := hz, buf := buf, bits := bits }

/-- The machine about to take one host action. -/
def withHost (op : HostOp) (s : State) : State := { s with host := [op] }

/-- The step answers a next state with the property. -/
def after (o : Step) (p : State → Bool) : Bool :=
  match o with
  | .next t => p t
  | _ => false

/-- The step answers a fault. -/
def faults (o : Step) (r : Fault) : Bool :=
  match o with
  | .fault x => decide (x = r)
  | _ => false

/-- The step is refused. -/
def refuses (o : Step) (r : Refusal) : Bool :=
  match o with
  | .refused x => decide (x = r)
  | _ => false

/-- The fields of a command on interface 0 to slave 0x50. -/
def to50 (n : Count) (stop : Bool) : Fields := ⟨stop, 0x50, 0, n⟩

/-- The fields of a control operation on interface 0. -/
def control : Fields := ⟨false, 0, 0, 0⟩

/-- The fields of a control operation on an interface the reference platform lacks. -/
def control3 : Fields := ⟨false, 0, 3, 0⟩

/-! ## Well-formedness: one ill-formed command for each check, and the boundary it stops at -/

theorem test_freqGiven_refuses_zero : (Instr.openIf control).freqGiven 0 = false := by decide

theorem test_freqGiven_admits_one : (Instr.setFreq control).freqGiven 1 = true := by decide

theorem test_bufferFits_refuses_wrap : (Instr.write (to50 2 false)).bufferFits 0xFFFFFFFF = false := by decide

theorem test_bufferFits_admits_last_byte : (Instr.read (to50 1 true)).bufferFits 0xFFFFFFFF = true := by decide

/-- A command of no bytes has no buffer range (20_memory.md R52). -/
theorem test_no_bytes_never_wrap : refusedOperands (.writeRaw (to50 0 false)) 0 0xFFFFFFFF = none := by decide

/-! ## Decoding: words written from 30_encoding.md R70 as COUNT, IFID, bit 11, ADDR, STOP, OP -/

/-- `OPEN if=1`. -/
theorem test_decode_open : decode 0b0000000000000000_0001_0_0000000_0_001 = .ok (.openIf ⟨false, 0, 1, 0⟩) := by rfl

/-- `CLOSE if=3`: 95_test_vectors.md L-11. -/
theorem test_decode_close : decode 0b0000000000000000_0011_0_0000000_0_010 = .ok (.close ⟨false, 0, 3, 0⟩) := by rfl

/-- `SETFREQ if=15`. -/
theorem test_decode_setFreq : decode 0b0000000000000000_1111_0_0000000_0_011 = .ok (.setFreq ⟨false, 0, 15, 0⟩) := by rfl

/-- `WRITE if=0, addr=0x68, n=1, stop=0`: 30_encoding.md R80. -/
theorem test_decode_write : decode 0b0000000000000001_0000_0_1101000_0_100 = .ok (.write ⟨false, 0x68, 0, 1⟩) := by rfl

/-- `READ if=0, addr=0x68, n=56, stop=1`: 30_encoding.md R80. -/
theorem test_decode_read : decode 0b0000000000111000_0000_0_1101000_1_101 = .ok (.read ⟨true, 0x68, 0, 56⟩) := by rfl

/-- `WRITERAW if=0, n=2, stop=1`: 42_write.md R140. -/
theorem test_decode_writeRaw : decode 0b0000000000000010_0000_0_0000000_1_110 = .ok (.writeRaw ⟨true, 0, 0, 2⟩) := by rfl

/-- `GENSTOP if=0`: 30_encoding.md R80. -/
theorem test_decode_genStop : decode 0b0000000000000000_0000_0_0000000_0_111 = .ok (.genStop control) := by rfl

theorem test_decode_refuses_op_000 : decode 0xFFFFF7F8 = .error .reservedOp := by rfl

theorem test_decode_refuses_bit_11 : decode 0x00000804 = .error .reservedBit11 := by rfl

/-- The words of 30_encoding.md R80 assemble from their fields. -/
theorem test_encode_spec_words :
    encode (.write ⟨false, 0x68, 0, 1⟩) = 0x00010684 ∧ encode (.read ⟨true, 0x68, 0, 56⟩) = 0x0038068D := by decide

theorem test_table_word : decodeTableWord 32 0x00010684 = some (.write ⟨false, 0x68, 0, 1⟩) := by rfl

/-- The command placed after reset is accepted by the very next step. -/
theorem test_placed_word_runs :
    after (step (State.reset.withFetchWord 32 0x00000001)) (fun t =>
      decide (t.phase = .run ∧ t.cur.cmd = .openIf control ∧ t.hist = [⟨0, .accept 0x00000001⟩])) = true := by decide

/-! ## One step of each command (events and results of 95_test_vectors.md) -/

/-- L-3: `OPEN if=2` is out of range: -17. -/
theorem test_open_ifid_range :
    after (exec (.openIf control3) (runningAt (.openIf control3) .entry)) (fun t =>
      decide (t.result.toInt = -17 ∧ t.phase = .idle)) = true := by decide

/-- L-2: over the maximum, OPEN ends with -19 after its three primitives. -/
theorem test_open_hz_max :
    after (exec (.openIf control) { runningAt (.openIf control) .freqBody with cur := ⟨.openIf control, 400001, 0⟩ })
      (fun t => decide (t.result.toInt = -19)) = true := by decide

/-- R111: over the maximum, OPEN's first action is still `CLKEN`. -/
theorem test_open_clocks_first :
    after (exec (.openIf control) { runningAt (.openIf control) .entry with cur := ⟨.openIf control, 400001, 0⟩ })
      (fun t => decide (t.hist = [⟨0, .clken⟩])) = true := by decide

/-- L-6: SETFREQ over the maximum performs no primitive. -/
theorem test_setFreq_hz_max :
    after (exec (.setFreq control) { runningAt (.setFreq control) .entry with cur := ⟨.setFreq control, 400001, 0⟩ })
      (fun t => decide (t.hist = [⟨0, .done (.err .argHzMax)⟩] ∧ t.cfg = State.reset.cfg)) = true := by decide

/-- R113: `TIMING` records the frequency in the same step. -/
theorem test_setFreq_timing :
    after (exec (.setFreq control) (runningAt (.setFreq control) .freqTiming)) (fun t =>
      decide (t.hist = [⟨0, .timing 100000⟩] ∧ t.cfg[0]? = some (some 100000) ∧ t.cfg[1]? = some none)) = true := by decide

/-- L-10: a CLOSE whose idle poll failed disables the peripheral before it ends. -/
theorem test_close_disables_after_timeout :
    after (exec (.close control) { runningAt (.close control) .closePoll with pcnt := 5 }) (fun t =>
      decide (t.hist = [⟨0, .pdis⟩] ∧ t.phase = .run)) = true := by decide

/-- L-10: and it ends with -45. -/
theorem test_close_timeout :
    after (exec (.close control) (runningAt (.close control) .closeTimeout)) (fun t => decide (t.result.toInt = -45)) =
      true := by decide

/-- W-2: the address byte of 0x68 for writing is 0xD0. -/
theorem test_write_address_byte :
    after (exec (.write ⟨false, 0x68, 0, 1⟩) (runningAt (.write ⟨false, 0x68, 0, 1⟩) .addrByte)) (fun t =>
      decide (t.hist = [⟨0, .drWrite 0xD0⟩])) = true := by decide

/-- R135: with a byte left, BTF is sampled once after a byte sent behind a TXE poll. -/
theorem test_write_samples_btf :
    after (exec (.write (to50 2 true)) { runningAt (.write (to50 2 true)) .outNext with rem := 2 }) (fun t =>
      decide (t.hist = [⟨0, .sample .btf true⟩] ∧ t.idx = 1 ∧ t.rem = 1 ∧ t.upc = .outReadB)) = true := by decide

/-- R140: WRITERAW's first action is DATA_OUT's first TXE sample. -/
theorem test_writeRaw_starts_with_txe :
    after (exec (.writeRaw (to50 2 true)) (runningAt (.writeRaw (to50 2 true)) .entry)) (fun t =>
      decide (t.hist = [⟨0, .sample .txe true⟩] ∧ t.rem = 2)) = true := by decide

/-- R136: WRITERAW of no bytes polls TXE with the final check's error. -/
theorem test_writeRaw_final_timeout :
    after (exec (.writeRaw (to50 0 false)) { runningAt (.writeRaw (to50 0 false)) .txeFinalPoll with pcnt := 3 })
      (fun t => decide (t.result.toInt = -39)) = true := by decide

/-- R145: GENSTOP asserts STOP first. -/
theorem test_genStop_stops :
    after (exec (.genStop control) (runningAt (.genStop control) .entry)) (fun t =>
      decide (t.hist = [⟨0, .stop⟩])) = true := by decide

/-- X2: a GENSTOP whose stop never clears ends with -44. -/
theorem test_genStop_timeout :
    after (exec (.genStop control) { runningAt (.genStop control) .stopPoll with pcnt := 3 }) (fun t =>
      decide (t.result.toInt = -44)) = true := by decide

/-- R167: a READ of no bytes touches nothing. -/
theorem test_read_count_zero :
    after (exec (.read (to50 0 true)) (runningAt (.read (to50 0 true)) .entry)) (fun t =>
      decide (t.result.toInt = -18 ∧ t.hist = [⟨0, .done (.err .argCountZero)⟩])) = true := by decide

/-- R163: `ACK:=0` follows the first BTF wait, and the next action of the default point is STOP. -/
theorem test_read_stop_point :
    after (exec (.read (to50 3 true)) (runningAt (.read (to50 3 true)) .rnStopA)) (fun t =>
      decide (t.hist = [⟨0, .stop⟩])) = true := by decide

/-- 10_state.md R37: START opens Start-Pending on the command's own interface. -/
theorem test_bus_start_pending :
    busStates { runningAt (.write (to50 1 true)) .sbStart with hist := [⟨0, .accept 0x0001050C⟩, ⟨0, .start⟩] } 0 =
      some [.startPending] := by decide

/-- The events of a successful OPEN of interface 0. -/
def openEvents : List HistEntry := tagged 0 [.prst, .timing 100000, .done (.ok 0)]

/-- 10_state.md R37, R39: Idle after an OPEN, no claim after an error, and none of an interface never opened. -/
theorem test_bus_after_done :
    busStates { State.reset with hist := openEvents } 0 = some [.idle] ∧
    busStates { State.reset with hist := openEvents ++ [⟨0, .done (.err .timeoutSb)⟩] } 0 = none ∧
    busStates { State.reset with hist := openEvents ++ [⟨1, .done (.ok 0)⟩] } 1 = none := by decide

/-- 60_exceptions.md R205: no claim after CLOSE's `PDIS`, also after a SETFREQ, until the next OPEN. -/
theorem test_bus_after_close :
    busStates { State.reset with hist := openEvents ++ tagged 0 [.pdis, .done (.ok 0)] } 0 = none ∧
    busStates { State.reset with
      hist := openEvents ++ tagged 0 [.pdis, .done (.ok 0), .timing 100000, .done (.ok 0)] } 0 = none ∧
    busStates { State.reset with hist := openEvents ++ tagged 0 [.pdis, .done (.ok 0)] ++ openEvents } 0 =
      some [.idle] := by decide

/-- 20_memory.md R67: rows that share one pin, or the same two pins in swapped roles, or a register block, are refused. -/
theorem test_platform_refuses_shared_pins :
    platformOk { Platform.reference with registry := [⟨0, 0, 0, 4, 5, 0⟩, ⟨1, 0, 1, 5, 6, 0⟩] } = false ∧
    platformOk { Platform.reference with registry := [⟨0, 0, 0, 4, 5, 0⟩, ⟨1, 0, 1, 5, 4, 0⟩] } = false ∧
    platformOk { Platform.reference with registry := [⟨0, 0, 0, 4, 5, 0⟩, ⟨0, 0, 1, 6, 7, 0⟩] } = false ∧
    platformOk { Platform.reference with registry := [⟨0, 0, 0, 4, 5, 0⟩, ⟨1, 0, 1, 6, 7, 0⟩] } = true := by decide

/-! ## Witnesses: the hypotheses of each statement can be met -/

theorem witness_EncodeOfDecodeIsTheWord : decode 0x0000000F = .ok (.genStop ⟨true, 0, 0, 0⟩) := by rfl

theorem witness_OpSelectsTheCommand :
    ∀ n : Fin 8, (BitVec.ofNat 32 n)[11] = false ∧ (BitVec.ofNat 32 n).extractLsb' 0 3 = BitVec.ofNat 3 n := by decide

theorem witness_MeaninglessCommandsAreRefused :
    State.reset.phase = .idle ∧ (0x00000000 : Word).extractLsb' 0 3 = 0 ∧ (0x00000801 : Word)[11] = true ∧
    decode 0x00000001 = .ok (.openIf control) ∧ (Instr.openIf control).usesHz = true ∧ State.reset.hz = 0 := by decide

/-- The boundary of the wrapping range: the last address is inside, the next is not. -/
theorem witness_MeaninglessCommandsAreRefused_wrap :
    (waiting 0 0xFFFFFFFF []).phase = .idle ∧ decode 0x00020506 = .ok (.writeRaw (to50 2 false)) ∧
    (Instr.writeRaw (to50 2 false)).usesBuf = true ∧ 1 ≤ (Instr.writeRaw (to50 2 false)).count.toNat ∧
    2 ^ 32 - 1 < (waiting 0 0xFFFFFFFF []).buf.toNat + (Instr.writeRaw (to50 2 false)).count.toNat - 1 ∧
    decode 0x00010506 = .ok (.writeRaw (to50 1 false)) ∧
    (Instr.writeRaw (to50 1 false)).wellFormed 0 0xFFFFFFFF = true := by decide

theorem witness_AcceptanceAssemblesTheOperands :
    (waiting 1 0 []).phase = .idle ∧ decode 0x00000003 = .ok (.setFreq control) ∧
    (Instr.setFreq control).wellFormed (waiting 1 0 []).hz (waiting 1 0 []).buf = true := by decide

theorem witness_AddressByteOnTheBus :
    (Running (.write (to50 1 true)) (runningAt (.write (to50 1 true)) .addrByte) ∧
      (runningAt (.write (to50 1 true)) .addrByte).upc = .addrByte) ∧
    Running (.read (to50 1 true)) (runningAt (.read (to50 1 true)) .addrByte) ∧
      (runningAt (.read (to50 1 true)) .addrByte).upc = .addrByte := by decide

/-- Another slave address and another `HZ` for a WRITERAW. -/
theorem witness_IgnoredFieldsHaveNoEffect :
    sameOperands (.writeRaw ⟨true, 0x50, 0, 2⟩) (.writeRaw ⟨true, 0x11, 0, 2⟩) ∧
    (Instr.writeRaw ⟨true, 0x50, 0, 2⟩).usesHz = false ∧
    (runningAt (.writeRaw ⟨true, 0x50, 0, 2⟩) .entry).cur.buf = 0x20000000 ∧
    Running (.writeRaw ⟨true, 0x50, 0, 2⟩) (runningAt (.writeRaw ⟨true, 0x50, 0, 2⟩) .entry) ∧
    State.reset.phase = .idle := ⟨⟨rfl, rfl, rfl⟩, rfl, rfl, ⟨rfl, rfl⟩, rfl⟩

theorem witness_ResultCodes :
    Running (.close control) (runningAt (.close control) .finishOk) ∧
    ∃ t, exec (.close control) (runningAt (.close control) .finishOk) = .next t ∧
      t.hist = (runningAt (.close control) .finishOk).hist ++ [⟨0, .done (.ok 0)⟩] := ⟨⟨rfl, rfl⟩, _, rfl, rfl⟩

theorem witness_ErrorsAreThoseOfTheCommand :
    Running (.write (to50 1 true)) (runningAt (.write (to50 1 true)) .outNack) ∧
    ∃ t, exec (.write (to50 1 true)) (runningAt (.write (to50 1 true)) .outNack) = .next t ∧
      t.hist = (runningAt (.write (to50 1 true)) .outNack).hist ++ [⟨0, .done (.err .nackAfFinal)⟩] :=
  ⟨⟨rfl, rfl⟩, _, rfl, rfl⟩

theorem witness_FinishWritesResultAndStops :
    platformOk (runningAt (.genStop control) .finishOk).platform = true ∧
    Running (.genStop control) (runningAt (.genStop control) .finishOk) ∧
    ∃ t, exec (.genStop control) (runningAt (.genStop control) .finishOk) = .next t := ⟨by decide, ⟨rfl, rfl⟩, _, rfl⟩

/-- The offsets of the register block, at its boundaries, on the reference platform. -/
theorem witness_RegisterBlockLoadsAndStores :
    platformOk Platform.reference = true ∧ regOffset Platform.reference 0x40000000 = 0x00 ∧
    regOffset Platform.reference 0x40000004 = 0x04 ∧ regOffset Platform.reference 0x40000008 = 0x08 ∧
    regOffset Platform.reference 0x4000000C = 0x0C ∧ regOffset Platform.reference 0x40000010 = 0x10 ∧
    0x10 < regOffset Platform.reference 0x40000014 ∧ regOffset Platform.reference 0x40000014 % 4 = 0 ∧
    0x10 < regOffset Platform.reference 0x3FFFFFFC := by decide

theorem witness_RegisterBlockLoadsAndStores_host :
    (withHost (.regLoad 0x40000010 4) State.reset).host = .regLoad 0x40000010 4 :: [] ∧
    (withHost (.regLoad 0x40000010 4) State.reset).phase = .idle ∧
    (withHost (.regLoad 0x40000010 4) (runningAt (.genStop control) .entry)).phase = .run ∧
    (withHost (.regStore 0x40000004 4 7) State.reset).host = .regStore 0x40000004 4 7 :: [] := by decide

theorem witness_OperandRegistersAreReadOnlyAtAcceptance :
    Running (.setFreq control) (runningAt (.setFreq control) .entry) := by decide

theorem witness_CommandWhileBusyFaults :
    platformOk (withHost (.regStore 0x40000000 4 1) (runningAt (.genStop control) .entry)).platform = true ∧
    (withHost (.regStore 0x40000000 4 1) (runningAt (.genStop control) .entry)).phase = .run ∧
    regOffset (withHost (.regStore 0x40000000 4 1) (runningAt (.genStop control) .entry)).platform 0x40000000 = 0 ∧
    (withHost (.regStore 0x40000000 4 1) (runningAt (.genStop control) .entry)).host = .regStore 0x40000000 4 1 :: [] := by
  decide

/-- First and last byte of a two-byte buffer. -/
theorem witness_HostMemoryAccessAndRace_race :
    ∃ s, s = withHost (.memLoad 0x20000001) (runningAt (.write (to50 2 true)) .outSend) ∧
      platformOk s.platform = true ∧ s.phase = .run ∧ s.cur.cmd.usesBuf = true ∧
      s.cur.buf.toNat ≤ (0x20000000 : Word).toNat ∧
      (0x20000001 : Word).toNat < s.cur.buf.toNat + s.cur.cmd.count.toNat ∧ s.host = .memLoad 0x20000001 :: [] :=
  ⟨_, rfl, by decide, by decide, by decide, by decide, by decide, by decide⟩

/-- The first byte past a two-byte buffer, and any byte while the engine waits. -/
theorem witness_HostMemoryAccessAndRace_free :
    (∃ s, s = withHost (.memStore 0x20000002 7) (runningAt (.write (to50 2 true)) .outSend) ∧
      platformOk s.platform = true ∧ s.cur.buf.toNat + s.cur.cmd.count.toNat ≤ (0x20000002 : Word).toNat ∧
      admitsWrite s.platform 0x20000002 = true ∧ Memory.wf s.mem = true ∧ s.host = .memStore 0x20000002 7 :: []) ∧
    ∃ s, s = withHost (.memLoad 5) State.reset ∧ s.phase = .idle ∧ admitsRead s.platform 5 = true ∧
      s.host = .memLoad 5 :: [] :=
  ⟨⟨_, rfl, by decide, by decide, by decide, by decide, by decide⟩, _, rfl, by decide, by decide, by decide⟩

theorem witness_RegisterAccessesAreAlignedWords :
    platformOk (withHost (.regLoad 0x40000000 2) State.reset).platform = true ∧ (2 : Nat) ≠ 4 ∧
    (withHost (.regLoad 0x40000000 2) State.reset).host = .regLoad 0x40000000 2 :: [] ∧
    regOffset Platform.reference 0x40000003 % 4 ≠ 0 ∧
    (withHost (.regStore 0x40000003 4 0) State.reset).host = .regStore 0x40000003 4 0 :: [] := by decide

theorem witness_EngineResetEndsTheCommand :
    platformOk (withHost .engineReset (runningAt (.read (to50 1 true)) .r1Poll)).platform = true ∧
    (withHost .engineReset (runningAt (.read (to50 1 true)) .r1Poll)).host = .engineReset :: [] := by decide

theorem witness_StepRunsTheDecodedCommand :
    ∃ s, s = withHost (.regStore 0x40000000 4 0x00000007) State.reset ∧ platformOk s.platform = true ∧
      s.host = .regStore 0x40000000 4 0x00000007 :: [] ∧ regOffset s.platform 0x40000000 = 0 ∧ s.phase = .idle ∧
      decode 0x00000007 = .ok (.genStop control) :=
  ⟨_, rfl, by decide, by decide, by decide, by decide, by decide⟩

theorem witness_StepRunsTheDecodedCommand_running :
    Running (.genStop control) (runningAt (.genStop control) .entry) ∧ (runningAt (.genStop control) .entry).host = [] ∧
    Running (.genStop control) (withHost .engine (runningAt (.genStop control) .entry)) ∧
    Running (.genStop control) (withHost .await (runningAt (.genStop control) .entry)) ∧
    State.reset.phase = .idle ∧ State.reset.host = [] := by decide

theorem witness_HostSequencesWaitAndSkip_call :
    ∃ s, s = { State.reset with host := callOps Platform.reference (.setFreq control) 100000 0 } ∧
      platformOk s.platform = true ∧ s.phase = .idle ∧ s.host = callOps s.platform (.setFreq control) 100000 0 ++ [] :=
  ⟨_, rfl, by decide, rfl, rfl⟩

theorem witness_HostSequencesWaitAndSkip_wait :
    platformOk (withHost .await State.reset).platform = true ∧ (withHost .await State.reset).phase = .idle ∧
    (withHost .await State.reset).host = .await :: [] ∧
    (withHost (.regLoad (regAddr Platform.reference offResult) 4) State.reset).host =
      .regLoad (regAddr State.reset.platform offResult) 4 :: [] := by decide

/-- WRREAD's list past its WRITE's call, after a result of 0 and after a negative one. -/
theorem witness_HostSequencesWaitAndSkip_skip :
    ∃ (k : Nat) (s : State), wrReadOps Platform.reference 0 0x68 0x20000000 4 0x20000100 =
        callOps Platform.reference (.write ⟨false, 0x68, 0, 1⟩) 0 0x20000000 ++
          .skipIfNeg k :: callOps Platform.reference (.read ⟨true, 0x68, 0, 4⟩) 0 0x20000100 ∧
      s = { State.reset with host := .skipIfNeg k ::
        (callOps Platform.reference (.read ⟨true, 0x68, 0, 4⟩) 0 0x20000100 ++ [HostOp.engine]) } ∧
      platformOk s.platform = true ∧ (0 : Int) ≤ s.hostVal.toInt ∧
      ({ s with hostVal := 0xFFFFFFDC }).hostVal.toInt < (0 : Int) :=
  ⟨_, _, rfl, rfl, by decide, by decide, by decide⟩

theorem witness_PlatformConstraints :
    platformOk { State.reset with platform := { Platform.reference with shortBudget := 0 } }.platform = false := by decide

theorem witness_PlatformConstraints_rows :
    Platform.reference.registry[0]? = some ⟨0, 0, 0, 0, 1, 0⟩ ∧
    Platform.reference.registry[1]? = some ⟨1, 0, 1, 2, 3, 0⟩ := by decide

theorem witness_AcceptanceIsOneStep :
    (waiting 0 0xFFFFFFFF []).phase = .idle ∧
    (Instr.read (to50 1 true)).wellFormed (waiting 0 0xFFFFFFFF []).hz (waiting 0 0xFFFFFFFF []).buf = true := by decide

/-- Interface 2 is the first the reference platform lacks. -/
theorem witness_InterfaceCheckComesFirst :
    Running (.close ⟨false, 0, 2, 0⟩) (runningAt (.close ⟨false, 0, 2, 0⟩) .entry) ∧
    (runningAt (.close ⟨false, 0, 2, 0⟩) .entry).upc = .entry ∧
    (runningAt (.close ⟨false, 0, 2, 0⟩) .entry).platform.nIf ≤ (Instr.close ⟨false, 0, 2, 0⟩).ifid.toNat := by decide

/-- The command is running at each point of its micro-program: the hypotheses of the statements made point by point. -/
theorem witness_every_point (i : Instr) (u : Upc) (hu : u ∈ points i) :
    Running i (runningAt i u) ∧ (runningAt i u).upc = u ∧ u ∈ points i := ⟨⟨rfl, rfl⟩, rfl, hu⟩

/-- The frequency at and over the maximum, and the last interface the reference platform has. -/
theorem witness_OpenMicroProgram :
    (runningAt (.openIf ⟨false, 0, 1, 0⟩) .entry).platform.maxHz = 400000 ∧
    (⟨false, 0, 1, 0⟩ : Fields).ifid.toNat < (runningAt (.openIf ⟨false, 0, 1, 0⟩) .entry).platform.nIf ∧
    (runningAt (.openIf control) .freqBody).cur.hz.toNat ≤ 400000 ∧
    400000 < ({ runningAt (.openIf control) .freqBody with cur := ⟨.openIf control, 400001, 0⟩ }).cur.hz.toNat := by decide

theorem witness_SetFreqMicroProgram :
    (runningAt (.setFreq control3) .entry).platform.nIf ≤ control3.ifid.toNat ∧
    control.ifid.toNat < (runningAt (.setFreq control) .entry).platform.nIf := by decide

theorem witness_CloseMicroProgram :
    Running (.close control3) (runningAt (.close control3) .entry) ∧
    (runningAt (.close control3) .entry).platform.nIf ≤ control3.ifid.toNat := by decide

/-- A poll point has samples left at 2 of 3 and none at 3. -/
theorem witness_PollsAt :
    (∃ s, s = { runningAt (.write (to50 1 true)) .sbPoll with pcnt := 2 } ∧ s.pcnt < budget s.platform .sb) ∧
    ∃ s, s = { runningAt (.write (to50 1 true)) .sbPoll with pcnt := 3 } ∧ budget s.platform .sb ≤ s.pcnt :=
  ⟨⟨_, rfl, by decide⟩, _, rfl, by decide⟩

/-- The counter at its last byte and before it, and both values of the stop flag. -/
theorem witness_DataOutMicroProgram :
    ({ runningAt (.write (to50 2 true)) .outNext with rem := 2 }).rem - 1 ≠ 0 ∧
    ({ runningAt (.write (to50 2 true)) .outNext with rem := 1 }).rem - 1 = 0 ∧
    ({ runningAt (.write (to50 2 true)) .outLoop with rem := 1 }).rem ≠ 0 ∧
    (runningAt (.write (to50 2 true)) .outLoop).rem = 0 ∧ (to50 2 true).stop = true ∧ (to50 2 false).stop = false ∧
    admitsRead (runningAt (.write (to50 2 true)) .outRead).platform 0x20000000 = true := by decide

theorem witness_GenStopMicroProgram :
    Running (.genStop control3) (runningAt (.genStop control3) .entry) ∧
    (runningAt (.genStop control3) .entry).platform.nIf ≤ control3.ifid.toNat := by decide

/-- A READ of any count, among them 0, 1, 2 and 3, at its entry and at the choice of its sub-protocol. -/
theorem witness_ReadCommonMicroProgram (n : Count) :
    Running (.read (to50 n true)) (runningAt (.read (to50 n true)) .rdSelect) ∧
    Running (.read (to50 n true)) (runningAt (.read (to50 n true)) .entry) := ⟨⟨rfl, rfl⟩, rfl, rfl⟩

/-- The stores of READ: the memory is in canonical form and admits the byte. -/
theorem witness_StoresAt :
    Memory.wf (runningAt (.read (to50 1 true)) .r1Store).mem = true ∧
    admitsWrite (runningAt (.read (to50 1 true)) .r1Store).platform (0x20000000 + (0 : Count).setWidth 32) = true := by
  decide

/-- Both values of READ3_STOP_POINT, with a stop. -/
theorem witness_ReadManyMicroProgram :
    (runningAt (.read (to50 3 true)) .rnStopA).platform.read3Stop = .afterAckOff ∧
    ({ Platform.reference with read3Stop := .afterBtfB }).read3Stop = .afterBtfB ∧ (to50 3 true).stop = true := by decide

theorem witness_EveryPointTakesOneAction :
    ∀ k : Count, admitsRead (runningAt (.read (to50 3 true)) .rnRead).platform
        (bufAddr (runningAt (.read (to50 3 true)) .rnRead).cur.buf k) = true ∧
      admitsWrite (runningAt (.read (to50 3 true)) .rnRead).platform
        (bufAddr (runningAt (.read (to50 3 true)) .rnRead).cur.buf k) = true := fun _ => ⟨rfl, rfl⟩

/-- A region that refuses the buffer's byte. -/
theorem witness_RefusedMemoryAccessIsStuck :
    ∃ p, p = { Platform.reference with regions := [⟨0x20000000, 1, false, false⟩] } ∧
      admitsRead p (bufAddr 0x20000000 0) = false ∧ admitsWrite p (bufAddr 0x20000000 0) = false ∧
      storeIndex (runningAt (.read (to50 1 true)) .r1Store) = some 0 := ⟨_, rfl, by decide, by decide, rfl⟩

/-- The last sample of the budget, and the budget's end. -/
theorem witness_PollIsBounded :
    ∃ s, s = { runningAt (.read (to50 1 true)) .sbPoll with pcnt := 2 } ∧ Running (.read (to50 1 true)) s ∧
      pollLoop (.read (to50 1 true)) s.upc = some (.sb, .addrByte) ∧ s.pcnt + 0 < budget s.platform .sb ∧
      s.bits = List.replicate 0 false ++ true :: [] ∧
      ({ s with bits := [false] }).bits = List.replicate 1 false ++ [] ∧ s.pcnt + 1 = budget s.platform .sb :=
  ⟨_, rfl, by decide, by decide, by decide, by decide, by decide, by decide⟩

theorem witness_FailedPollsAreClassified :
    (∃ s, s = { runningAt (.write (to50 1 true)) .addrPoll with pcnt := 3 } ∧ Running (.write (to50 1 true)) s ∧
      pollLoop (.write (to50 1 true)) s.upc = some (.addr, .wrSr1) ∧ budget s.platform .addr ≤ s.pcnt) ∧
    (∃ s, s = { runningAt (.genStop control) .stopPoll with pcnt := 3 } ∧
      pollLoop (.genStop control) s.upc = some (.stopclr, .finishOk) ∧ budget s.platform .stopclr ≤ s.pcnt) ∧
    ∃ s, s = { runningAt (.close control) .closePoll with pcnt := 5 } ∧
      pollLoop (.close control) s.upc = some (.idle, .closeDisable) ∧ budget s.platform .idle ≤ s.pcnt :=
  ⟨⟨_, rfl, by decide, by decide, by decide⟩, ⟨_, rfl, by decide, by decide⟩, _, rfl, by decide, by decide⟩

/-- The bus idle at the last sample of the long budget, at the maximum frequency. -/
theorem witness_OpenRunsToCompletion :
    ∃ s, s = waiting 400000 0 [false, false, false, false, true] ∧ s.phase = .idle ∧ s.hz ≠ 0 ∧
      control.ifid.toNat < s.platform.nIf ∧ s.hz.toNat ≤ s.platform.maxHz ∧ 4 < s.platform.longBudget ∧
      s.bits = List.replicate 4 false ++ true :: [] :=
  ⟨_, rfl, by decide, by decide, by decide, by decide, by decide, by decide⟩

theorem witness_OpenOverMaximumTouchesHardware :
    (waiting 400001 0 []).phase = .idle ∧ (waiting 400001 0 []).platform.maxHz < (waiting 400001 0 []).hz.toNat ∧
    control.ifid.toNat < (waiting 400001 0 []).platform.nIf := by decide

/-- SETFREQ over the maximum, with the bus idle at once, and with the bus never idle. -/
theorem witness_SetFreqRunsToCompletion :
    (waiting 400001 0 []).platform.maxHz < (waiting 400001 0 []).hz.toNat ∧
    (waiting 1 0 [true]).bits = List.replicate 0 false ++ true :: [] ∧ 0 < (waiting 1 0 [true]).platform.longBudget ∧
    (waiting 1 0 (List.replicate 5 false)).bits =
      List.replicate (waiting 1 0 (List.replicate 5 false)).platform.longBudget false ++ [] ∧
    (waiting 1 0 [true]).hz ≠ 0 ∧ (waiting 1 0 [true]).hz.toNat ≤ (waiting 1 0 [true]).platform.maxHz := by decide

theorem witness_CloseRunsToCompletion :
    (waiting 0 0 [false, true]).phase = .idle ∧ control.ifid.toNat < (waiting 0 0 [false, true]).platform.nIf ∧
    1 < (waiting 0 0 [false, true]).platform.longBudget ∧
    (waiting 0 0 [false, true]).bits = List.replicate 1 false ++ true :: [] ∧
    (waiting 0 0 (List.replicate 5 false)).bits =
      List.replicate (waiting 0 0 (List.replicate 5 false)).platform.longBudget false ++ [] := by decide

theorem witness_GenStopRunsToCompletion :
    (waiting 0 0 [true]).phase = .idle ∧ control.ifid.toNat < (waiting 0 0 [true]).platform.nIf ∧
    0 < (waiting 0 0 [true]).platform.shortBudget ∧ (waiting 0 0 [true]).bits = List.replicate 0 false ++ true :: [] ∧
    (waiting 0 0 (List.replicate 3 false)).bits =
      List.replicate (waiting 0 0 (List.replicate 3 false)).platform.shortBudget false ++ [] := by decide

/-- A WRITE of two bytes with a stop and one BTF answer: 95_test_vectors.md section 3. -/
theorem witness_WriteRunsToCompletion :
    ∃ s, s = waiting 0 0x20000000 [true, true, true, true, true, false, true] ∧ s.phase = .idle ∧
      (to50 2 true).ifid.toNat < s.platform.nIf ∧ 1 ≤ s.platform.shortBudget ∧
      (Instr.write (to50 2 true)).wellFormed s.hz s.buf = true ∧
      (∀ k : Count, k.toNat < (to50 2 true).count.toNat → admitsRead s.platform (bufAddr s.buf k) = true) ∧
      s.bits = [true, true] ++ dataOutBits (fun _ => true) (to50 2 true) ++ [] :=
  ⟨_, rfl, by decide, by decide, by decide, by decide, fun _ _ => rfl, by decide⟩

/-- A WRITERAW of two bytes whose BTF sample is false: 42_write.md R140. -/
theorem witness_WriteRawRunsToCompletion :
    ∃ s, s = waiting 0 0x20000000 [true, false, true, true, false, true] ∧ s.phase = .idle ∧
      (to50 2 true).ifid.toNat < s.platform.nIf ∧ 1 ≤ s.platform.shortBudget ∧
      (Instr.writeRaw (to50 2 true)).wellFormed s.hz s.buf = true ∧
      (∀ k : Count, k.toNat < (to50 2 true).count.toNat → admitsRead s.platform (bufAddr s.buf k) = true) ∧
      s.bits = dataOutBits (fun _ => false) (to50 2 true) ++ [] :=
  ⟨_, rfl, by decide, by decide, by decide, by decide, fun _ _ => rfl, by decide⟩

/-- A READ of three bytes with a stop: 95_test_vectors.md D6. -/
theorem witness_ReadRunsToCompletion :
    ∃ s, s = { waiting 0 0x20000000 [true, true, true, true, true] with bytes := [0x0A, 0x0B, 0x0C] } ∧ s.phase = .idle ∧
      (to50 3 true).ifid.toNat < s.platform.nIf ∧ 1 ≤ s.platform.shortBudget ∧
      (Instr.read (to50 3 true)).wellFormed s.hz s.buf = true ∧ (to50 3 true).count ≠ 0 ∧
      ([0x0A, 0x0B, 0x0C] : List Byte).length = (to50 3 true).count.toNat ∧
      (∀ k : Count, k.toNat < (to50 3 true).count.toNat → admitsWrite s.platform (bufAddr s.buf k) = true) ∧
      s.bytes = [0x0A, 0x0B, 0x0C] ++ [] ∧
      s.bits = List.replicate (sampleCount (readEvents s.platform (to50 3 true) s.buf [0x0A, 0x0B, 0x0C])) true ++ [] :=
  ⟨_, rfl, by decide, by decide, by decide, by decide, by decide, by decide, fun _ _ => rfl, by decide, by decide⟩

theorem witness_EveryCommandEndsWithinItsBound :
    Running (.read (to50 3 true)) (runningAt (.read (to50 3 true)) .entry) ∧
    (runningAt (.read (to50 3 true)) .entry).upc = .entry ∧
    BufferAdmitted (.read (to50 3 true)) (runningAt (.read (to50 3 true)) .entry) := ⟨⟨rfl, rfl⟩, rfl, fun _ _ => rfl⟩

/-- A platform that refuses the byte right after the buffer admits the buffer's own. -/
theorem witness_EveryCommandEndsWithinItsBound_region :
    BufferAdmitted (.write (to50 1 true)) { runningAt (.write (to50 1 true)) .entry with
      platform := { Platform.reference with regions := [⟨0x20000001, 1, false, false⟩] } } := by
  intro k hk
  have h0 : k = 0 := BitVec.eq_of_toNat_eq (Nat.lt_one_iff.mp hk)
  subst h0
  decide

theorem witness_EachStepIsOneEventOfTheCommand :
    Running (.close control) (runningAt (.close control) .closeDisable) ∧
    ∃ t, exec (.close control) (runningAt (.close control) .closeDisable) = .next t := ⟨⟨rfl, rfl⟩, _, rfl⟩

theorem witness_ConfigurationIsWrittenOnlyByTiming :
    (∃ t, exec (.openIf control) (runningAt (.openIf control) .freqTiming) = .next t) ∧
    ∃ t, exec (.close control) State.reset = .next t := ⟨⟨_, rfl⟩, _, rfl⟩

theorem witness_MemoryIsWrittenOnlyByRead :
    (∃ t, exec (.read (to50 3 true)) { runningAt (.read (to50 3 true)) .rnStoreC with idx := 2, rem := 1 } = .next t) ∧
    Memory.wf ({ runningAt (.read (to50 3 true)) .rnStoreC with idx := 2, rem := 1 }).mem = true ∧
    storeIndex { runningAt (.read (to50 3 true)) .rnStoreC with idx := 2, rem := 1 } = some 2 ∧
    storeIndex (runningAt (.write (to50 3 true)) .outSend) = none := ⟨⟨_, rfl⟩, by decide, rfl, rfl⟩

/-- A command that runs well at the read of its last byte. -/
theorem witness_BufferAccessesStayInside :
    ∃ s, s = { runningAt (.write (to50 2 true)) .outRead with idx := 1, rem := 1 } ∧ Controlled s ∧
      Running (.write (to50 2 true)) s ∧
      ∃ t, exec (.write (to50 2 true)) s = .next t ∧ t.hist = s.hist ++ [⟨0, .memRead 0x20000001 0⟩] :=
  ⟨_, rfl, ⟨fun _ => ⟨by decide, by decide, fun _ => by decide, nofun, rfl, by decide⟩, by decide, nofun⟩,
    ⟨rfl, rfl⟩, _, rfl, rfl⟩

theorem witness_InterfacesAreIsolated :
    (∃ t, exec (.genStop control) (runningAt (.genStop control) .entry) = .next t) ∧ (1 : Ifid) ≠ 0 ∧
    platformOk Platform.reference = true ∧ eventRegs Platform.reference ⟨0, .stop⟩ = some 0 ∧
    eventRegs Platform.reference ⟨1, .stop⟩ = some 1 := ⟨⟨_, rfl⟩, by decide, by decide, rfl, rfl⟩

theorem witness_StepKeepsMemoryAndPlatform : Sound State.reset ∧ ∃ t, step State.reset = .next t :=
  ⟨⟨by decide, by decide⟩, _, rfl⟩

theorem witness_StepKeepsControl :
    Controlled (runningAt (.genStop control) .entry) ∧ ∃ t, step (runningAt (.genStop control) .entry) = .next t :=
  ⟨⟨fun _ => ⟨by decide, by decide, nofun, nofun, trivial⟩, by decide, nofun⟩, _, rfl⟩

theorem witness_StepKeepsTheRecords :
    Recorded (runningAt (.genStop control) .finishOk) ∧
    ∃ t, step (runningAt (.genStop control) .finishOk) = .next t := ⟨⟨rfl, by decide⟩, _, rfl⟩

theorem witness_StepKeepsAdjacency :
    Adjacent { runningAt (.write (to50 2 true)) .wrSr2 with hist := [⟨0, .sr1⟩] } ∧
    ∃ t, step { runningAt (.write (to50 2 true)) .wrSr2 with hist := [⟨0, .sr1⟩] } = .next t :=
  ⟨fun _ => rfl, _, rfl⟩

theorem witness_StepKeepsTheArming :
    Controlled (runningAt (.write (to50 2 true)) .entry) ∧ Armed (runningAt (.write (to50 2 true)) .entry) ∧
    ∃ t, step (runningAt (.write (to50 2 true)) .entry) = .next t :=
  ⟨⟨fun _ => ⟨by decide, by decide, fun h => absurd rfl h, nofun, trivial⟩, by decide, nofun⟩,
    fun _ => ⟨fun _ _ h => absurd rfl h, nofun⟩, _, rfl⟩

/-- A one-byte READ, acknowledge off, before it reads its byte. -/
def lastByteOfOne : State :=
  { runningAt (.read (to50 1 true)) .r1Read with hist := [⟨0, .pos false⟩, ⟨0, .ack false⟩] }

theorem witness_LastByteIsReadWithAcknowledgeOff :
    Controlled lastByteOfOne ∧ Armed lastByteOfOne ∧ Running (.read (to50 1 true)) lastByteOfOne ∧
    ∃ t, exec (.read (to50 1 true)) lastByteOfOne = .next t ∧
      t.hist = lastByteOfOne.hist ++ [⟨0, .drRead 0x5A⟩] ∧ t.upc = .r1Store := by
  refine ⟨⟨fun _ => ⟨by decide, by decide, fun _ => by decide, ?_, ?_⟩, by decide, nofun⟩, fun _ => ⟨nofun, ?_⟩,
    ⟨rfl, rfl⟩, _, rfl, rfl, rfl⟩
  · intro f h _
    cases h
    decide
  · exact (rfl : (1 : Count) = 1)
  · intro f h
    cases h
    refine ⟨nofun, fun h => ?_, fun _ => ⟨rfl, rfl⟩, fun h => ?_, fun h => ?_⟩
    · exact absurd h (by decide)
    · exact absurd h (by decide)
    · exact absurd h (by decide)

theorem witness_BytesMoveInAdjacentSteps :
    ∃ s, s = { runningAt (.write (to50 1 true)) .outSend with hist := [⟨0, .memRead 0x20000000 0⟩] } ∧ Adjacent s ∧
      Running (.write (to50 1 true)) s ∧
      ∃ t, exec (.write (to50 1 true)) s = .next t ∧ t.hist = s.hist ++ [⟨0, .drWrite 0⟩] ∧ s.upc ≠ .addrByte :=
  ⟨_, rfl, fun _ => rfl, ⟨rfl, rfl⟩, _, rfl, rfl, nofun⟩

end Sys2Proof.Tests
end

section
/-! The host port's state: what reset leaves in it (10_state.md R39), and that a running command reads the latched
operands only, never the registers `HZ` and `BUF` (10_state.md R22). -/

namespace Sys2Proof.Machine

/-- Settles O12: the field equations of the reset state, and the lookup in its constant `cfg`. -/
theorem resetState : Obligations.ResetState := by
  have cfg_reset (i : Ifid) : State.reset.cfg[i.toNat]? = some none :=
    Vector.getElem?_replicate_of_lt i.isLt
  exact ⟨rfl, rfl, rfl, rfl, rfl, cfg_reset, rfl⟩

/-! ### Meanings that do not depend on the operand registers -/

/-- The outcome is the same, but for the two registers, whatever `HZ` and `BUF` hold. -/
def IgnoresOperands (f : State → Step) : Prop :=
  ∀ (hz buf : Word) (s : State), f (withOperands hz buf s) = mapNext (withOperands hz buf) (f s)

@[simp] theorem withOperands_upc (hz buf : Word) (s : State) : (withOperands hz buf s).upc = s.upc := rfl

/-- A choice between two outcomes commutes with a change of the next state when both outcomes do. -/
theorem ite_eq_mapNext {g : State → State} {c : Prop} [Decidable c] {a a' b b' : Step} (ha : a' = mapNext g a)
    (hb : b' = mapNext g b) : (if c then a' else b') = mapNext g (if c then a else b) := by
  rw [ha, hb, apply_ite (mapNext g)]

/-! The shared operations: what each reads is the latched command, the sequencer, the memory, the oracle or the
platform. -/

theorem act_ignoresOperands (e : Event) (nxt : Upc) : IgnoresOperands (act e nxt) := fun _ _ _ => rfl

theorem sample_ignoresOperands (c : Cond) (yes no : Upc) : IgnoresOperands (sample c yes no) := fun _ _ _ => rfl

theorem sendAddress_ignoresOperands (dir : Bool) (nxt : Upc) : IgnoresOperands (sendAddress dir nxt) := fun _ _ _ => rfl

theorem sendByte_ignoresOperands (nxt : Upc) : IgnoresOperands (sendByte nxt) := fun _ _ _ => rfl

theorem receiveByte_ignoresOperands (nxt : Upc) : IgnoresOperands (receiveByte nxt) := fun _ _ _ => rfl

theorem programTiming_ignoresOperands (nxt : Upc) : IgnoresOperands (programTiming nxt) := fun _ _ _ => rfl

theorem finish_ignoresOperands (r : Result) : IgnoresOperands (finish r) := fun _ _ _ => rfl

theorem raise_ignoresOperands (e : Err) : IgnoresOperands (raise e) := finish_ignoresOperands _

theorem loadByte_ignoresOperands (k : Count) (nxt : Upc) : IgnoresOperands (loadByte k nxt) :=
  fun _ _ _ => ite_eq_mapNext rfl rfl

theorem storeByte_ignoresOperands (k : Count) (nxt : Upc) : IgnoresOperands (storeByte k nxt) :=
  fun _ _ _ => ite_eq_mapNext rfl rfl

theorem poll_ignoresOperands (c : Cond) (loop ok : Upc) {fail : State → Step} (hf : IgnoresOperands fail) :
    IgnoresOperands (poll c loop ok fail) :=
  fun _ _ s => ite_eq_mapNext rfl (hf _ _ s)

theorem startPoll_ignoresOperands (c : Cond) (loop ok : Upc) {fail : State → Step} (hf : IgnoresOperands fail) :
    IgnoresOperands (startPoll c loop ok fail) :=
  fun _ _ s => poll_ignoresOperands c loop ok hf _ _ { s with pcnt := 0 }

theorem checkIfid_ignoresOperands {k : State → Step} (hk : IgnoresOperands k) : IgnoresOperands (checkIfid k) :=
  fun _ _ s => ite_eq_mapNext (raise_ignoresOperands _ _ _ s) (hk _ _ s)

/-! The shared sub-programs. -/

theorem freqCheck_ignoresOperands : IgnoresOperands freqCheck := fun _ _ s =>
  ite_eq_mapNext (raise_ignoresOperands _ _ _ s) (startPoll_ignoresOperands _ _ _ (raise_ignoresOperands _) _ _ s)

theorem setFreqBody_ignoresOperands : IgnoresOperands setFreqBody := by
  intro hz buf s
  simp only [setFreqBody, withOperands_upc]
  split
  · exact freqCheck_ignoresOperands hz buf s
  · exact poll_ignoresOperands _ _ _ (raise_ignoresOperands _) hz buf s
  · exact programTiming_ignoresOperands _ hz buf s
  · exact finish_ignoresOperands _ hz buf s
  · rfl

theorem stopWait_ignoresOperands : IgnoresOperands stopWait :=
  startPoll_ignoresOperands _ _ _ (raise_ignoresOperands _)

theorem stopPhase_ignoresOperands (n : Count) : IgnoresOperands (stopPhase n) := by
  intro hz buf s
  simp only [stopPhase, withOperands_upc]
  split
  · exact stopWait_ignoresOperands hz buf s
  · exact poll_ignoresOperands _ _ _ (raise_ignoresOperands _) hz buf s
  · exact finish_ignoresOperands _ hz buf s
  · rfl

theorem addressPhase_ignoresOperands (dir : Bool) (done : Upc) : IgnoresOperands (addressPhase dir done) := by
  have classify : IgnoresOperands classifyAddress := sample_ignoresOperands _ _ _
  intro hz buf s
  simp only [addressPhase, withOperands_upc]
  split
  · exact act_ignoresOperands _ _ hz buf s
  · exact act_ignoresOperands _ _ hz buf s
  · exact startPoll_ignoresOperands _ _ _ (raise_ignoresOperands _) hz buf s
  · exact poll_ignoresOperands _ _ _ (raise_ignoresOperands _) hz buf s
  · exact sendAddress_ignoresOperands _ _ hz buf s
  · exact startPoll_ignoresOperands _ _ _ classify hz buf s
  · exact poll_ignoresOperands _ _ _ classify hz buf s
  · exact raise_ignoresOperands _ hz buf s
  · exact raise_ignoresOperands _ hz buf s
  · rfl

/-! DATA_OUT (42_write.md R134). -/

theorem txeFinal_ignoresOperands : IgnoresOperands txeFinal :=
  startPoll_ignoresOperands _ _ _ (raise_ignoresOperands _)

theorem outTop_ignoresOperands : IgnoresOperands outTop := fun _ _ s =>
  ite_eq_mapNext (txeFinal_ignoresOperands _ _ s) (startPoll_ignoresOperands _ _ _ (raise_ignoresOperands _) _ _ s)

theorem outShortcut_ignoresOperands : IgnoresOperands outShortcut := fun _ _ s =>
  ite_eq_mapNext (txeFinal_ignoresOperands _ _ s) (sample_ignoresOperands _ _ _ _ _ s)

theorem dataOut_ignoresOperands : IgnoresOperands dataOut := by
  intro hz buf s
  simp only [dataOut, withOperands_upc]
  split
  · exact outTop_ignoresOperands hz buf (initTransfer s)
  · exact poll_ignoresOperands _ _ _ (raise_ignoresOperands _) hz buf s
  · exact loadByte_ignoresOperands _ _ hz buf s
  · exact sendByte_ignoresOperands _ hz buf s
  · exact outShortcut_ignoresOperands hz buf (advance s)
  · exact outTop_ignoresOperands hz buf s
  · exact loadByte_ignoresOperands _ _ hz buf s
  · exact sendByte_ignoresOperands _ hz buf s
  · exact outTop_ignoresOperands hz buf (advance s)
  · exact poll_ignoresOperands _ _ _ (raise_ignoresOperands _) hz buf s
  · exact sample_ignoresOperands _ _ _ hz buf s
  · exact raise_ignoresOperands _ hz buf s
  · exact ite_eq_mapNext (act_ignoresOperands _ _ hz buf s) (finish_ignoresOperands _ hz buf s)
  · exact stopPhase_ignoresOperands _ hz buf s

/-! The sub-protocols of READ (43_read.md R161 to R164). -/

theorem readSelect_ignoresOperands : IgnoresOperands readSelect := fun _ _ s =>
  ite_eq_mapNext (act_ignoresOperands _ _ _ _ s)
    (ite_eq_mapNext (act_ignoresOperands _ _ _ _ s) (act_ignoresOperands _ _ _ _ s))

theorem read1_ignoresOperands : IgnoresOperands read1 := by
  intro hz buf s
  simp only [read1, withOperands_upc]
  split
  · exact ite_eq_mapNext (act_ignoresOperands _ _ hz buf s) (act_ignoresOperands _ _ hz buf s)
  · exact act_ignoresOperands _ _ hz buf s
  · exact act_ignoresOperands _ _ hz buf s
  · exact startPoll_ignoresOperands _ _ _ (raise_ignoresOperands _) hz buf s
  · exact poll_ignoresOperands _ _ _ (raise_ignoresOperands _) hz buf s
  · exact receiveByte_ignoresOperands _ hz buf s
  · exact storeByte_ignoresOperands _ _ hz buf s
  · rfl

theorem read2_ignoresOperands : IgnoresOperands read2 := by
  intro hz buf s
  simp only [read2, withOperands_upc]
  split
  · exact act_ignoresOperands _ _ hz buf s
  · exact act_ignoresOperands _ _ hz buf s
  · exact act_ignoresOperands _ _ hz buf s
  · exact startPoll_ignoresOperands _ _ _ (raise_ignoresOperands _) hz buf s
  · exact poll_ignoresOperands _ _ _ (raise_ignoresOperands _) hz buf s
  · exact ite_eq_mapNext (act_ignoresOperands _ _ hz buf s) (receiveByte_ignoresOperands _ hz buf s)
  · exact receiveByte_ignoresOperands _ hz buf s
  · exact storeByte_ignoresOperands _ _ hz buf s
  · exact receiveByte_ignoresOperands _ hz buf s
  · exact storeByte_ignoresOperands _ _ hz buf s
  · rfl

theorem readTop_ignoresOperands : IgnoresOperands readTop := fun _ _ s =>
  ite_eq_mapNext (startPoll_ignoresOperands _ _ _ (raise_ignoresOperands _) _ _ s)
    (startPoll_ignoresOperands _ _ _ (raise_ignoresOperands _) _ _ s)

theorem readN_ignoresOperands : IgnoresOperands readN := by
  intro hz buf s
  simp only [readN, withOperands_upc]
  split
  · exact act_ignoresOperands _ _ hz buf s
  · exact readTop_ignoresOperands hz buf (initTransfer s)
  · exact poll_ignoresOperands _ _ _ (raise_ignoresOperands _) hz buf s
  · exact receiveByte_ignoresOperands _ hz buf s
  · exact storeByte_ignoresOperands _ _ hz buf s
  · exact readTop_ignoresOperands hz buf (advance s)
  · exact poll_ignoresOperands _ _ _ (raise_ignoresOperands _) hz buf s
  · exact act_ignoresOperands _ _ hz buf s
  · exact ite_eq_mapNext (act_ignoresOperands _ _ hz buf s) (receiveByte_ignoresOperands _ hz buf s)
  · exact receiveByte_ignoresOperands _ hz buf s
  · exact storeByte_ignoresOperands _ _ hz buf s
  · exact startPoll_ignoresOperands _ _ _ (raise_ignoresOperands _) hz buf (advance s)
  · exact poll_ignoresOperands _ _ _ (raise_ignoresOperands _) hz buf s
  · exact ite_eq_mapNext (act_ignoresOperands _ _ hz buf s) (receiveByte_ignoresOperands _ hz buf s)
  · exact receiveByte_ignoresOperands _ hz buf s
  · exact storeByte_ignoresOperands _ _ hz buf s
  · exact receiveByte_ignoresOperands _ hz buf (advance s)
  · exact storeByte_ignoresOperands _ _ hz buf s
  · rfl

theorem readEnd_ignoresOperands : IgnoresOperands readEnd := fun _ _ s =>
  ite_eq_mapNext (stopWait_ignoresOperands _ _ s) (finish_ignoresOperands _ _ _ s)

/-! The micro-programs. -/

theorem openStep_ignoresOperands : IgnoresOperands openStep := by
  intro hz buf s
  simp only [openStep, withOperands_upc]
  split
  · exact checkIfid_ignoresOperands (act_ignoresOperands _ _) hz buf s
  · exact act_ignoresOperands _ _ hz buf s
  · exact act_ignoresOperands _ _ hz buf s
  · exact setFreqBody_ignoresOperands hz buf s

theorem closeStep_ignoresOperands : IgnoresOperands closeStep := by
  intro hz buf s
  simp only [closeStep, withOperands_upc]
  split
  · exact checkIfid_ignoresOperands (startPoll_ignoresOperands _ _ _ (act_ignoresOperands _ _)) hz buf s
  · exact poll_ignoresOperands _ _ _ (act_ignoresOperands _ _) hz buf s
  · exact act_ignoresOperands _ _ hz buf s
  · exact raise_ignoresOperands _ hz buf s
  · exact finish_ignoresOperands _ hz buf s
  · rfl

theorem setFreqStep_ignoresOperands : IgnoresOperands setFreqStep := by
  intro hz buf s
  simp only [setFreqStep, withOperands_upc]
  split
  · exact checkIfid_ignoresOperands freqCheck_ignoresOperands hz buf s
  · rfl
  · exact setFreqBody_ignoresOperands hz buf s

theorem writeStep_ignoresOperands : IgnoresOperands writeStep := by
  intro hz buf s
  cases h : s.upc
  all_goals simp only [writeStep, withOperands_upc, h]
  case entry => exact checkIfid_ignoresOperands (act_ignoresOperands _ _) hz buf s
  case wrSr1 | wrSr2 => exact act_ignoresOperands _ _ hz buf s
  case clearAf | start | sbStart | sbPoll | addrByte | addrStart | addrPoll | afNack | afTimeout =>
    exact addressPhase_ignoresOperands _ _ hz buf s
  all_goals exact dataOut_ignoresOperands hz buf s

theorem writeRawStep_ignoresOperands : IgnoresOperands writeRawStep := by
  intro hz buf s
  simp only [writeRawStep, withOperands_upc]
  split
  · exact checkIfid_ignoresOperands (fun hz buf s => outTop_ignoresOperands hz buf (initTransfer s)) hz buf s
  · rfl
  · exact dataOut_ignoresOperands hz buf s

theorem genStopStep_ignoresOperands : IgnoresOperands genStopStep := by
  intro hz buf s
  simp only [genStopStep, withOperands_upc]
  split
  · exact checkIfid_ignoresOperands (act_ignoresOperands _ _) hz buf s
  · exact stopPhase_ignoresOperands _ hz buf s

/-- READ's first action: a count of 0 is an argument error (43_read.md R160). -/
theorem readEntry_ignoresOperands :
    IgnoresOperands fun s => if s.cur.cmd.count = 0 then raise .argCountZero s else act (.pos false) .setAck s :=
  fun _ _ s => ite_eq_mapNext (raise_ignoresOperands _ _ _ s) (act_ignoresOperands _ _ _ _ s)

theorem readStep_ignoresOperands : IgnoresOperands readStep := by
  intro hz buf s
  cases h : s.upc
  all_goals simp only [readStep, withOperands_upc, h]
  case entry => exact checkIfid_ignoresOperands readEntry_ignoresOperands hz buf s
  case setAck => exact act_ignoresOperands _ _ hz buf s
  case rdSelect => exact readSelect_ignoresOperands hz buf s
  case readEnd => exact readEnd_ignoresOperands hz buf s
  case stopPoll | finishOk => exact stopPhase_ignoresOperands _ hz buf s
  case clearAf | start | sbStart | sbPoll | addrByte | addrStart | addrPoll | afNack | afTimeout =>
    exact addressPhase_ignoresOperands _ _ hz buf s
  case r1Stop | r1Sr1 | r1Sr2 | r1Start | r1Poll | r1Read | r1Store => exact read1_ignoresOperands hz buf s
  case r2Pos | r2Sr1 | r2Sr2 | r2Start | r2Poll | r2Stop | r2Read1 | r2Store1 | r2Read2 | r2Store2 =>
    exact read2_ignoresOperands hz buf s
  case rnSr2 | rnInit | rnPoll | rnRead | rnStore | rnNext | rnBtfAPoll | rnAckOff | rnStopA | rnReadA | rnStoreA
      | rnBtfBStart | rnBtfBPoll | rnStopB | rnReadB | rnStoreB | rnReadC | rnStoreC =>
    exact readN_ignoresOperands hz buf s
  all_goals rfl

/-- Once latched, a command's operands are `cur`'s (10_state.md R26, 30_encoding.md R72). -/
theorem micro_ignoresOperands (i : Instr) : IgnoresOperands (micro i) := by
  cases i with
  | openIf f => exact openStep_ignoresOperands
  | close f => exact closeStep_ignoresOperands
  | setFreq f => exact setFreqStep_ignoresOperands
  | write f => exact writeStep_ignoresOperands
  | read f => exact readStep_ignoresOperands
  | writeRaw f => exact writeRawStep_ignoresOperands
  | genStop f => exact genStopStep_ignoresOperands

theorem regWrite_hz (v : Word) (s : State) : regWrite offHz v s = .next { s with hz := v } := rfl

theorem regWrite_buf (v : Word) (s : State) : regWrite offBuf v s = .next { s with buf := v } := rfl

/-- Settles O14: a running command's step is its micro-program's, which ignores the operand registers. -/
theorem operandRegistersAreReadOnlyAtAcceptance : Obligations.OperandRegistersAreReadOnlyAtAcceptance := by
  refine ⟨fun v s => ⟨regWrite_hz v s, regWrite_buf v s⟩, fun i s hz buf hr => ?_⟩
  have hr' : Running i (withOperands hz buf s) := hr
  rw [exec_run hr.1 hr.2, exec_run hr'.1 hr'.2]
  exact micro_ignoresOperands i hz buf s

end Sys2Proof.Machine
end

section
/-! The command word (30_encoding.md R70 to R78): which words decode, what a store of `CMD` makes of one, and the address
byte on the bus. -/

namespace Sys2Proof

/-- No command has the reserved `OP` (30_encoding.md R71). -/
theorem opcode_ne_zero (i : Instr) : opcode i ≠ 0 := by
  cases i <;> simp [opcode]

/-- The decoder reads a command off its `OP` and its operand fields, wherever bit 11 is clear. -/
theorem decode_eq_ok_iff {w : Word} {i : Instr} :
    decode w = .ok i ↔ w[11] = false ∧ opField w = opcode i ∧ operandFields w = i.fields := by
  constructor
  · intro h
    unfold decode at h
    split at h
    · exact nomatch h
    · rename_i h11
      refine ⟨Bool.eq_false_of_not_eq_true h11, ?_⟩
      split at h
      case h_8 => exact nomatch h
      all_goals
        rename_i hop
        cases h
        exact ⟨BitVec.eq_of_toNat_eq hop, rfl⟩
  · rintro ⟨h11, hop, hf⟩
    cases i <;> simp [decode, h11, hop, hf, opcode, Instr.fields]

/-- A word with the reserved `OP`, or with bit 11 set, has no meaning (30_encoding.md R76). -/
theorem decode_error_of_reserved {w : Word} (h : opField w = 0 ∨ w[11] = true) : ∃ e, decode w = .error e := by
  cases hd : decode w with
  | error e => exact ⟨e, rfl⟩
  | ok i =>
    obtain ⟨h11, hop, -⟩ := decode_eq_ok_iff.mp hd
    rcases h with h0 | h1
    · exact absurd (hop.symm.trans h0) (opcode_ne_zero i)
    · exact absurd (h11.symm.trans h1) Bool.false_ne_true

/-- Settles O3: the decoder's one equivalence, at the seven values of `OP`; no command has the eighth. -/
theorem opSelectsTheCommand : Obligations.OpSelectsTheCommand := by
  intro w h11
  have selects {i : Instr} (hop : opField w = opcode i) (hf : operandFields w = i.fields) : decode w = .ok i :=
    decode_eq_ok_iff.mpr ⟨h11, hop, hf⟩
  exact ⟨(selects · rfl), (selects · rfl), (selects · rfl), (selects · rfl), (selects · rfl), (selects · rfl),
    (selects · rfl), fun h0 => decode_error_of_reserved (.inl h0)⟩

/-- A command that uses `HZ` is refused with the frequency 0 (30_encoding.md R76). -/
theorem refusedOperands_zeroFrequency {i : Instr} (hu : i.usesHz = true) (buf : Word) :
    refusedOperands i 0 buf = some .zeroFrequency := by
  cases i with
  | openIf f | setFreq f => rfl
  | close f | write f | read f | writeRaw f | genStop f => exact Bool.noConfusion hu

/-- A command that uses `BUF` is refused when its last byte lies past the last address (30_encoding.md R76, 20_memory.md
R52). -/
theorem refusedOperands_bufferWraps {i : Instr} {buf : Word} (hu : i.usesBuf = true) (hc : 1 ≤ i.count.toNat)
    (hw : 2 ^ 32 - 1 < buf.toNat + i.count.toNat - 1) (hz : Word) :
    refusedOperands i hz buf = some .bufferWraps := by
  cases i with
  | write f | read f | writeRaw f =>
    have hne : f.count ≠ 0 := by
      intro h0
      simp [Instr.count, Instr.fields, h0] at hc
    exact if_pos ⟨hne, hw⟩
  | openIf f | close f | setFreq f | genStop f => exact Bool.noConfusion hu

namespace Machine

variable {w : Word} {s : State} {i : Instr}

theorem cmdWrite_of_decode_error {e : DecodeError} (hp : s.phase = .idle) (hd : decode w = .error e) :
    cmdWrite w s = .refused (.command e) := by
  simp only [cmdWrite, hp, hd]

theorem cmdWrite_of_decode_ok (hp : s.phase = .idle) (hd : decode w = .ok i) : cmdWrite w s = accept i s := by
  simp only [cmdWrite, hp, hd, exec_idle]

theorem accept_of_refusedOperands {e : DecodeError} (h : refusedOperands i s.hz s.buf = some e) :
    accept i s = .refused (.command e) := by
  simp only [accept, h]

theorem accept_of_wellFormed (h : i.wellFormed s.hz s.buf = true) : accept i s = .next (accepted i s) :=
  accept_eq_next.mpr ⟨(refusedOperands_eq_none i s.hz s.buf).mpr h, rfl⟩

/-- Settles O5: a store of `CMD` is the decoder's refusal or the acceptance of the decoded command. -/
theorem meaninglessCommandsAreRefused : Obligations.MeaninglessCommandsAreRefused := by
  intro w s hp
  refine ⟨fun hbad => ?_, fun i hd hu hz => ?_, fun i hd hu hc hw => ?_, fun i hd hwf => ?_⟩
  · obtain ⟨e, he⟩ := decode_error_of_reserved hbad
    exact ⟨e, cmdWrite_of_decode_error hp he⟩
  · rw [cmdWrite_of_decode_ok hp hd]
    exact accept_of_refusedOperands (hz ▸ refusedOperands_zeroFrequency hu s.buf)
  · rw [cmdWrite_of_decode_ok hp hd]
    exact accept_of_refusedOperands (refusedOperands_bufferWraps hu hc hw s.hz)
  · exact ⟨accepted i s, by rw [cmdWrite_of_decode_ok hp hd, accept_of_wellFormed hwf]⟩

/-- Settles O6: the accepted state latches the decoded command, whose fields are the word's. -/
theorem acceptanceAssemblesTheOperands : Obligations.AcceptanceAssemblesTheOperands := by
  intro w i s hp hd hwf
  obtain ⟨-, hop, hf⟩ := decode_eq_ok_iff.mp hd
  refine ⟨accepted i s, by rw [cmdWrite_of_decode_ok hp hd, accept_of_wellFormed hwf], hop.symm, ?_, ?_, ?_, ?_, rfl, rfl⟩
  · exact congrArg Fields.stop hf.symm
  · exact congrArg Fields.addr hf.symm
  · exact congrArg Fields.ifid hf.symm
  · exact congrArg Fields.count hf.symm

/-! ### The address byte (30_encoding.md R78) -/

theorem addressByte_address (a : SlaveAddr) (d : Bool) : (addressByte a d).extractLsb' 1 7 = a := by
  ext k hk
  interval_cases k <;> simp [addressByte]

theorem addressByte_direction (a : SlaveAddr) (d : Bool) : (addressByte a d)[0] = d := by
  simp [addressByte]

theorem exec_write_addrByte {f : Fields} (hr : Running (.write f) s) (hu : s.upc = .addrByte) :
    exec (.write f) s = .next (did (.drWrite (addressByte f.addr false)) .addrStart s) := by
  rw [exec_run hr.1 hr.2]
  simp only [micro, writeStep, addressPhase, hu, sendAddress, hr.2]
  rfl

theorem exec_read_addrByte {f : Fields} (hr : Running (.read f) s) (hu : s.upc = .addrByte) :
    exec (.read f) s = .next (did (.drWrite (addressByte f.addr true)) .addrStart s) := by
  rw [exec_run hr.1 hr.2]
  simp only [micro, readStep, addressPhase, hu, sendAddress, hr.2]
  rfl

/-- Settles O7: the byte's two fields, and the meaning of WRITE and READ at the point that sends it. -/
theorem addressByteOnTheBus : Obligations.AddressByteOnTheBus :=
  ⟨fun a d => ⟨rfl, addressByte_address a d, addressByte_direction a d⟩, fun _ _ => exec_write_addrByte,
    fun _ _ => exec_read_addrByte⟩

end Machine
end Sys2Proof
end

section
/-! A field a command does not read has no effect on any step (30_encoding.md R73): each micro-program commutes with
exchanging the latched command for one that agrees with it on what the micro-program reads. -/

namespace Sys2Proof.Machine

/-- From a state in which `d` is latched the outcome is the same, but for the latched command, when `c` is latched
instead. -/
def SameWith (d c : Cur) (f : State → Step) : Prop := ∀ s, s.cur = d → f (withCur c s) = mapNext (withCur c) (f s)

@[simp] theorem withCur_upc (c : Cur) (s : State) : (withCur c s).upc = s.upc := rfl

@[simp] theorem withCur_cur (c : Cur) (s : State) : (withCur c s).cur = c := rfl

section

variable {d c : Cur}

/-! What the actions read: the interface identifier, and for some the buffer's address, the frequency or the slave
address. -/

section

variable (hi : c.cmd.ifid = d.cmd.ifid)
include hi

theorem emit_withCur {s : State} (hs : s.cur = d) (e : Event) : emit e (withCur c s) = withCur c (emit e s) := by
  subst hs
  simp only [emit, withCur, hi]

theorem act_sameWith (e : Event) (nxt : Upc) : SameWith d c (act e nxt) := by
  intro s hs
  simp only [act, emit_withCur hi hs]
  rfl

theorem sampled_withCur {s : State} (hs : s.cur = d) (q : Cond) :
    sampled q (withCur c s) = withCur c (sampled q s) := by
  simp only [sampled, emit_withCur hi hs]
  rfl

theorem sample_sameWith (q : Cond) (yes no : Upc) : SameWith d c (sample q yes no) := by
  intro s hs
  simp only [sample, sampled_withCur hi hs]
  rfl

theorem poll_sameWith (q : Cond) (loop ok : Upc) {fail : State → Step} (hf : SameWith d c fail) :
    SameWith d c (poll q loop ok fail) := by
  intro s hs
  simp only [poll, sampled_withCur hi hs]
  exact ite_eq_mapNext rfl (hf s hs)

theorem startPoll_sameWith (q : Cond) (loop ok : Upc) {fail : State → Step} (hf : SameWith d c fail) :
    SameWith d c (startPoll q loop ok fail) :=
  fun s hs => poll_sameWith hi q loop ok hf { s with pcnt := 0 } hs

theorem sendByte_sameWith (nxt : Upc) : SameWith d c (sendByte nxt) :=
  fun s => act_sameWith hi (.drWrite s.dat) nxt s

theorem receiveByte_sameWith (nxt : Upc) : SameWith d c (receiveByte nxt) := by
  intro s hs
  simp only [receiveByte, emit_withCur hi hs]
  rfl

theorem finish_sameWith (r : Result) : SameWith d c (finish r) := by
  intro s hs
  simp only [finish, finished, emit_withCur hi hs]
  rfl

theorem raise_sameWith (e : Err) : SameWith d c (raise e) := finish_sameWith hi _

theorem checkIfid_sameWith {k : State → Step} (hk : SameWith d c k) : SameWith d c (checkIfid k) := by
  rintro s rfl
  simp only [checkIfid, withCur_cur, hi]
  exact ite_eq_mapNext (raise_sameWith hi _ s rfl) (hk s rfl)

theorem sendAddress_sameWith (ha : c.cmd.addr = d.cmd.addr) (dir : Bool) (nxt : Upc) :
    SameWith d c (sendAddress dir nxt) := by
  rintro s rfl
  simp only [sendAddress, withCur_cur, ha]
  exact act_sameWith hi _ nxt s rfl

theorem loadByte_sameWith (hb : c.buf = d.buf) (k : Count) (nxt : Upc) : SameWith d c (loadByte k nxt) := by
  rintro s rfl
  simp only [loadByte, withCur_cur, hb, emit_withCur hi rfl]
  exact ite_eq_mapNext rfl rfl

theorem storeByte_sameWith (hb : c.buf = d.buf) (k : Count) (nxt : Upc) : SameWith d c (storeByte k nxt) := by
  rintro s rfl
  simp only [storeByte, withCur_cur, hb, emit_withCur hi rfl]
  exact ite_eq_mapNext rfl rfl

theorem programTiming_sameWith (hh : c.hz = d.hz) (nxt : Upc) : SameWith d c (programTiming nxt) := by
  rintro s rfl
  simp only [programTiming, withCur_cur, hh, hi, emit_withCur hi rfl]
  rfl

/-! GENSTOP and CLOSE read `ifid` alone. -/

theorem stopWait_sameWith : SameWith d c stopWait := startPoll_sameWith hi _ _ _ (raise_sameWith hi _)

theorem stopPhase_sameWith (n : Count) : SameWith d c (stopPhase n) := by
  intro s hs
  simp only [stopPhase, withCur_upc]
  split
  · exact stopWait_sameWith hi s hs
  · exact poll_sameWith hi _ _ _ (raise_sameWith hi _) s hs
  · exact finish_sameWith hi _ s hs
  · rfl

theorem genStopStep_sameWith : SameWith d c genStopStep := by
  intro s hs
  simp only [genStopStep, withCur_upc]
  split
  · exact checkIfid_sameWith hi (act_sameWith hi _ _) s hs
  · exact stopPhase_sameWith hi _ s hs

theorem closeStep_sameWith : SameWith d c closeStep := by
  intro s hs
  simp only [closeStep, withCur_upc]
  split
  · exact checkIfid_sameWith hi (startPoll_sameWith hi _ _ _ (act_sameWith hi _ _)) s hs
  · exact poll_sameWith hi _ _ _ (act_sameWith hi _ _) s hs
  · exact act_sameWith hi _ _ s hs
  · exact raise_sameWith hi _ s hs
  · exact finish_sameWith hi _ s hs
  · rfl

/-! OPEN and SETFREQ read `ifid` and `HZ`. -/

section

variable (hh : c.hz = d.hz)
include hh

theorem freqCheck_sameWith : SameWith d c freqCheck := by
  rintro s rfl
  simp only [freqCheck, withCur_cur, hh]
  exact ite_eq_mapNext (raise_sameWith hi _ s rfl) (startPoll_sameWith hi _ _ _ (raise_sameWith hi _) s rfl)

theorem setFreqBody_sameWith : SameWith d c setFreqBody := by
  intro s hs
  simp only [setFreqBody, withCur_upc]
  split
  · exact freqCheck_sameWith hi hh s hs
  · exact poll_sameWith hi _ _ _ (raise_sameWith hi _) s hs
  · exact programTiming_sameWith hi hh _ s hs
  · exact finish_sameWith hi _ s hs
  · rfl

theorem openStep_sameWith : SameWith d c openStep := by
  intro s hs
  simp only [openStep, withCur_upc]
  split
  · exact checkIfid_sameWith hi (act_sameWith hi _ _) s hs
  · exact act_sameWith hi _ _ s hs
  · exact act_sameWith hi _ _ s hs
  · exact setFreqBody_sameWith hi hh s hs

theorem setFreqStep_sameWith : SameWith d c setFreqStep := by
  intro s hs
  simp only [setFreqStep, withCur_upc]
  split
  · exact checkIfid_sameWith hi (freqCheck_sameWith hi hh) s hs
  · rfl
  · exact setFreqBody_sameWith hi hh s hs

end
end

/-! DATA_OUT and the sub-protocols of READ read `ifid`, `count`, `stop` and `BUF`, not the slave address. -/

/-- Two latched commands agree on what moves the bytes of a transfer. -/
structure SameTransfer (d c : Cur) : Prop where
  ifid  : c.cmd.ifid = d.cmd.ifid
  count : c.cmd.count = d.cmd.count
  stop  : c.cmd.stop = d.cmd.stop
  buf   : c.buf = d.buf

theorem initTransfer_withCur {s : State} (hn : c.cmd.count = s.cur.cmd.count) :
    initTransfer (withCur c s) = withCur c (initTransfer s) := by
  simp only [initTransfer, withCur, hn]

section

variable (h : SameTransfer d c)
include h

theorem txeFinal_sameWith : SameWith d c txeFinal := startPoll_sameWith h.ifid _ _ _ (raise_sameWith h.ifid _)

theorem outTop_sameWith : SameWith d c outTop := fun s hs =>
  ite_eq_mapNext (txeFinal_sameWith h s hs) (startPoll_sameWith h.ifid _ _ _ (raise_sameWith h.ifid _) s hs)

theorem outTop_initTransfer_sameWith : SameWith d c fun s => outTop (initTransfer s) := by
  rintro s rfl
  simp only [initTransfer_withCur h.count]
  exact outTop_sameWith h (initTransfer s) rfl

theorem outShortcut_sameWith : SameWith d c outShortcut := fun s hs =>
  ite_eq_mapNext (txeFinal_sameWith h s hs) (sample_sameWith h.ifid _ _ _ s hs)

theorem dataOut_sameWith : SameWith d c dataOut := by
  rintro s rfl
  simp only [dataOut, withCur_upc, withCur_cur, h.count, h.stop]
  split
  · exact outTop_initTransfer_sameWith h s rfl
  · exact poll_sameWith h.ifid _ _ _ (raise_sameWith h.ifid _) s rfl
  · exact loadByte_sameWith h.ifid h.buf _ _ s rfl
  · exact sendByte_sameWith h.ifid _ s rfl
  · exact outShortcut_sameWith h (advance s) rfl
  · exact outTop_sameWith h s rfl
  · exact loadByte_sameWith h.ifid h.buf _ _ s rfl
  · exact sendByte_sameWith h.ifid _ s rfl
  · exact outTop_sameWith h (advance s) rfl
  · exact poll_sameWith h.ifid _ _ _ (raise_sameWith h.ifid _) s rfl
  · exact sample_sameWith h.ifid _ _ _ s rfl
  · exact raise_sameWith h.ifid _ s rfl
  · exact ite_eq_mapNext (act_sameWith h.ifid _ _ s rfl) (finish_sameWith h.ifid _ s rfl)
  · exact stopPhase_sameWith h.ifid _ s rfl

theorem writeRawStep_sameWith : SameWith d c writeRawStep := by
  intro s hs
  simp only [writeRawStep, withCur_upc]
  split
  · exact checkIfid_sameWith h.ifid (outTop_initTransfer_sameWith h) s hs
  · rfl
  · exact dataOut_sameWith h s hs

theorem readSelect_sameWith : SameWith d c readSelect := by
  rintro s rfl
  simp only [readSelect, withCur_cur, h.count]
  exact ite_eq_mapNext (act_sameWith h.ifid _ _ s rfl)
    (ite_eq_mapNext (act_sameWith h.ifid _ _ s rfl) (act_sameWith h.ifid _ _ s rfl))

theorem read1_sameWith : SameWith d c read1 := by
  rintro s rfl
  simp only [read1, withCur_upc, withCur_cur, h.stop]
  split
  · exact ite_eq_mapNext (act_sameWith h.ifid _ _ s rfl) (act_sameWith h.ifid _ _ s rfl)
  · exact act_sameWith h.ifid _ _ s rfl
  · exact act_sameWith h.ifid _ _ s rfl
  · exact startPoll_sameWith h.ifid _ _ _ (raise_sameWith h.ifid _) s rfl
  · exact poll_sameWith h.ifid _ _ _ (raise_sameWith h.ifid _) s rfl
  · exact receiveByte_sameWith h.ifid _ s rfl
  · exact storeByte_sameWith h.ifid h.buf _ _ s rfl
  · rfl

theorem read2_sameWith : SameWith d c read2 := by
  rintro s rfl
  simp only [read2, withCur_upc, withCur_cur, h.stop]
  split
  · exact act_sameWith h.ifid _ _ s rfl
  · exact act_sameWith h.ifid _ _ s rfl
  · exact act_sameWith h.ifid _ _ s rfl
  · exact startPoll_sameWith h.ifid _ _ _ (raise_sameWith h.ifid _) s rfl
  · exact poll_sameWith h.ifid _ _ _ (raise_sameWith h.ifid _) s rfl
  · exact ite_eq_mapNext (act_sameWith h.ifid _ _ s rfl) (receiveByte_sameWith h.ifid _ s rfl)
  · exact receiveByte_sameWith h.ifid _ s rfl
  · exact storeByte_sameWith h.ifid h.buf _ _ s rfl
  · exact receiveByte_sameWith h.ifid _ s rfl
  · exact storeByte_sameWith h.ifid h.buf _ _ s rfl
  · rfl

theorem readTop_sameWith : SameWith d c readTop := fun s hs =>
  ite_eq_mapNext (startPoll_sameWith h.ifid _ _ _ (raise_sameWith h.ifid _) s hs)
    (startPoll_sameWith h.ifid _ _ _ (raise_sameWith h.ifid _) s hs)

theorem readN_sameWith : SameWith d c readN := by
  rintro s rfl
  simp only [readN, withCur_upc, withCur_cur, h.stop, initTransfer_withCur h.count]
  split
  · exact act_sameWith h.ifid _ _ s rfl
  · exact readTop_sameWith h (initTransfer s) rfl
  · exact poll_sameWith h.ifid _ _ _ (raise_sameWith h.ifid _) s rfl
  · exact receiveByte_sameWith h.ifid _ s rfl
  · exact storeByte_sameWith h.ifid h.buf _ _ s rfl
  · exact readTop_sameWith h (advance s) rfl
  · exact poll_sameWith h.ifid _ _ _ (raise_sameWith h.ifid _) s rfl
  · exact act_sameWith h.ifid _ _ s rfl
  · exact ite_eq_mapNext (act_sameWith h.ifid _ _ s rfl) (receiveByte_sameWith h.ifid _ s rfl)
  · exact receiveByte_sameWith h.ifid _ s rfl
  · exact storeByte_sameWith h.ifid h.buf _ _ s rfl
  · exact startPoll_sameWith h.ifid _ _ _ (raise_sameWith h.ifid _) (advance s) rfl
  · exact poll_sameWith h.ifid _ _ _ (raise_sameWith h.ifid _) s rfl
  · exact ite_eq_mapNext (act_sameWith h.ifid _ _ s rfl) (receiveByte_sameWith h.ifid _ s rfl)
  · exact receiveByte_sameWith h.ifid _ s rfl
  · exact storeByte_sameWith h.ifid h.buf _ _ s rfl
  · exact receiveByte_sameWith h.ifid _ (advance s) rfl
  · exact storeByte_sameWith h.ifid h.buf _ _ s rfl
  · rfl

theorem readEnd_sameWith : SameWith d c readEnd := by
  rintro s rfl
  simp only [readEnd, withCur_cur, h.count, h.stop]
  exact ite_eq_mapNext (stopWait_sameWith h.ifid s rfl) (finish_sameWith h.ifid _ s rfl)

/-- READ's first action: a count of 0 is an argument error (43_read.md R160). -/
theorem readEntry_sameWith :
    SameWith d c fun s => if s.cur.cmd.count = 0 then raise .argCountZero s else act (.pos false) .setAck s := by
  rintro s rfl
  simp only [withCur_cur, h.count]
  exact ite_eq_mapNext (raise_sameWith h.ifid _ s rfl) (act_sameWith h.ifid _ _ s rfl)

/-! WRITE and READ read the slave address too. -/

variable (ha : c.cmd.addr = d.cmd.addr)
include ha

theorem addressPhase_sameWith (dir : Bool) (done : Upc) : SameWith d c (addressPhase dir done) := by
  have classify : SameWith d c classifyAddress := sample_sameWith h.ifid _ _ _
  intro s hs
  simp only [addressPhase, withCur_upc]
  split
  · exact act_sameWith h.ifid _ _ s hs
  · exact act_sameWith h.ifid _ _ s hs
  · exact startPoll_sameWith h.ifid _ _ _ (raise_sameWith h.ifid _) s hs
  · exact poll_sameWith h.ifid _ _ _ (raise_sameWith h.ifid _) s hs
  · exact sendAddress_sameWith h.ifid ha _ _ s hs
  · exact startPoll_sameWith h.ifid _ _ _ classify s hs
  · exact poll_sameWith h.ifid _ _ _ classify s hs
  · exact raise_sameWith h.ifid _ s hs
  · exact raise_sameWith h.ifid _ s hs
  · rfl

theorem writeStep_sameWith : SameWith d c writeStep := by
  intro s hs
  cases hu : s.upc
  all_goals simp only [writeStep, withCur_upc, hu]
  case entry => exact checkIfid_sameWith h.ifid (act_sameWith h.ifid _ _) s hs
  case wrSr1 | wrSr2 => exact act_sameWith h.ifid _ _ s hs
  case clearAf | start | sbStart | sbPoll | addrByte | addrStart | addrPoll | afNack | afTimeout =>
    exact addressPhase_sameWith h ha _ _ s hs
  all_goals exact dataOut_sameWith h s hs

theorem readStep_sameWith : SameWith d c readStep := by
  rintro s rfl
  cases hu : s.upc
  all_goals simp only [readStep, withCur_upc, withCur_cur, h.count, hu]
  case entry => exact checkIfid_sameWith h.ifid (readEntry_sameWith h) s rfl
  case setAck => exact act_sameWith h.ifid _ _ s rfl
  case rdSelect => exact readSelect_sameWith h s rfl
  case readEnd => exact readEnd_sameWith h s rfl
  case stopPoll | finishOk => exact stopPhase_sameWith h.ifid _ s rfl
  case clearAf | start | sbStart | sbPoll | addrByte | addrStart | addrPoll | afNack | afTimeout =>
    exact addressPhase_sameWith h ha _ _ s rfl
  case r1Stop | r1Sr1 | r1Sr2 | r1Start | r1Poll | r1Read | r1Store => exact read1_sameWith h s rfl
  case r2Pos | r2Sr1 | r2Sr2 | r2Start | r2Poll | r2Stop | r2Read1 | r2Store1 | r2Read2 | r2Store2 =>
    exact read2_sameWith h s rfl
  case rnSr2 | rnInit | rnPoll | rnRead | rnStore | rnNext | rnBtfAPoll | rnAckOff | rnStopA | rnReadA | rnStoreA
      | rnBtfBStart | rnBtfBPoll | rnStopB | rnReadB | rnStoreB | rnReadC | rnStoreC =>
    exact readN_sameWith h s rfl
  all_goals rfl

end
end

/-- Commands of one `OP` have one micro-program. -/
theorem micro_eq_of_sameOperands {i j : Instr} (h : sameOperands i j) : micro j = micro i := by
  unfold sameOperands at h
  split at h
  case h_8 => exact h.elim
  all_goals rfl

/-- Agreement on the fields an `OP` reads, and on the operand registers it uses, is agreement on all that its
micro-program reads (30_encoding.md R73). -/
theorem micro_sameWith {i j : Instr} {hz hz' buf buf' : Word} (h : sameOperands i j)
    (hhz : i.usesHz = true → hz' = hz) (hbuf : i.usesBuf = true → buf' = buf) :
    SameWith ⟨i, hz, buf⟩ ⟨j, hz', buf'⟩ (micro i) := by
  unfold sameOperands at h
  split at h
  · exact openStep_sameWith h.symm (hhz rfl)
  · exact closeStep_sameWith h.symm
  · exact setFreqStep_sameWith h.symm (hhz rfl)
  · subst h
    exact writeStep_sameWith ⟨rfl, rfl, rfl, hbuf rfl⟩ rfl
  · subst h
    exact readStep_sameWith ⟨rfl, rfl, rfl, hbuf rfl⟩ rfl
  · obtain ⟨hifid, hcount, hstop⟩ := h
    exact writeRawStep_sameWith ⟨hifid.symm, hcount.symm, hstop.symm, hbuf rfl⟩
  · exact genStopStep_sameWith h.symm
  · exact h.elim

/-- The refusal of operand values looks only at the count and the operand registers a command uses (30_encoding.md
R76). -/
theorem refusedOperands_of_sameOperands {i j : Instr} {hz hz' buf buf' : Word} (h : sameOperands i j)
    (hhz : i.usesHz = true → hz' = hz) (hbuf : i.usesBuf = true → buf' = buf) :
    refusedOperands j hz' buf' = refusedOperands i hz buf := by
  unfold sameOperands at h
  split at h
  · rw [hhz rfl]; rfl
  · rfl
  · rw [hhz rfl]; rfl
  · rw [hbuf rfl, h]; rfl
  · rw [hbuf rfl, h]; rfl
  · simp only [refusedOperands, hbuf rfl, h.2.1]
  · rfl
  · exact h.elim

/-- What acceptance refuses, and why, is what `refusedOperands` says. -/
theorem accept_eq_refused_iff {i : Instr} {s : State} {r : Refusal} :
    accept i s = .refused r ↔ (refusedOperands i s.hz s.buf).map .command = some r := by
  unfold accept
  split <;> rename_i hr <;> simp [hr]

/-- Settles O8: refusals are decided by `refusedOperands`, and every micro-program commutes with the exchange of the
latched command. -/
theorem ignoredFieldsHaveNoEffect : Obligations.IgnoredFieldsHaveNoEffect := by
  refine fun i j s hz buf hij => ⟨fun hhz hbuf hp r => ?_, fun hhz hbuf ⟨hp, hi⟩ => ?_⟩
  · have hp' : (withOperands hz buf s).phase = .idle := hp
    have hrefused : refusedOperands j (withOperands hz buf s).hz (withOperands hz buf s).buf =
        refusedOperands i s.hz s.buf := refusedOperands_of_sameOperands hij hhz hbuf
    rw [exec_idle i hp, exec_idle j hp', accept_eq_refused_iff, accept_eq_refused_iff, hrefused]
  · have hp' : (withCur ⟨j, hz, buf⟩ s).phase = .run := hp
    rw [exec_run hp hi, exec_run (i := j) hp' rfl, micro_eq_of_sameOperands hij]
    exact micro_sameWith hij hhz hbuf s (by rw [← hi])

end Sys2Proof.Machine
end

section
/-! The ends of a command (40_bounded_poll.md R96, R97): the word of a result, with which results a micro-program ends, and
that the step that ends it is `finish` and nothing else. -/

namespace Sys2Proof.Machine

/-! ### The word of a result (40_bounded_poll.md R96) -/

/-- Every result's integer has a 32-bit two's-complement word. -/
theorem resultValue_bounds (r : Result) : -2 ^ 31 ≤ resultValue r ∧ resultValue r < 2 ^ 31 := by
  cases r with
  | ok n =>
    have hn := n.isLt
    simp only [resultValue]
    omega
  | err e => cases e <;> decide

/-- The word of a result reads back as its integer. -/
theorem toInt_encResult (r : Result) : (encResult r).toInt = resultValue r := by
  obtain ⟨hlo, hhi⟩ := resultValue_bounds r
  rw [encResult, BitVec.toInt_ofInt]
  exact Int.bmod_eq_of_le (by omega) (by omega)

/-! ### With what an outcome may end the command -/

/-- If the outcome records `Done(r)`, then `r` is `Ok(n)` or an error of the list, and on a platform within the constraints
the next state is `finish(r)` of `s`. -/
def EndsIn (es : List Err) (n : Count) (s : State) (o : Step) : Prop :=
  ∀ t r, o = .next t → lastEvent t = some (.done r) →
    (r = .ok n ∨ ∃ e ∈ es, r = .err e) ∧ (platformOk s.platform = true → t = ended r s)

theorem lastEvent_of_hist {t : State} {l : List HistEntry} {h : Ifid} {e : Event} (ht : t.hist = l ++ [⟨h, e⟩]) :
    lastEvent t = some e := by
  simp [lastEvent, ht]

theorem seqOnly_refl (s : State) : SeqOnly s s := rfl

theorem SeqOnly.platform {s t : State} (h : SeqOnly s t) : t.platform = s.platform := by
  unfold SeqOnly at h
  rw [h]

/-- A platform within the constraints gives every poll a sample (00_scope.md R9). -/
theorem budget_pos {p : Platform} (hp : platformOk p = true) (c : Cond) : 0 < budget p c := by
  simp only [platformOk, Bool.and_eq_true, decide_eq_true_eq] at hp
  obtain ⟨⟨-, -, hshort, hlong⟩, -⟩ := hp
  cases c <;> simp only [budget] <;> omega

section

variable {es : List Err} {n : Count} {s s' : State}

theorem EndsIn.congr_count {n' : Count} {o : Step} (h : EndsIn es n s o) (hn : n = n') : EndsIn es n' s o := hn ▸ h

/-- More errors are allowed in a longer list. -/
theorem EndsIn.mono {es' : List Err} {o : Step} (h : EndsIn es n s o) (hs : es ⊆ es') : EndsIn es' n s o := by
  intro t r ht hl
  obtain ⟨hr, hfinish⟩ := h t r ht hl
  exact ⟨hr.imp_right fun ⟨e, he, hre⟩ => ⟨e, hs he, hre⟩, hfinish⟩

theorem endsIn_fault (r : Fault) : EndsIn es n s (.fault r) := fun _ _ h => nomatch h

/-- An outcome that records no `Done` does not end the command. -/
theorem endsIn_next {t : State} {e : Event} (hl : lastEvent t = some e) (he : ∀ r, e ≠ .done r) :
    EndsIn es n s (.next t) := by
  rintro _ r ⟨⟩ hl'
  exact absurd (Option.some.inj (hl.symm.trans hl')) (he r)

theorem endsIn_ite {c : Prop} [Decidable c] {a b : Step} (ha : EndsIn es n s a) (hb : EndsIn es n s b) :
    EndsIn es n s (if c then a else b) := by
  split
  · exact ha
  · exact hb

/-! The shared operations. -/

theorem act_endsIn {e : Event} (nxt : Upc) (he : plainEvent e = true) : EndsIn es n s (act e nxt s') :=
  endsIn_next (lastEvent_of_hist rfl) (by rintro r rfl; exact Bool.noConfusion he)

theorem sample_endsIn (c : Cond) (yes no : Upc) : EndsIn es n s (sample c yes no s') :=
  endsIn_next (lastEvent_of_hist rfl) nofun

theorem sendAddress_endsIn (dir : Bool) (nxt : Upc) : EndsIn es n s (sendAddress dir nxt s') := act_endsIn nxt rfl

theorem sendByte_endsIn (nxt : Upc) : EndsIn es n s (sendByte nxt s') := act_endsIn nxt rfl

theorem receiveByte_endsIn (nxt : Upc) : EndsIn es n s (receiveByte nxt s') :=
  endsIn_next (lastEvent_of_hist rfl) nofun

theorem loadByte_endsIn (k : Count) (nxt : Upc) : EndsIn es n s (loadByte k nxt s') :=
  endsIn_ite (endsIn_next (lastEvent_of_hist rfl) nofun) (endsIn_fault _)

theorem storeByte_endsIn (k : Count) (nxt : Upc) : EndsIn es n s (storeByte k nxt s') :=
  endsIn_ite (endsIn_next (lastEvent_of_hist rfl) nofun) (endsIn_fault _)

theorem programTiming_endsIn (nxt : Upc) : EndsIn es n s (programTiming nxt s') :=
  endsIn_next (lastEvent_of_hist rfl) nofun

/-- `finish(r)` ends the command with `r` and does nothing else. -/
theorem finish_endsIn {r : Result} (hr : r = .ok n ∨ ∃ e ∈ es, r = .err e) : EndsIn es n s (finish r s) := by
  rintro t r' ⟨⟩ hl
  have hdone : lastEvent (finished r s) = some (.done r) := lastEvent_of_hist rfl
  cases hdone.symm.trans hl
  exact ⟨hr, fun _ => rfl⟩

theorem finishOk_endsIn : EndsIn es n s (finish (.ok n) s) := finish_endsIn (.inl rfl)

theorem raise_endsIn {e : Err} (he : e ∈ es) : EndsIn es n s (raise e s) := finish_endsIn (.inr ⟨e, he, rfl⟩)

theorem poll_endsIn (c : Cond) (loop ok : Upc) {fail : State → Step} (hf : EndsIn es n s (fail s)) :
    EndsIn es n s (poll c loop ok fail s) :=
  endsIn_ite (endsIn_next (lastEvent_of_hist rfl) nofun) hf

/-- The first action of a poll is a sample where the platform keeps its constraints, so it does not end the command. -/
theorem startPoll_endsIn (c : Cond) (loop ok : Upc) {fail : State → Step} (hs : SeqOnly s s')
    (hf : ∀ s, EndsIn es n s (fail s)) : EndsIn es n s (startPoll c loop ok fail s') := by
  unfold startPoll poll
  split
  · exact endsIn_next (lastEvent_of_hist rfl) nofun
  · rename_i hnone
    intro t r ht hl
    exact ⟨(hf _ t r ht hl).1, fun hok => absurd (budget_pos (hs.platform.symm ▸ hok) c) hnone⟩

theorem checkIfid_endsIn {k : State → Step} (he : .argIfidRange ∈ es) (hk : EndsIn es n s (k s)) :
    EndsIn es n s (checkIfid k s) :=
  endsIn_ite (raise_endsIn he) hk

end

/-! The shared sub-programs, each with the errors it may end with. -/

theorem freqCheck_endsIn (n : Count) (s : State) : EndsIn [.argHzMax, .timeoutIdle] n s (freqCheck s) :=
  endsIn_ite (raise_endsIn (by decide)) (startPoll_endsIn _ _ _ (seqOnly_refl s) fun _ => raise_endsIn (by decide))

theorem setFreqBody_endsIn (s : State) : EndsIn [.argHzMax, .timeoutIdle] 0 s (setFreqBody s) := by
  unfold setFreqBody
  split
  · exact freqCheck_endsIn 0 s
  · exact poll_endsIn _ _ _ (raise_endsIn (by decide))
  · exact programTiming_endsIn _
  · exact finishOk_endsIn
  · exact endsIn_fault _

theorem stopWait_endsIn (n : Count) (s : State) : EndsIn [.timeoutStopclr] n s (stopWait s) :=
  startPoll_endsIn _ _ _ (seqOnly_refl s) fun _ => raise_endsIn (by decide)

theorem stopPhase_endsIn (n : Count) (s : State) : EndsIn [.timeoutStopclr] n s (stopPhase n s) := by
  unfold stopPhase
  split
  · exact stopWait_endsIn n s
  · exact poll_endsIn _ _ _ (raise_endsIn (by decide))
  · exact finishOk_endsIn
  · exact endsIn_fault _

theorem addressPhase_endsIn (dir : Bool) (done : Upc) (n : Count) (s : State) :
    EndsIn [.timeoutSb, .timeoutAddr, .nackAddr] n s (addressPhase dir done s) := by
  unfold addressPhase
  split
  · exact act_endsIn _ rfl
  · exact act_endsIn _ rfl
  · exact startPoll_endsIn _ _ _ (seqOnly_refl s) fun _ => raise_endsIn (by decide)
  · exact poll_endsIn _ _ _ (raise_endsIn (by decide))
  · exact sendAddress_endsIn _ _
  · exact startPoll_endsIn _ _ _ (seqOnly_refl s) fun _ => sample_endsIn _ _ _
  · exact poll_endsIn _ _ _ (sample_endsIn _ _ _)
  · exact raise_endsIn (by decide)
  · exact raise_endsIn (by decide)
  · exact endsIn_fault _

/-! DATA_OUT (42_write.md R134). Its loop test is taken in a state that differs from `s` in the sequencer's registers. -/

theorem txeFinal_endsIn {s s' : State} (hs : SeqOnly s s') (n : Count) :
    EndsIn [.timeoutTxeFinal] n s (txeFinal s') :=
  startPoll_endsIn _ _ _ hs fun _ => raise_endsIn (by decide)

theorem outTop_endsIn {s s' : State} (hs : SeqOnly s s') (n : Count) :
    EndsIn [.timeoutTxeData, .timeoutTxeFinal] n s (outTop s') :=
  endsIn_ite ((txeFinal_endsIn hs n).mono (by decide))
    (startPoll_endsIn _ _ _ hs fun _ => raise_endsIn (by decide))

theorem outShortcut_endsIn {s s' : State} (hs : SeqOnly s s') (n : Count) :
    EndsIn [.timeoutTxeFinal] n s (outShortcut s') :=
  endsIn_ite (txeFinal_endsIn hs n) (sample_endsIn _ _ _)

theorem dataOut_endsIn (s : State) :
    EndsIn [.timeoutTxeData, .timeoutTxeFinal, .timeoutStopclr, .nackAfFinal] s.cur.cmd.count s (dataOut s) := by
  unfold dataOut
  split
  · exact (outTop_endsIn (seqOnly_initTransfer s) _).mono (by decide)
  · exact poll_endsIn _ _ _ (raise_endsIn (by decide))
  · exact loadByte_endsIn _ _
  · exact sendByte_endsIn _
  · exact (outShortcut_endsIn (seqOnly_advance s) _).mono (by decide)
  · exact (outTop_endsIn (seqOnly_refl s) _).mono (by decide)
  · exact loadByte_endsIn _ _
  · exact sendByte_endsIn _
  · exact (outTop_endsIn (seqOnly_advance s) _).mono (by decide)
  · exact poll_endsIn _ _ _ (raise_endsIn (by decide))
  · exact sample_endsIn _ _ _
  · exact raise_endsIn (by decide)
  · exact endsIn_ite (act_endsIn _ rfl) finishOk_endsIn
  · exact (stopPhase_endsIn _ s).mono (by decide)

/-! The sub-protocols of READ (43_read.md R160 to R164). -/

theorem readSelect_endsIn (n : Count) (s : State) : EndsIn [] n s (readSelect s) :=
  endsIn_ite (act_endsIn _ rfl) (endsIn_ite (act_endsIn _ rfl) (act_endsIn _ rfl))

theorem read1_endsIn (n : Count) (s : State) : EndsIn [.timeoutRxne] n s (read1 s) := by
  unfold read1
  split
  · exact endsIn_ite (act_endsIn _ rfl) (act_endsIn _ rfl)
  · exact act_endsIn _ rfl
  · exact act_endsIn _ rfl
  · exact startPoll_endsIn _ _ _ (seqOnly_refl s) fun _ => raise_endsIn (by decide)
  · exact poll_endsIn _ _ _ (raise_endsIn (by decide))
  · exact receiveByte_endsIn _
  · exact storeByte_endsIn _ _
  · exact endsIn_fault _

theorem read2_endsIn (n : Count) (s : State) : EndsIn [.timeoutBtfA] n s (read2 s) := by
  unfold read2
  split
  · exact act_endsIn _ rfl
  · exact act_endsIn _ rfl
  · exact act_endsIn _ rfl
  · exact startPoll_endsIn _ _ _ (seqOnly_refl s) fun _ => raise_endsIn (by decide)
  · exact poll_endsIn _ _ _ (raise_endsIn (by decide))
  · exact endsIn_ite (act_endsIn _ rfl) (receiveByte_endsIn _)
  · exact receiveByte_endsIn _
  · exact storeByte_endsIn _ _
  · exact receiveByte_endsIn _
  · exact storeByte_endsIn _ _
  · exact endsIn_fault _

theorem readTop_endsIn {s s' : State} (hs : SeqOnly s s') (n : Count) :
    EndsIn [.timeoutRxne, .timeoutBtfA] n s (readTop s') :=
  endsIn_ite (startPoll_endsIn _ _ _ hs fun _ => raise_endsIn (by decide))
    (startPoll_endsIn _ _ _ hs fun _ => raise_endsIn (by decide))

theorem readN_endsIn (n : Count) (s : State) :
    EndsIn [.timeoutRxne, .timeoutBtfA, .timeoutBtfB] n s (readN s) := by
  unfold readN
  split
  · exact act_endsIn _ rfl
  · exact (readTop_endsIn (seqOnly_initTransfer s) n).mono (by decide)
  · exact poll_endsIn _ _ _ (raise_endsIn (by decide))
  · exact receiveByte_endsIn _
  · exact storeByte_endsIn _ _
  · exact (readTop_endsIn (seqOnly_advance s) n).mono (by decide)
  · exact poll_endsIn _ _ _ (raise_endsIn (by decide))
  · exact act_endsIn _ rfl
  · exact endsIn_ite (act_endsIn _ rfl) (receiveByte_endsIn _)
  · exact receiveByte_endsIn _
  · exact storeByte_endsIn _ _
  · exact startPoll_endsIn _ _ _ (seqOnly_advance s) fun _ => raise_endsIn (by decide)
  · exact poll_endsIn _ _ _ (raise_endsIn (by decide))
  · exact endsIn_ite (act_endsIn _ rfl) (receiveByte_endsIn _)
  · exact receiveByte_endsIn _
  · exact storeByte_endsIn _ _
  · exact receiveByte_endsIn _
  · exact storeByte_endsIn _ _
  · exact endsIn_fault _

theorem readEnd_endsIn (s : State) : EndsIn [.timeoutStopclr] s.cur.cmd.count s (readEnd s) :=
  endsIn_ite (stopWait_endsIn _ s) finishOk_endsIn

/-! The micro-programs, each with the errors of its Results line and the count its success reports. -/

theorem openStep_endsIn (s : State) : EndsIn [.argIfidRange, .argHzMax, .timeoutIdle] 0 s (openStep s) := by
  unfold openStep
  split
  · exact checkIfid_endsIn (by decide) (act_endsIn _ rfl)
  · exact act_endsIn _ rfl
  · exact act_endsIn _ rfl
  · exact (setFreqBody_endsIn s).mono (by decide)

theorem setFreqStep_endsIn (s : State) : EndsIn [.argIfidRange, .argHzMax, .timeoutIdle] 0 s (setFreqStep s) := by
  unfold setFreqStep
  split
  · exact checkIfid_endsIn (by decide) ((freqCheck_endsIn 0 s).mono (by decide))
  · exact endsIn_fault _
  · exact (setFreqBody_endsIn s).mono (by decide)

theorem closeStep_endsIn (s : State) : EndsIn [.argIfidRange, .timeoutIdle] 0 s (closeStep s) := by
  unfold closeStep
  split
  · exact checkIfid_endsIn (by decide) (startPoll_endsIn _ _ _ (seqOnly_refl s) fun _ => act_endsIn _ rfl)
  · exact poll_endsIn _ _ _ (act_endsIn _ rfl)
  · exact act_endsIn _ rfl
  · exact raise_endsIn (by decide)
  · exact finishOk_endsIn
  · exact endsIn_fault _

theorem genStopStep_endsIn (s : State) : EndsIn [.argIfidRange, .timeoutStopclr] 0 s (genStopStep s) := by
  unfold genStopStep
  split
  · exact checkIfid_endsIn (by decide) (act_endsIn _ rfl)
  · exact (stopPhase_endsIn 0 s).mono (by decide)

theorem writeStep_endsIn (s : State) :
    EndsIn [.argIfidRange, .timeoutSb, .timeoutAddr, .timeoutTxeData, .timeoutTxeFinal, .timeoutStopclr, .nackAddr,
      .nackAfFinal] s.cur.cmd.count s (writeStep s) := by
  cases hu : s.upc
  all_goals simp only [writeStep, hu]
  case entry => exact checkIfid_endsIn (by decide) (act_endsIn _ rfl)
  case wrSr1 | wrSr2 => exact act_endsIn _ rfl
  case clearAf | start | sbStart | sbPoll | addrByte | addrStart | addrPoll | afNack | afTimeout =>
    exact (addressPhase_endsIn _ _ _ s).mono (by decide)
  all_goals exact (dataOut_endsIn s).mono (by decide)

theorem writeRawStep_endsIn (s : State) :
    EndsIn [.argIfidRange, .timeoutTxeData, .timeoutTxeFinal, .timeoutStopclr, .nackAfFinal] s.cur.cmd.count s
      (writeRawStep s) := by
  unfold writeRawStep
  split
  · exact checkIfid_endsIn (by decide) ((outTop_endsIn (seqOnly_initTransfer s) _).mono (by decide))
  · exact endsIn_fault _
  · exact (dataOut_endsIn s).mono (by decide)

theorem readStep_endsIn (s : State) :
    EndsIn [.argIfidRange, .argCountZero, .timeoutSb, .timeoutAddr, .timeoutRxne, .timeoutBtfA, .timeoutBtfB,
      .timeoutStopclr, .nackAddr] s.cur.cmd.count s (readStep s) := by
  cases hu : s.upc
  all_goals simp only [readStep, hu]
  case entry => exact checkIfid_endsIn (by decide) (endsIn_ite (raise_endsIn (by decide)) (act_endsIn _ rfl))
  case setAck => exact act_endsIn _ rfl
  case rdSelect => exact (readSelect_endsIn _ s).mono (by decide)
  case readEnd => exact (readEnd_endsIn s).mono (by decide)
  case stopPoll | finishOk => exact (stopPhase_endsIn _ s).mono (by decide)
  case clearAf | start | sbStart | sbPoll | addrByte | addrStart | addrPoll | afNack | afTimeout =>
    exact (addressPhase_endsIn _ _ _ s).mono (by decide)
  case r1Stop | r1Sr1 | r1Sr2 | r1Start | r1Poll | r1Read | r1Store => exact (read1_endsIn _ s).mono (by decide)
  case r2Pos | r2Sr1 | r2Sr2 | r2Start | r2Poll | r2Stop | r2Read1 | r2Store1 | r2Read2 | r2Store2 =>
    exact (read2_endsIn _ s).mono (by decide)
  case rnSr2 | rnInit | rnPoll | rnRead | rnStore | rnNext | rnBtfAPoll | rnAckOff | rnStopA | rnReadA | rnStoreA
      | rnBtfBStart | rnBtfBPoll | rnStopB | rnReadB | rnStoreB | rnReadC | rnStoreC =>
    exact (readN_endsIn _ s).mono (by decide)
  all_goals exact endsIn_fault _

/-- A running command ends with its count or an error of its rule, by `finish` alone (40_bounded_poll.md R95 to R97). -/
theorem micro_endsIn {i : Instr} {s : State} (hi : s.cur.cmd = i) :
    EndsIn (errorsOf i) (okCount i) s (micro i s) := by
  have hcount : s.cur.cmd.count = i.count := congrArg Instr.count hi
  cases i with
  | openIf f => exact openStep_endsIn s
  | close f => exact closeStep_endsIn s
  | setFreq f => exact setFreqStep_endsIn s
  | genStop f => exact genStopStep_endsIn s
  | write f => exact (writeStep_endsIn s).congr_count hcount
  | writeRaw f => exact (writeRawStep_endsIn s).congr_count hcount
  | read f => exact (readStep_endsIn s).congr_count hcount

theorem exec_endsIn {i : Instr} {s : State} (hr : Running i s) : EndsIn (errorsOf i) (okCount i) s (exec i s) := by
  rw [exec_run hr.1 hr.2]
  exact micro_endsIn hr.2

/-- Settles O9: the word of a result is its integer, and the one `Ok` a command ends with is its count's. -/
theorem resultCodes : Obligations.ResultCodes := by
  have succeeds (i : Instr) (s t : State) (h : Ifid) (n : Count) (hr : Running i s) (ht : exec i s = .next t)
      (hist : t.hist = s.hist ++ [⟨h, .done (.ok n)⟩]) : n = okCount i := by
    obtain ⟨hok | ⟨e, -, herr⟩, -⟩ := exec_endsIn hr t (.ok n) ht (lastEvent_of_hist hist)
    · exact Result.ok.inj hok
    · exact nomatch herr
  exact ⟨fun n => toInt_encResult (.ok n), fun e => toInt_encResult (.err e), toInt_encResult _, toInt_encResult _,
    toInt_encResult _, toInt_encResult _, toInt_encResult _, toInt_encResult _, toInt_encResult _, toInt_encResult _,
    toInt_encResult _, toInt_encResult _, toInt_encResult _, toInt_encResult _, toInt_encResult _, toInt_encResult _,
    succeeds⟩

/-- Settles O11: a step of a running command is one action, and one that records `Done` is `finish`. -/
theorem finishWritesResultAndStops : Obligations.FinishWritesResultAndStops := by
  intro i s t hp hr ht
  obtain ⟨hidle, -⟩ | ⟨hrun, rfl, -, e, m⟩ := exec_cases ht
  · exact nomatch hidle.symm.trans hr.1
  · obtain ⟨hphase, hresult, hdone⟩ | ⟨r, rfl, -, -⟩ := m.done
    · exact .inr ⟨hresult, hphase.trans hrun, e, m.hist, hdone⟩
    · obtain ⟨-, hfinish⟩ := exec_endsIn hr t r ht (lastEvent_of_hist m.hist)
      cases hfinish hp
      exact .inl ⟨r, rfl, rfl⟩

end Sys2Proof.Machine
end

section
/-! The interface check at a command's entry (40_bounded_poll.md R93), and what a command does where the budget of a poll
is used up (40_bounded_poll.md R98, R99). -/

namespace Sys2Proof.Machine

theorem raise_eq_endsErr (e : Err) : raise e = endsErr e := rfl

/-! ### The interface check -/

theorem checkIfid_of_nIf_le {s : State} (h : s.platform.nIf ≤ s.cur.cmd.ifid.toNat) (k : State → Step) :
    checkIfid k s = endsErr .argIfidRange s :=
  if_pos h

/-- At its entry every micro-program begins with the interface check. -/
theorem micro_entry (i : Instr) {s : State} (hu : s.upc = .entry) : ∃ k, micro i s = checkIfid k s := by
  cases i
  all_goals
    simp only [micro, openStep, closeStep, setFreqStep, writeStep, readStep, writeRawStep, genStopStep, hu]
    exact ⟨_, rfl⟩

/-- Settles O23: the entry's check fails. -/
theorem interfaceCheckComesFirst : Obligations.InterfaceCheckComesFirst := by
  rintro i s ⟨hp, rfl⟩ hu hn
  obtain ⟨k, hk⟩ := micro_entry s.cur.cmd hu
  rw [exec_run hp rfl, hk]
  exact checkIfid_of_nIf_le hn k

/-! ### The poll loops -/

/-- What the poll at a loop point does when its budget is used up (40_bounded_poll.md R98, R99): it ends with its timeout
where it has one of its own; else CLOSE disables the peripheral, and WRITE and READ classify the address failure. -/
def pollFail (i : Instr) (u : Upc) : State → Step :=
  match pollError i u, i with
  | some e, _       => raise e
  | none, .close _  => act .pdis .closeTimeout
  | none, _         => classifyAddress

/-- At a loop point of `pollLoop` a command is that poll (40_bounded_poll.md R90). -/
theorem micro_at_pollLoop {i : Instr} {s : State} {c : Cond} {ok : Upc} (h : pollLoop i s.upc = some (c, ok)) :
    micro i s = poll c s.upc ok (pollFail i s.upc) s := by
  unfold pollLoop at h
  split at h
  case h_21 => exact nomatch h
  all_goals
    rename_i hu
    cases h
    rw [hu]
    simp only [micro, openStep, setFreqStep, setFreqBody, closeStep, writeStep, readStep, writeRawStep, genStopStep,
      addressPhase, dataOut, stopPhase, read1, read2, readN, hu]
    rfl

theorem exec_at_pollLoop_exhausted {i : Instr} {s : State} {c : Cond} {ok : Upc} (hr : Running i s)
    (h : pollLoop i s.upc = some (c, ok)) (hb : budget s.platform c ≤ s.pcnt) :
    exec i s = pollFail i s.upc s := by
  rw [exec_run hr.1 hr.2, micro_at_pollLoop h, poll, if_neg (Nat.not_lt.mpr hb)]

/-- The command addresses a slave (42_write.md R130, 43_read.md R160). -/
def Addresses (i : Instr) : Prop := ∃ f, i = .write f ∨ i = .read f

/-- The three kinds of poll, by what follows when one fails: the address poll of WRITE and READ, CLOSE's idle poll, and
every other, which has a timeout of its own. -/
theorem pollLoop_kinds {i : Instr} {u : Upc} {c : Cond} {ok : Upc} (h : pollLoop i u = some (c, ok)) :
    (c = .addr ∧ Addresses i ∧ pollFail i u = classifyAddress) ∨
    (c ≠ .addr ∧ (∃ f, i = .close f) ∧ pollFail i u = act .pdis .closeTimeout) ∨
    (c ≠ .addr ∧ (∀ f, i ≠ .close f) ∧ ∃ e, pollError i u = some e ∧ errCategory e = 2 ∧ pollFail i u = raise e) := by
  unfold pollLoop at h
  split at h
  case h_21 => exact nomatch h
  case h_3 f => cases h; exact .inr (.inl ⟨nofun, ⟨f, rfl⟩, rfl⟩)
  case h_6 f => cases h; exact .inl ⟨rfl, ⟨f, .inl rfl⟩, rfl⟩
  case h_7 f => cases h; exact .inl ⟨rfl, ⟨f, .inr rfl⟩, rfl⟩
  all_goals
    cases h
    exact .inr (.inr ⟨nofun, nofun, _, rfl, rfl, rfl⟩)

/-! ### The points after a failed poll -/

theorem micro_afNack {i : Instr} {s : State} (ha : Addresses i) (hu : s.upc = .afNack) :
    micro i s = endsErr .nackAddr s := by
  obtain ⟨f, rfl | rfl⟩ := ha
  · simp only [micro, writeStep, addressPhase, hu, raise_eq_endsErr]
  · simp only [micro, readStep, addressPhase, hu, raise_eq_endsErr]

theorem micro_afTimeout {i : Instr} {s : State} (ha : Addresses i) (hu : s.upc = .afTimeout) :
    micro i s = endsErr .timeoutAddr s := by
  obtain ⟨f, rfl | rfl⟩ := ha
  · simp only [micro, writeStep, addressPhase, hu, raise_eq_endsErr]
  · simp only [micro, readStep, addressPhase, hu, raise_eq_endsErr]

theorem micro_closeTimeout {f : Fields} {s : State} (hu : s.upc = .closeTimeout) :
    micro (.close f) s = endsErr .timeoutIdle s := by
  simp only [micro, closeStep, hu, raise_eq_endsErr]

/-- The sample of `AF` decides between NACK and TIMEOUT (40_bounded_poll.md R98). -/
theorem exec_after_classifyAddress {i : Instr} {s : State} (hr : Running i s) (ha : Addresses i) :
    let t := asked .af (if answer .af s then .afNack else .afTimeout) s
    exec i t = if answer .af s then endsErr .nackAddr t else endsErr .timeoutAddr t := by
  intro t
  rw [exec_run (s := t) hr.1 hr.2]
  split
  case isTrue hans => exact micro_afNack ha (if_pos hans)
  case isFalse hans => exact micro_afTimeout ha (if_neg hans)

/-- Settles O38: the step at a used-up budget is `pollFail`, of the three kinds of poll. -/
theorem failedPollsAreClassified : Obligations.FailedPollsAreClassified := by
  intro i s c ok hr h hb
  rw [exec_at_pollLoop_exhausted hr h hb]
  obtain ⟨rfl, ha, hfail⟩ | ⟨hc, ⟨f, rfl⟩, hfail⟩ | ⟨hc, hclose, e, he, hcat, hfail⟩ := pollLoop_kinds h
  · refine ⟨fun _ => ⟨_, congrFun hfail s, rfl, exec_after_classifyAddress hr ha⟩, fun hc => absurd rfl hc, ?_⟩
    rintro g rfl
    obtain ⟨f, hf | hf⟩ := ha <;> exact nomatch hf
  · refine ⟨fun h => absurd h hc, fun _ hclose => absurd rfl (hclose f), fun g _ => ?_⟩
    refine ⟨did .pdis .closeTimeout s, congrFun hfail s, rfl, ?_⟩
    rw [exec_run (s := did .pdis .closeTimeout s) hr.1 hr.2]
    exact micro_closeTimeout rfl
  · exact ⟨fun h => absurd h hc, fun _ _ => ⟨e, he, hcat, congrFun hfail s⟩, fun f hi => absurd hi (hclose f)⟩

end Sys2Proof.Machine
end

section
/-! The lifecycle commands point by point (41_lifecycle.md R110 to R118): each point's action is one of the statements' own
states, and an OPEN over the maximum frequency is its acceptance and four such points. -/

namespace Sys2Proof.Machine

/-! ### The shared operations in the terms of the statements -/

theorem act_eq_did (e : Event) (nxt : Upc) (s : State) : act e nxt s = .next (did e nxt s) := rfl

theorem finish_eq_ended (r : Result) (s : State) : finish r s = .next (ended r s) := rfl

theorem startPoll_eq_firstSample (c : Cond) (loop ok : Upc) (fail : State → Step) :
    startPoll c loop ok fail = firstSample c loop ok fail := rfl

/-- The interface check passes for an interface of the registry (40_bounded_poll.md R93). -/
theorem checkIfid_of_lt_nIf {i : Instr} {s : State} (hi : s.cur.cmd = i) (h : i.ifid.toNat < s.platform.nIf)
    (k : State → Step) : checkIfid k s = k s :=
  if_neg (hi ▸ Nat.not_le.mpr h)

/-- A loop point of `pollLoop` is a poll in the statements' sense (40_bounded_poll.md R90). -/
theorem pollsAt_of_pollLoop {i : Instr} {s : State} {u : Upc} {c : Cond} {ok : Upc} (hr : Running i s)
    (h : pollLoop i u = some (c, ok)) : PollsAt i s u c ok (pollFail i u) := by
  rintro rfl
  refine ⟨fun hb => ?_, exec_at_pollLoop_exhausted hr h⟩
  rw [exec_run hr.1 hr.2, micro_at_pollLoop h]
  exact if_pos hb

theorem exec_of_wellFormed {i : Instr} {s : State} (hp : s.phase = .idle) (hw : i.wellFormed s.hz s.buf = true) :
    exec i s = .next (accepted i s) := by
  rw [exec_idle i hp, accept_of_wellFormed hw]

theorem execFor_succ {i : Instr} {s t : State} (h : exec i s = .next t) (n : Nat) :
    execFor i (n + 1) s = execFor i n t := by
  simp only [execFor, h]

/-! ### SETFREQ_BODY (41_lifecycle.md R113) -/

theorem freqCheck_of_maxHz_lt {s : State} (h : s.platform.maxHz < s.cur.hz.toNat) :
    freqCheck s = endsErr .argHzMax s :=
  if_pos h

theorem freqCheck_of_le_maxHz {s : State} (h : s.cur.hz.toNat ≤ s.platform.maxHz) :
    freqCheck s = firstSample .idle .freqPoll .freqTiming (endsErr .timeoutIdle) s :=
  if_neg (Nat.not_lt.mpr h)

/-- `TIMING` records the frequency in `cfg` for its own interface only (10_state.md R29). -/
theorem programTiming_cfg (nxt : Upc) (s : State) :
    ∃ t, programTiming nxt s = .next t ∧ t = { did (.timing s.cur.hz) nxt s with cfg := t.cfg } ∧
      ∀ j : Ifid, t.cfg[j.toNat]? = if j = s.cur.cmd.ifid then some (some s.cur.hz) else s.cfg[j.toNat]? := by
  refine ⟨_, rfl, rfl, fun j => ?_⟩
  split
  case isTrue hj =>
    subst hj
    exact Vector.getElem?_setIfInBounds_self.trans (if_pos s.cur.cmd.ifid.isLt)
  case isFalse hj => exact Vector.getElem?_setIfInBounds_ne fun h => hj (BitVec.toNat_inj.mp h.symm)

section

variable {i : Instr} {s : State} (hr : Running i s) (hz : i.usesHz = true)
include hr hz

/-- The body is OPEN's and SETFREQ's, the commands that use `HZ`. -/
theorem exec_freqTiming (hu : s.upc = .freqTiming) : exec i s = programTiming .finishOk s := by
  rw [exec_run hr.1 hr.2]
  cases i with
  | openIf f => simp only [micro, openStep, setFreqBody, hu]
  | setFreq f => simp only [micro, setFreqStep, setFreqBody, hu]
  | close f | write f | read f | writeRaw f | genStop f => exact Bool.noConfusion hz

theorem exec_freq_finishOk (hu : s.upc = .finishOk) : exec i s = .next (ended (.ok 0) s) := by
  rw [exec_run hr.1 hr.2]
  cases i with
  | openIf f => simp only [micro, openStep, setFreqBody, hu, finish_eq_ended]
  | setFreq f => simp only [micro, setFreqStep, setFreqBody, hu, finish_eq_ended]
  | close f | write f | read f | writeRaw f | genStop f => exact Bool.noConfusion hz

/-- The step of the `TIMING` point: the event, and `cfg` of the command's own interface. -/
theorem exec_freqTiming_cfg (hu : s.upc = .freqTiming) :
    ∃ t, exec i s = .next t ∧ t = { did (.timing s.cur.hz) .finishOk s with cfg := t.cfg } ∧
      ∀ j : Ifid, t.cfg[j.toNat]? = if j = i.ifid then some (some s.cur.hz) else s.cfg[j.toNat]? := by
  rw [exec_freqTiming hr hz hu, ← hr.2]
  exact programTiming_cfg .finishOk s

end

/-! ### OPEN (41_lifecycle.md R110) -/

section

variable {f : Fields} {s : State} (hr : Running (.openIf f) s)
include hr

theorem exec_openIf_entry (hu : s.upc = .entry) (hn : f.ifid.toNat < s.platform.nIf) :
    exec (.openIf f) s = .next (did .clken .openReset s) := by
  rw [exec_run hr.1 hr.2]
  simp only [micro, openStep, hu]
  exact checkIfid_of_lt_nIf hr.2 hn _

theorem exec_openIf_openReset (hu : s.upc = .openReset) :
    exec (.openIf f) s = .next (did .prst .openPins s) := by
  rw [exec_run hr.1 hr.2]
  simp only [micro, openStep, hu, act_eq_did]

theorem exec_openIf_openPins (hu : s.upc = .openPins) :
    exec (.openIf f) s = .next (did .pins .freqBody s) := by
  rw [exec_run hr.1 hr.2]
  simp only [micro, openStep, hu, act_eq_did]

theorem exec_openIf_freqBody (hu : s.upc = .freqBody) : exec (.openIf f) s = freqCheck s := by
  rw [exec_run hr.1 hr.2]
  simp only [micro, openStep, setFreqBody, hu]

end

/-- Settles O24: OPEN's own points, then those of SETFREQ_BODY. -/
theorem openMicroProgram : Obligations.OpenMicroProgram := by
  intro f s hr
  exact ⟨rfl, interfaceCheckComesFirst _ s hr, exec_openIf_entry hr, exec_openIf_openReset hr, exec_openIf_openPins hr,
    fun hu hz => (exec_openIf_freqBody hr hu).trans (freqCheck_of_maxHz_lt hz),
    fun hu hz => (exec_openIf_freqBody hr hu).trans (freqCheck_of_le_maxHz hz),
    pollsAt_of_pollLoop hr rfl, exec_freqTiming_cfg hr rfl, exec_freq_finishOk hr rfl⟩

/-! ### SETFREQ (41_lifecycle.md R113) -/

theorem exec_setFreq_entry {f : Fields} {s : State} (hr : Running (.setFreq f) s) (hu : s.upc = .entry)
    (hn : f.ifid.toNat < s.platform.nIf) : exec (.setFreq f) s = freqCheck s := by
  rw [exec_run hr.1 hr.2]
  simp only [micro, setFreqStep, hu]
  exact checkIfid_of_lt_nIf hr.2 hn _

/-- Settles O25: the entry goes on with SETFREQ_BODY. -/
theorem setFreqMicroProgram : Obligations.SetFreqMicroProgram := by
  intro f s hr
  exact ⟨rfl, interfaceCheckComesFirst _ s hr,
    fun hu hn hz => (exec_setFreq_entry hr hu hn).trans (freqCheck_of_maxHz_lt hz),
    fun hu hn hz => (exec_setFreq_entry hr hu hn).trans (freqCheck_of_le_maxHz hz),
    pollsAt_of_pollLoop hr rfl, exec_freqTiming_cfg hr rfl, exec_freq_finishOk hr rfl⟩

/-! ### CLOSE (41_lifecycle.md R116) -/

section

variable {f : Fields} {s : State} (hr : Running (.close f) s)
include hr

theorem exec_close_entry (hu : s.upc = .entry) (hn : f.ifid.toNat < s.platform.nIf) :
    exec (.close f) s = firstSample .idle .closePoll .closeDisable (act .pdis .closeTimeout) s := by
  rw [exec_run hr.1 hr.2]
  simp only [micro, closeStep, hu, startPoll_eq_firstSample]
  exact checkIfid_of_lt_nIf hr.2 hn _

theorem exec_close_closeDisable (hu : s.upc = .closeDisable) :
    exec (.close f) s = .next (did .pdis .finishOk s) := by
  rw [exec_run hr.1 hr.2]
  simp only [micro, closeStep, hu, act_eq_did]

theorem exec_close_closeTimeout (hu : s.upc = .closeTimeout) : exec (.close f) s = endsErr .timeoutIdle s := by
  rw [exec_run hr.1 hr.2, micro_closeTimeout hu]

theorem exec_close_finishOk (hu : s.upc = .finishOk) : exec (.close f) s = .next (ended (.ok 0) s) := by
  rw [exec_run hr.1 hr.2]
  simp only [micro, closeStep, hu, finish_eq_ended]

end

/-- Settles O26: `PDIS` stands behind the poll's success and is the first action of its failure. -/
theorem closeMicroProgram : Obligations.CloseMicroProgram := by
  intro f s hr
  exact ⟨rfl, interfaceCheckComesFirst _ s hr, exec_close_entry hr, pollsAt_of_pollLoop hr rfl,
    exec_close_closeDisable hr, exec_close_closeTimeout hr, exec_close_finishOk hr⟩

/-! ### OPEN over the maximum frequency (41_lifecycle.md R111) -/

/-- A nonzero frequency is all a command that uses `HZ` asks of its operands (30_encoding.md R76). -/
theorem wellFormed_of_usesHz {i : Instr} {hz : Word} (hu : i.usesHz = true) (h0 : hz ≠ 0) (buf : Word) :
    i.wellFormed hz buf = true := by
  cases i with
  | openIf f | setFreq f => exact (refusedOperands_eq_none _ hz buf).mp (if_neg h0)
  | close f | write f | read f | writeRaw f | genStop f => exact Bool.noConfusion hu

/-- The interface is clocked, reset and has its pins: an accepted OPEN before its frequency check. -/
def openedPins (f : Fields) (s : State) : State :=
  did .pins .freqBody (did .prst .openPins (did .clken .openReset (accepted (.openIf f) s)))

/-- The frequency check of OPEN comes after its acceptance and three primitives. -/
theorem execFor_openIf_openedPins {f : Fields} {s : State} (hp : s.phase = .idle) (h0 : s.hz ≠ 0)
    (hn : f.ifid.toNat < s.platform.nIf) (n : Nat) :
    execFor (.openIf f) (n + 4) s = execFor (.openIf f) n (openedPins f s) := by
  have hw : (Instr.openIf f).wellFormed s.hz s.buf = true := wellFormed_of_usesHz rfl h0 s.buf
  calc execFor (.openIf f) (n + 4) s
      = execFor (.openIf f) (n + 3) (accepted (.openIf f) s) := execFor_succ (exec_of_wellFormed hp hw) _
    _ = execFor (.openIf f) (n + 2) (did .clken .openReset (accepted (.openIf f) s)) :=
        execFor_succ (exec_openIf_entry (s := accepted (.openIf f) s) ⟨rfl, rfl⟩ rfl hn) _
    _ = execFor (.openIf f) (n + 1) (did .prst .openPins (did .clken .openReset (accepted (.openIf f) s))) :=
        execFor_succ (exec_openIf_openReset ⟨rfl, rfl⟩ rfl) _
    _ = execFor (.openIf f) n (openedPins f s) := execFor_succ (exec_openIf_openPins ⟨rfl, rfl⟩ rfl) _

theorem openedPins_hist (f : Fields) (s : State) :
    (openedPins f s).hist = s.hist ++ tagged f.ifid [.accept (encode (.openIf f)), .clken, .prst, .pins] := by
  simp [openedPins, did, accepted, emit, tagged, Instr.ifid, Instr.fields]

/-- Settles O40: the frequency check fails once the three primitives are performed. -/
theorem openOverMaximumTouchesHardware : Obligations.OpenOverMaximumTouchesHardware := by
  intro f s hp hmax hn
  have h0 : s.hz ≠ 0 := fun h => Nat.not_lt_zero _ (h ▸ hmax)
  have hcheck : exec (.openIf f) (openedPins f s) = endsErr .argHzMax (openedPins f s) :=
    (exec_openIf_freqBody ⟨rfl, rfl⟩ rfl).trans (freqCheck_of_maxHz_lt hmax)
  refine ⟨ended (.err .argHzMax) (openedPins f s), ?_, ⟨rfl, rfl, ?_, rfl, rfl, rfl, rfl, rfl, rfl⟩, rfl, rfl, rfl⟩
  · rw [execFor_openIf_openedPins hp h0 hn 1, execFor_succ hcheck]
    rfl
  · simp only [ended, openedPins_hist, List.append_assoc]
    rfl

end Sys2Proof.Machine
end

section
/-! GENSTOP and the data phase of WRITE and WRITERAW point by point (42_write.md R134 to R137, R140, R145): both end in
the same wait for an asserted stop to clear. -/

namespace Sys2Proof.Machine

/-- A failed poll that has a timeout of its own ends the command with it (40_bounded_poll.md R98). -/
theorem pollFail_of_pollError {i : Instr} {u : Upc} {e : Err} (h : pollError i u = some e) :
    pollFail i u = endsErr e := by
  simp only [pollFail, h, raise_eq_endsErr]

/-- The loop point of a poll with a timeout of its own (40_bounded_poll.md R90, R98). -/
theorem pollsAt_of_pollError {i : Instr} {s : State} {u : Upc} {c : Cond} {ok : Upc} {e : Err} (hr : Running i s)
    (h : pollLoop i u = some (c, ok)) (he : pollError i u = some e) : PollsAt i s u c ok (endsErr e) :=
  pollFail_of_pollError he ▸ pollsAt_of_pollLoop hr h

/-! ### The wait for a stop (42_write.md R137, R145) -/

theorem stopPhase_stopStart {n : Count} {s : State} (hu : s.upc = .stopStart) :
    stopPhase n s = firstSample .stopclr .stopPoll .finishOk (endsErr .timeoutStopclr) s := by
  simp only [stopPhase, hu, stopWait, startPoll_eq_firstSample, raise_eq_endsErr]

theorem stopPhase_finishOk {n : Count} {s : State} (hu : s.upc = .finishOk) :
    stopPhase n s = .next (ended (.ok n) s) := by
  simp only [stopPhase, hu, finish_eq_ended]

/-! ### GENSTOP (42_write.md R145) -/

section

variable {f : Fields} {s : State} (hr : Running (.genStop f) s)
include hr

theorem exec_genStop_entry (hu : s.upc = .entry) (hn : f.ifid.toNat < s.platform.nIf) :
    exec (.genStop f) s = .next (did .stop .stopStart s) := by
  rw [exec_run hr.1 hr.2]
  simp only [micro, genStopStep, hu]
  exact checkIfid_of_lt_nIf hr.2 hn _

theorem exec_genStop_stopStart (hu : s.upc = .stopStart) :
    exec (.genStop f) s = firstSample .stopclr .stopPoll .finishOk (endsErr .timeoutStopclr) s := by
  rw [exec_run hr.1 hr.2]
  simp only [micro, genStopStep, hu]
  exact stopPhase_stopStart hu

theorem exec_genStop_finishOk (hu : s.upc = .finishOk) : exec (.genStop f) s = .next (ended (.ok 0) s) := by
  rw [exec_run hr.1 hr.2]
  simp only [micro, genStopStep, hu]
  exact stopPhase_finishOk hu

end

/-- Settles O29: the stop, then the wait for it. -/
theorem genStopMicroProgram : Obligations.GenStopMicroProgram := by
  intro f s hr
  exact ⟨rfl, interfaceCheckComesFirst _ s hr, exec_genStop_entry hr, exec_genStop_stopStart hr,
    pollsAt_of_pollError hr rfl rfl, exec_genStop_finishOk hr⟩

/-! ### The operations of DATA_OUT (42_write.md R134 to R136) -/

theorem sample_eq_asked (c : Cond) (yes no : Upc) (s : State) :
    sample c yes no s = .next (asked c (if answer c s then yes else no) s) := rfl

/-- The loop test of DATA_OUT: the final check when no byte is left, else the next byte's `TXE` poll. -/
theorem outTop_eq_ite (s : State) : outTop s = if s.rem = 0
    then firstSample .txe .txeFinalPoll .outAf (endsErr .timeoutTxeFinal) s
    else firstSample .txe .txePoll .outRead (endsErr .timeoutTxeData) s := rfl

theorem outTop_of_rem_eq_zero {s : State} (h : s.rem = 0) :
    outTop s = firstSample .txe .txeFinalPoll .outAf (endsErr .timeoutTxeFinal) s :=
  (outTop_eq_ite s).trans (if_pos h)

theorem outTop_of_rem_ne_zero {s : State} (h : s.rem ≠ 0) :
    outTop s = firstSample .txe .txePoll .outRead (endsErr .timeoutTxeData) s :=
  (outTop_eq_ite s).trans (if_neg h)

theorem outShortcut_of_rem_eq_zero {s : State} (h : s.rem = 0) :
    outShortcut s = firstSample .txe .txeFinalPoll .outAf (endsErr .timeoutTxeFinal) s :=
  if_pos h

theorem outShortcut_of_rem_ne_zero {s : State} (h : s.rem ≠ 0) :
    outShortcut s = .next (asked .btf (if answer .btf s then .outReadB else .outLoop) s) :=
  if_neg h

theorem loadByte_of_admitsRead {k : Count} {s : State} (nxt : Upc)
    (h : admitsRead s.platform (bufAddr s.cur.buf k) = true) :
    loadByte k nxt s = .next {
      did (.memRead (bufAddr s.cur.buf k) (memGet s.mem (bufAddr s.cur.buf k).toNat)) nxt s with
        dat := memGet s.mem (bufAddr s.cur.buf k).toNat } :=
  if_pos h

/-! ### DATA_OUT (42_write.md R134 to R137) -/

/-- WRITERAW has the polls of WRITE's DATA_OUT (42_write.md R140). -/
theorem writeRaw_polls_eq_write (f : Fields) {u : Upc} (hu : u ∈ outPoints) :
    pollLoop (.writeRaw f) u = pollLoop (.write f) u ∧ pollError (.writeRaw f) u = pollError (.write f) u := by
  fin_cases hu
  all_goals exact ⟨rfl, rfl⟩

section

variable {i : Instr} {f : Fields} {s : State} (hi : i = .write f ∨ i = .writeRaw f) (hr : Running i s)
include hi hr

/-- The latched command's operands are those of the WRITE or WRITERAW. -/
theorem running_dataOut_fields : s.cur.cmd.fields = f := by
  rw [hr.2]
  obtain rfl | rfl := hi <;> rfl

/-- DATA_OUT's first action is WRITE's after the address phase and WRITERAW's at its entry (42_write.md R140). -/
theorem exec_dataOut_first
    (hu : i = .write f ∧ s.upc = .outInit ∨ i = .writeRaw f ∧ s.upc = .entry ∧ f.ifid.toNat < s.platform.nIf) :
    exec i s = outTop { s with rem := f.count, idx := 0 } := by
  have hinit : initTransfer s = { s with rem := f.count, idx := 0 } := by
    rw [← running_dataOut_fields hi hr]
    rfl
  rw [exec_run hr.1 hr.2, ← hinit]
  obtain ⟨rfl, hu⟩ | ⟨rfl, hu, hn⟩ := hu
  · simp only [micro, writeStep, dataOut, hu]
  · simp only [micro, writeRawStep, hu]
    exact checkIfid_of_lt_nIf hr.2 hn _

/-- From there on both commands are DATA_OUT. -/
theorem exec_eq_dataOut {u : Upc} (hu : s.upc = u) (hmem : u ∈ outPoints) : exec i s = dataOut s := by
  subst hu
  rw [exec_run hr.1 hr.2]
  obtain rfl | rfl := hi
  · show writeStep s = dataOut s
    unfold writeStep
    split
    case h_13 => rfl
    all_goals
      rename_i hu
      exact absurd (hu ▸ hmem) (by decide)
  · show writeRawStep s = dataOut s
    unfold writeRawStep
    split
    case h_3 => rfl
    all_goals
      rename_i hu
      exact absurd (hu ▸ hmem) (by decide)

theorem exec_outRead (hu : s.upc = .outRead ∨ s.upc = .outReadB) :
    exec i s = loadByte s.idx (if s.upc = .outRead then .outSend else .outSendB) s := by
  obtain hu | hu := hu
  all_goals
    rw [exec_eq_dataOut hi hr hu (by decide)]
    simp [dataOut, hu]

theorem exec_outSend (hu : s.upc = .outSend) : exec i s = .next (did (.drWrite s.dat) .outNext s) := by
  rw [exec_eq_dataOut hi hr hu (by decide)]
  simp only [dataOut, hu, sendByte, act_eq_did]

theorem exec_outSendB (hu : s.upc = .outSendB) : exec i s = .next (did (.drWrite s.dat) .outNextB s) := by
  rw [exec_eq_dataOut hi hr hu (by decide)]
  simp only [dataOut, hu, sendByte, act_eq_did]

theorem exec_outNext (hu : s.upc = .outNext) : exec i s = outShortcut (advance s) := by
  rw [exec_eq_dataOut hi hr hu (by decide)]
  simp only [dataOut, hu]

theorem exec_outNextB (hu : s.upc = .outNextB) : exec i s = outTop (advance s) := by
  rw [exec_eq_dataOut hi hr hu (by decide)]
  simp only [dataOut, hu]

theorem exec_outLoop (hu : s.upc = .outLoop) : exec i s = outTop s := by
  rw [exec_eq_dataOut hi hr hu (by decide)]
  simp only [dataOut, hu]

/-- The last byte is sent: no BTF shortcut, the final check follows (42_write.md R135, R136). -/
theorem exec_after_last_byte (hu : s.upc = .outNext ∨ s.upc = .outNextB) (h0 : s.rem - 1 = 0) :
    exec i s = firstSample .txe .txeFinalPoll .outAf (endsErr .timeoutTxeFinal) (advance s) := by
  obtain hu | hu := hu
  · exact (exec_outNext hi hr hu).trans (outShortcut_of_rem_eq_zero h0)
  · exact (exec_outNextB hi hr hu).trans (outTop_of_rem_eq_zero h0)

theorem exec_outAf (hu : s.upc = .outAf) :
    exec i s = .next (asked .af (if answer .af s then .outNack else .outStop) s) := by
  rw [exec_eq_dataOut hi hr hu (by decide)]
  simp only [dataOut, hu, sample_eq_asked]

theorem exec_outNack (hu : s.upc = .outNack) : exec i s = endsErr .nackAfFinal s := by
  rw [exec_eq_dataOut hi hr hu (by decide)]
  simp only [dataOut, hu, raise_eq_endsErr]

theorem exec_outStop (hu : s.upc = .outStop) :
    exec i s = if f.stop then .next (did .stop .stopStart s) else .next (ended (.ok f.count) s) := by
  rw [exec_eq_dataOut hi hr hu (by decide)]
  simp only [dataOut, hu, Instr.stop, Instr.count, running_dataOut_fields hi hr, act_eq_did, finish_eq_ended]

theorem exec_dataOut_stopStart (hu : s.upc = .stopStart) :
    exec i s = firstSample .stopclr .stopPoll .finishOk (endsErr .timeoutStopclr) s := by
  rw [exec_eq_dataOut hi hr hu (by decide)]
  simp only [dataOut, hu]
  exact stopPhase_stopStart hu

theorem exec_dataOut_finishOk (hu : s.upc = .finishOk) : exec i s = .next (ended (.ok f.count) s) := by
  rw [exec_eq_dataOut hi hr hu (by decide), ← running_dataOut_fields hi hr]
  simp only [dataOut, hu]
  exact stopPhase_finishOk hu

/-- A poll of DATA_OUT, read off WRITE's tables. -/
theorem pollsAt_dataOut {u : Upc} {c : Cond} {ok : Upc} {e : Err} (hmem : u ∈ outPoints)
    (h : pollLoop (.write f) u = some (c, ok)) (he : pollError (.write f) u = some e) :
    PollsAt i s u c ok (endsErr e) := by
  obtain rfl | rfl := hi
  · exact pollsAt_of_pollError hr h he
  · obtain ⟨hloop, herr⟩ := writeRaw_polls_eq_write f hmem
    exact pollsAt_of_pollError hr (hloop.trans h) (herr.trans he)

end

/-- Settles O28: each point's action, with the loop test and the stop flag decided as the point's clause says. -/
theorem dataOutMicroProgram : Obligations.DataOutMicroProgram := by
  intro i f s hi hr
  exact ⟨fun hu => (exec_dataOut_first hi hr hu).trans (outTop_eq_ite _),
    pollsAt_dataOut hi hr (by decide) rfl rfl,
    fun hu ha => (exec_outRead hi hr hu).trans (loadByte_of_admitsRead _ ha),
    exec_outSend hi hr,
    exec_outSendB hi hr,
    fun hu h => ⟨advance s, rfl, (exec_outNext hi hr hu).trans (outShortcut_of_rem_ne_zero h)⟩,
    exec_after_last_byte hi hr,
    fun hu h => (exec_outNextB hi hr hu).trans (outTop_of_rem_ne_zero h),
    fun hu h => (exec_outLoop hi hr hu).trans (outTop_of_rem_ne_zero h),
    fun hu h => (exec_outLoop hi hr hu).trans (outTop_of_rem_eq_zero h),
    pollsAt_dataOut hi hr (by decide) rfl rfl,
    exec_outAf hi hr,
    exec_outNack hi hr,
    fun hu h => (exec_outStop hi hr hu).trans (if_pos h),
    fun hu h => (exec_outStop hi hr hu).trans (if_neg (Bool.eq_false_iff.mp h)),
    exec_dataOut_stopStart hi hr,
    pollsAt_dataOut hi hr (by decide) rfl rfl,
    exec_dataOut_finishOk hi hr⟩

end Sys2Proof.Machine
end

section
/-! READ's sub-protocols point by point (43_read.md R161 to R164). The points whose action depends on no operand stand in
tables, as the polls do in `pollLoop`; the points that choose by the count, the stop flag or `rem` follow one by one. -/

namespace Sys2Proof.Machine

/-! ### The operations of READ in the terms of the statements -/

theorem receiveByte_eq_receivedAt (nxt : Upc) (s : State) : receiveByte nxt s = .next (receivedAt nxt s) := rfl

/-- The loop test of READ_N, `while rem > 3` (43_read.md R163). -/
theorem readTop_eq_ite (s : State) : readTop s = if 3 < s.rem.toNat
    then firstSample .rxne .rnPoll .rnRead (endsErr .timeoutRxne) s
    else firstSample .btf .rnBtfAPoll .rnAckOff (endsErr .timeoutBtfA) s := rfl

theorem storeByte_of_admitsWrite {k : Count} {s : State} (nxt : Upc)
    (h : admitsWrite s.platform (bufAddr s.cur.buf k) = true) :
    storeByte k nxt s = .next {
      did (.memWrite (bufAddr s.cur.buf k) s.dat) nxt s with
        mem := memSet s.mem (bufAddr s.cur.buf k).toNat s.dat } :=
  if_pos h

/-! ### The points that perform one primitive -/

/-- The primitive of a point of READ whose action depends on no operand, and the point after it (43_read.md R161 to
R163). -/
def readPrimitive : Upc → Option (Event × Upc)
  | .r1Sr1    => some (.sr1, .r1Sr2)
  | .r1Sr2    => some (.sr2, .r1Start)
  | .r2Pos    => some (.pos true, .r2Sr1)
  | .r2Sr1    => some (.sr1, .r2Sr2)
  | .r2Sr2    => some (.sr2, .r2Start)
  | .rnSr2    => some (.sr2, .rnInit)
  | .rnAckOff => some (.ack false, .rnStopA)
  | _         => none

/-- The point after a point of READ that receives a byte and does nothing else (43_read.md R161 to R163). -/
def readReceive : Upc → Option Upc
  | .r1Read  => some .r1Store
  | .r2Read1 => some .r2Store1
  | .r2Read2 => some .r2Store2
  | .rnRead  => some .rnStore
  | .rnReadA => some .rnStoreA
  | .rnReadB => some .rnStoreB
  | _        => none

/-- The point after the store at a point of `storeIndex` (43_read.md R161 to R163). -/
def storeNext : Upc → Upc
  | .r2Store1 => .r2Read2
  | .rnStore  => .rnNext
  | .rnStoreA => .rnBtfBStart
  | .rnStoreB => .rnReadC
  | _         => .readEnd

section

variable {f : Fields} {s : State} (hr : Running (.read f) s)
include hr

theorem exec_readPrimitive {u : Upc} {e : Event} {nxt : Upc} (h : readPrimitive u = some (e, nxt)) (hu : s.upc = u) :
    exec (.read f) s = .next (did e nxt s) := by
  rw [exec_run hr.1 hr.2]
  unfold readPrimitive at h
  split at h
  case h_8 => exact nomatch h
  all_goals
    cases h
    simp only [micro, readStep, read1, read2, readN, hu, act_eq_did]

theorem exec_readReceive {u nxt : Upc} (h : readReceive u = some nxt) (hu : s.upc = u) :
    exec (.read f) s = .next (receivedAt nxt s) := by
  rw [exec_run hr.1 hr.2]
  unfold readReceive at h
  split at h
  case h_7 => exact nomatch h
  all_goals
    cases h
    simp only [micro, readStep, read1, read2, readN, hu, receiveByte_eq_receivedAt]

theorem exec_at_storeIndex {k : Count} (h : storeIndex s = some k) :
    exec (.read f) s = storeByte k (storeNext s.upc) s := by
  rw [exec_run hr.1 hr.2]
  unfold storeIndex at h
  split at h
  case h_8 => exact nomatch h
  all_goals
    rename_i hu
    cases h
    simp only [micro, readStep, read1, read2, readN, hu, storeNext]

/-- The store writes the received byte at `BUF + k` and no other (20_memory.md R52 to R54). -/
theorem storesAt_of_storeIndex {u : Upc} {k : Count} (h : storeIndex { s with upc := u } = some k) :
    StoresAt (.read f) s u k (storeNext u) := by
  rintro rfl hwf hadm
  exact ⟨_, (exec_at_storeIndex hr h).trans (storeByte_of_admitsWrite _ hadm), rfl,
    Memory.get_set_same hwf _ _, fun _ ha => memGet_memSet_ne _ _ ha⟩

/-! ### The choice of the sub-protocol (43_read.md R160) -/

theorem exec_rdSelect (hu : s.upc = .rdSelect) : exec (.read f) s =
    if f.count = 1 then .next (did (.ack false) .r1Stop s)
    else if f.count = 2 then .next (did (.ack false) .r2Pos s)
    else .next (did .sr1 .rnSr2 s) := by
  rw [exec_run hr.1 hr.2]
  simp only [micro, readStep, hu, readSelect, hr.2, Instr.count, Instr.fields, act_eq_did]

/-! ### READ_1 (43_read.md R161) -/

theorem exec_r1Stop (hu : s.upc = .r1Stop) : exec (.read f) s =
    if f.stop then .next (did .stop .r1Sr1 s) else .next (did .sr1 .r1Sr2 s) := by
  rw [exec_run hr.1 hr.2]
  simp only [micro, readStep, read1, hu, hr.2, Instr.stop, Instr.fields, act_eq_did]

theorem exec_r1Start (hu : s.upc = .r1Start) :
    exec (.read f) s = firstSample .rxne .r1Poll .r1Read (endsErr .timeoutRxne) s := by
  rw [exec_run hr.1 hr.2]
  simp only [micro, readStep, read1, hu, startPoll_eq_firstSample, raise_eq_endsErr]

/-! ### READ_2 (43_read.md R162) -/

theorem exec_r2Start (hu : s.upc = .r2Start) :
    exec (.read f) s = firstSample .btf .r2Poll .r2Stop (endsErr .timeoutBtfA) s := by
  rw [exec_run hr.1 hr.2]
  simp only [micro, readStep, read2, hu, startPoll_eq_firstSample, raise_eq_endsErr]

theorem exec_r2Stop (hu : s.upc = .r2Stop) : exec (.read f) s =
    if f.stop then .next (did .stop .r2Read1 s) else .next (receivedAt .r2Store1 s) := by
  rw [exec_run hr.1 hr.2]
  simp only [micro, readStep, read2, hu, hr.2, Instr.stop, Instr.fields, act_eq_did, receiveByte_eq_receivedAt]

/-! ### READ_N (43_read.md R163) -/

theorem exec_rnInit (hu : s.upc = .rnInit) : exec (.read f) s = readTop { s with rem := f.count, idx := 0 } := by
  rw [exec_run hr.1 hr.2]
  simp only [micro, readStep, readN, hu, initTransfer, hr.2, Instr.count, Instr.fields]

theorem exec_rnNext (hu : s.upc = .rnNext) : exec (.read f) s = readTop (advance s) := by
  rw [exec_run hr.1 hr.2]
  simp only [micro, readStep, readN, hu]

theorem exec_rnStopA (hu : s.upc = .rnStopA) : exec (.read f) s =
    if f.stop = true ∧ s.platform.read3Stop = .afterAckOff then .next (did .stop .rnReadA s)
    else .next (receivedAt .rnStoreA s) := by
  rw [exec_run hr.1 hr.2]
  simp only [micro, readStep, readN, hu, hr.2, Instr.stop, Instr.fields, act_eq_did, receiveByte_eq_receivedAt]

theorem exec_rnBtfBStart (hu : s.upc = .rnBtfBStart) :
    exec (.read f) s = firstSample .btf .rnBtfBPoll .rnStopB (endsErr .timeoutBtfB) (advance s) := by
  rw [exec_run hr.1 hr.2]
  simp only [micro, readStep, readN, hu, startPoll_eq_firstSample, raise_eq_endsErr]

theorem exec_rnStopB (hu : s.upc = .rnStopB) : exec (.read f) s =
    if f.stop = true ∧ s.platform.read3Stop = .afterBtfB then .next (did .stop .rnReadB s)
    else .next (receivedAt .rnStoreB s) := by
  rw [exec_run hr.1 hr.2]
  simp only [micro, readStep, readN, hu, hr.2, Instr.stop, Instr.fields, act_eq_did, receiveByte_eq_receivedAt]

theorem exec_rnReadC (hu : s.upc = .rnReadC) :
    exec (.read f) s = .next (receivedAt .rnStoreC (advance s)) := by
  rw [exec_run hr.1 hr.2]
  simp only [micro, readStep, readN, hu, receiveByte_eq_receivedAt]

/-! ### READ_END (43_read.md R164) -/

theorem exec_readEnd (hu : s.upc = .readEnd) : exec (.read f) s =
    if f.stop then firstSample .stopclr .stopPoll .finishOk (endsErr .timeoutStopclr) s
    else .next (ended (.ok f.count) s) := by
  rw [exec_run hr.1 hr.2]
  simp only [micro, readStep, hu, readEnd, stopWait, hr.2, Instr.stop, Instr.count, Instr.fields,
    startPoll_eq_firstSample, raise_eq_endsErr, finish_eq_ended]

theorem exec_read_finishOk (hu : s.upc = .finishOk) : exec (.read f) s = .next (ended (.ok f.count) s) := by
  rw [exec_run hr.1 hr.2]
  simp only [micro, readStep, hu, hr.2, Instr.count, Instr.fields]
  exact stopPhase_finishOk hu

end

/-- Settles O31: stop is armed before the address condition is cleared, and the one store is at `BUF + 0`. -/
theorem readOneMicroProgram : Obligations.ReadOneMicroProgram := by
  intro f s hr
  exact ⟨fun hu h1 => (exec_rdSelect hr hu).trans (if_pos h1),
    fun hu h => (exec_r1Stop hr hu).trans (if_pos h),
    fun hu h => (exec_r1Stop hr hu).trans (if_neg (Bool.eq_false_iff.mp h)),
    exec_readPrimitive hr rfl,
    exec_readPrimitive hr rfl,
    exec_r1Start hr,
    pollsAt_of_pollError hr rfl rfl,
    exec_readReceive hr rfl,
    storesAt_of_storeIndex hr rfl⟩

/-- Settles O32: one BTF poll, then both bytes, stored at `BUF + 0` and `BUF + 1`. -/
theorem readTwoMicroProgram : Obligations.ReadTwoMicroProgram := by
  intro f s hr
  exact ⟨fun hu h2 => (exec_rdSelect hr hu).trans ((if_neg (by rw [h2]; decide)).trans (if_pos h2)),
    exec_readPrimitive hr rfl,
    exec_readPrimitive hr rfl,
    exec_readPrimitive hr rfl,
    exec_r2Start hr,
    pollsAt_of_pollError hr rfl rfl,
    fun hu h => (exec_r2Stop hr hu).trans (if_pos h),
    fun hu h => (exec_r2Stop hr hu).trans (if_neg (Bool.eq_false_iff.mp h)),
    exec_readReceive hr rfl,
    storesAt_of_storeIndex hr rfl,
    exec_readReceive hr rfl,
    storesAt_of_storeIndex hr rfl⟩

/-- Settles O33: the loop test `readTop` is reached from the start of the transfer and from each stored byte; the stop
point decides which of the two BTF waits the stop follows. -/
theorem readManyMicroProgram : Obligations.ReadManyMicroProgram := by
  intro f s hr
  exact ⟨fun hu h1 h2 => (exec_rdSelect hr hu).trans ((if_neg h1).trans (if_neg h2)),
    exec_readPrimitive hr rfl,
    fun hu => ⟨_, rfl, (exec_rnInit hr hu).trans (readTop_eq_ite _)⟩,
    pollsAt_of_pollError hr rfl rfl,
    exec_readReceive hr rfl,
    storesAt_of_storeIndex hr rfl,
    fun hu => ⟨advance s, rfl, (exec_rnNext hr hu).trans (readTop_eq_ite _)⟩,
    pollsAt_of_pollError hr rfl rfl,
    exec_readPrimitive hr rfl,
    exec_rnStopA hr,
    exec_readReceive hr rfl,
    storesAt_of_storeIndex hr rfl,
    exec_rnBtfBStart hr,
    pollsAt_of_pollError hr rfl rfl,
    exec_rnStopB hr,
    exec_readReceive hr rfl,
    storesAt_of_storeIndex hr rfl,
    exec_rnReadC hr,
    storesAt_of_storeIndex hr rfl⟩

/-- Settles O34: the stop flag decides between the poll and the end. -/
theorem readEndMicroProgram : Obligations.ReadEndMicroProgram := by
  intro f s hr
  exact ⟨fun hu h => (exec_readEnd hr hu).trans (if_pos h),
    fun hu h => (exec_readEnd hr hu).trans (if_neg (Bool.eq_false_iff.mp h)),
    pollsAt_of_pollError hr rfl rfl,
    exec_read_finishOk hr⟩

end Sys2Proof.Machine
end

section
/-! The command word and its command determine each other (30_encoding.md R70, R71, R80). -/

namespace Sys2Proof

/-- Settles O1: a packed word has bit 11 clear, its command's `OP` and its command's fields. -/
theorem decodeOfEncodeIsTheCommand : Obligations.DecodeOfEncodeIsTheCommand := fun i =>
  decode_eq_ok_iff.mpr ⟨reservedBit_packWord i.fields (opcode i), opField_packWord i.fields (opcode i),
    operandFields_packWord i.fields (opcode i)⟩

/-- A bit of an extracted field is a bit of the word. -/
theorem getLsbD_of_extractLsb'_eq {w v : Word} {start len k : Nat} (h : w.extractLsb' start len = v.extractLsb' start len)
    (hlo : start ≤ k) (hhi : k < start + len) : w.getLsbD k = v.getLsbD k := by
  have hbit := congrArg (fun x => x.getLsbD (k - start)) h
  simpa [BitVec.getLsbD_extractLsb', show k - start < len by omega, Nat.add_sub_cancel' hlo] using hbit

/-- `OP`, the operand fields and bit 11 are all the bits of a word (30_encoding.md R70). -/
theorem word_ext {w v : Word} (hop : opField w = opField v) (hf : operandFields w = operandFields v)
    (h11 : w[11] = v[11]) : w = v := by
  obtain ⟨hstop, haddr, hifid, hcount⟩ := Fields.mk.inj hf
  refine BitVec.eq_of_getLsbD_eq fun k hk => ?_
  obtain hk3 | rfl | hk11 | rfl | hk16 | hk32 : k < 3 ∨ k = 3 ∨ (4 ≤ k ∧ k < 11) ∨ k = 11 ∨ (12 ≤ k ∧ k < 16) ∨ 16 ≤ k := by
    omega
  · exact getLsbD_of_extractLsb'_eq hop (Nat.zero_le k) (by omega)
  · exact hstop
  · exact getLsbD_of_extractLsb'_eq haddr hk11.1 (by omega)
  · exact h11
  · exact getLsbD_of_extractLsb'_eq hifid hk16.1 (by omega)
  · exact getLsbD_of_extractLsb'_eq hcount hk32 (by omega)

/-- Settles O2: an accepted word and the word of its command agree on `OP`, the fields and bit 11. -/
theorem encodeOfDecodeIsTheWord : Obligations.EncodeOfDecodeIsTheWord := by
  intro w i h
  obtain ⟨h11, hop, hf⟩ := decode_eq_ok_iff.mp h
  refine word_ext ?_ ?_ ?_
  · rw [encode, opField_packWord, hop]
  · rw [encode, operandFields_packWord, hf]
  · rw [encode, reservedBit_packWord, h11]
/-- Settles O4: each word is decoded. -/
theorem specWordsDecode : Obligations.SpecWordsDecode := ⟨rfl, rfl, rfl, rfl, rfl, rfl, rfl, rfl⟩

end Sys2Proof
end

section
/-! The host's side (10_state.md R21 to R26, 20_memory.md R56 to R61, 30_encoding.md R81, R82, 70_reset_and_hazards.md R220):
what each host action makes of the state, on a platform that keeps its constraints. -/

namespace Sys2Proof.Machine

/-! ### Whose turn it is -/

section

variable {s : State} (hp : platformOk s.platform = true)
include hp

/-- A step with host actions left is the first of them. -/
theorem step_of_host {op : HostOp} {rest : List HostOp} (hh : s.host = op :: rest) :
    step s = hostAction op { s with host := rest } := by
  simp only [step, hp, if_true, turn, hh]

theorem step_of_host_nil (hh : s.host = []) : step s = engineTurn s := by
  simp only [step, hp, if_true, turn, hh]

/-- An aligned word store to the register block writes the register at its offset (20_memory.md R56). -/
theorem step_regStore_of_aligned {a v : Word} {rest : List HostOp} (ha : regOffset s.platform a % 4 = 0)
    (hh : s.host = .regStore a 4 v :: rest) :
    step s = regWrite (regOffset s.platform a) v { s with host := rest } := by
  rw [step_of_host hp hh]
  exact if_pos (by simp [regAccessOk, ha])

/-- An aligned word load of the register block loads the register at its offset (20_memory.md R56). -/
theorem step_regLoad_of_aligned {a : Word} {rest : List HostOp} (ha : regOffset s.platform a % 4 = 0)
    (hh : s.host = .regLoad a 4 :: rest) :
    step s = .next { s with host := rest, hostVal := regRead (regOffset s.platform a) { s with host := rest } } := by
  rw [step_of_host hp hh]
  exact if_pos (by simp [regAccessOk, ha])

end

theorem engineTurn_run {s : State} {i : Instr} (hr : Running i s) : engineTurn s = exec i s := by
  simp only [engineTurn, hr.1, hr.2]

theorem engineTurn_idle {s : State} (h : s.phase = .idle) : engineTurn s = .next s := by
  simp only [engineTurn, h]

/-- A waiting host puts its wait back and gives the turn to the running command. -/
theorem hostAction_await {s : State} {i : Instr} {rest : List HostOp} (hr : Running i s) (hh : s.host = .await :: rest) :
    hostAction .await { s with host := rest } = exec i s := by
  have hs : { s with host := .await :: rest } = s := by rw [← hh]
  calc hostAction .await { s with host := rest }
      = engineTurn { s with host := .await :: rest } := by simp only [hostAction, hr.1]
    _ = exec i s := by rw [hs, engineTurn_run hr]

/-! ### The register block (10_state.md R21) -/

/-- The offsets of `CMD` and of no register read 0. -/
theorem regRead_unlisted {off : Nat} {s : State} (h : off = offCmd ∨ offStatus < off) : regRead off s = 0 := by
  have hz : off ≠ offHz := by simp only [offCmd, offStatus, offHz] at *; omega
  have hb : off ≠ offBuf := by simp only [offCmd, offStatus, offBuf] at *; omega
  have hr : off ≠ offResult := by simp only [offCmd, offStatus, offResult] at *; omega
  have hs : off ≠ offStatus := by simp only [offCmd, offStatus] at *; omega
  simp only [regRead, hz, hb, hr, hs, if_false]

theorem status_idle {s : State} (h : s.phase = .idle) : status s = 0 := by
  simp only [status, h]

theorem status_run {s : State} (h : s.phase = .run) : status s = 1 := by
  simp only [status, h]

/-- A store to a register that is neither `CMD`, `HZ` nor `BUF` is ignored. -/
theorem regWrite_ignored {off : Nat} {v : Word} {s : State} (h : off = offResult ∨ offStatus ≤ off) :
    regWrite off v s = .next s := by
  have hc : off ≠ offCmd := by simp only [offCmd, offStatus, offResult] at *; omega
  have hz : off ≠ offHz := by simp only [offResult, offStatus, offHz] at *; omega
  have hb : off ≠ offBuf := by simp only [offResult, offStatus, offBuf] at *; omega
  simp only [regWrite, hc, hz, hb, if_false]

/-- Settles O13: an aligned access is `regRead` or `regWrite` at the register's offset. -/
theorem registerBlockLoadsAndStores : Obligations.RegisterBlockLoadsAndStores := by
  intro s a v rest hp ha
  refine ⟨fun hh => ?_, fun hh => ?_⟩
  · rw [step_regLoad_of_aligned hp ha hh]
    refine ⟨?_, ?_, ?_, ?_, ?_, ?_, ?_⟩
    · intro ho
      rw [regRead_unlisted (.inl ho)]
    · intro ho
      rw [ho]
      rfl
    · intro ho
      rw [ho]
      rfl
    · intro ho
      rw [ho]
      rfl
    · intro ho hi
      rw [ho, ← status_idle hi]
      rfl
    · intro ho hr
      rw [ho, ← status_run hr]
      rfl
    · intro ho
      rw [regRead_unlisted (.inr ho)]
  · rw [step_regStore_of_aligned hp ha hh]
    refine ⟨?_, ?_, regWrite_ignored⟩
    · intro ho
      rw [ho]
      rfl
    · intro ho
      rw [ho]
      rfl

/-- Settles O15: the store reaches `CMD`, which looks at BUSY before the word. -/
theorem commandWhileBusyFaults : Obligations.CommandWhileBusyFaults := by
  intro s a w rest hp hrun ha hh
  rw [step_regStore_of_aligned hp (by rw [ha]) hh, ha]
  simp only [regWrite, offCmd, if_true, cmdWrite, hrun]

/-- Settles O17: the access check comes before the register. -/
theorem registerAccessesAreAlignedWords : Obligations.RegisterAccessesAreAlignedWords := by
  intro s a v size rest hp hbad hh
  have hno : ¬ regAccessOk s.platform a size = true := by
    simp only [regAccessOk, Bool.and_eq_true, decide_eq_true_eq]
    exact fun h => hbad.elim (absurd h.1) (absurd h.2)
  obtain hh | hh := hh
  · rw [step_of_host hp hh]
    exact if_neg hno
  · rw [step_of_host hp hh]
    exact if_neg hno

/-! ### Host memory (20_memory.md R60, R61) -/

/-- The host's access races exactly when a command runs and the byte is of its buffer. -/
theorem races_iff {a : Word} {s : State} : races a s = true ↔ s.phase = .run ∧ inBuffer s.cur a = true := by
  cases h : s.phase <;> simp [races, h]

theorem inBuffer_iff {c : Cur} {a : Word} : inBuffer c a = true ↔
    c.cmd.usesBuf = true ∧ c.buf.toNat ≤ a.toNat ∧ a.toNat < c.buf.toNat + c.cmd.count.toNat := by
  simp only [inBuffer, Bool.and_eq_true, decide_eq_true_eq, and_assoc]

/-- Settles O16: the race check comes first, then the admission, then memory's own laws. -/
theorem hostMemoryAccessAndRace : Obligations.HostMemoryAccessAndRace := by
  intro s a v rest hp
  refine ⟨fun hrun hu hlo hhi => ?_, fun hfree => ?_⟩
  · have hrace : races a { s with host := rest } = true := races_iff.mpr ⟨hrun, inBuffer_iff.mpr ⟨hu, hlo, hhi⟩⟩
    refine ⟨fun hh => ?_, fun hh => ?_⟩
    · rw [step_of_host hp hh]
      exact if_pos hrace
    · rw [step_of_host hp hh]
      exact if_pos hrace
  · have hrace : ¬ races a { s with host := rest } = true := by
      rw [races_iff, inBuffer_iff]
      rintro ⟨hrun, hu, hlo, hhi⟩
      exact absurd hhi (Nat.not_lt.mpr (hfree hrun hu hlo))
    refine ⟨fun hh hadm => ?_, fun hh hadm hwf => ?_⟩
    · rw [step_of_host hp hh]
      exact (if_neg hrace).trans (if_pos hadm)
    · rw [step_of_host hp hh]
      exact ⟨_, (if_neg hrace).trans (if_pos hadm), rfl, Memory.get_set_same hwf _ _,
        fun b hb => memGet_memSet_ne _ _ hb⟩

/-! ### Reset, turns and acceptance -/

/-- Settles O18: the host action is `engineReset`, whose fields are those of the reset state. -/
theorem engineResetEndsTheCommand : Obligations.EngineResetEndsTheCommand := by
  intro s rest hp hh
  exact ⟨engineReset { s with host := rest }, step_of_host hp hh, rfl, rfl, rfl, rfl, rfl,
    fun i => Vector.getElem?_replicate_of_lt i.isLt, rfl, rfl, rfl⟩

theorem cmdWrite_eq_exec {w : Word} {i : Instr} {s : State} (hi : s.phase = .idle) (hd : decode w = .ok i) :
    cmdWrite w s = exec i s := by
  rw [cmdWrite_of_decode_ok hi hd, exec_idle i hi]

/-- Settles O19: the store reaches `CMD`; a turn, a wait and an empty list give the engine its turn. -/
theorem stepRunsTheDecodedCommand : Obligations.StepRunsTheDecodedCommand := by
  intro s hp
  refine ⟨fun a w i rest hh ha hi hd => ?_, fun i hr hh => ?_, fun i rest hr hh => ?_, fun i rest hr hh => ?_,
    fun hi hh => ?_⟩
  · rw [step_regStore_of_aligned hp (by rw [ha]) hh, ha]
    exact cmdWrite_eq_exec hi hd
  · rw [step_of_host_nil hp hh, engineTurn_run hr]
  · rw [step_of_host hp hh]
    exact engineTurn_run hr
  · rw [step_of_host hp hh]
    exact hostAction_await hr hh
  · rw [step_of_host_nil hp hh, engineTurn_idle hi]

/-- Settles O22: acceptance of operands that have a meaning. -/
theorem acceptanceIsOneStep : Obligations.AcceptanceIsOneStep := fun _ _ hi hw => exec_of_wellFormed hi hw

/-! ### The host sequences (30_encoding.md R81, R82) -/

theorem stepFor_succ {s t : State} (h : step s = .next t) (n : Nat) : stepFor (n + 1) s = stepFor n t := by
  simp only [stepFor, h]

theorem stepFor_one (s : State) : stepFor 1 s = step s := by
  simp only [stepFor]
  split <;> rename_i h <;> rw [h]

/-- `step_regStore` for a state whose list is written out. -/
theorem step_withHost_regStore {s : State} (hp : platformOk s.platform = true) {off : Nat} (h : off < 2 ^ 32)
    (h4 : off % 4 = 0) (v : Word) (rest : List HostOp) :
    step { s with host := .regStore (regAddr s.platform off) 4 v :: rest } = regWrite off v { s with host := rest } :=
  step_regStore (s := { s with host := .regStore (regAddr s.platform off) 4 v :: rest }) hp rfl h h4

/-- The store of `HZ` takes a step where the command uses the register, and none where it does not. -/
theorem stepFor_storeHz {s : State} (hp : platformOk s.platform = true) (used : Bool) (v : Word) (rest : List HostOp)
    (n : Nat) :
    stepFor ((if used then 1 else 0) + n)
      { s with host := (if used then [.regStore (regAddr s.platform offHz) 4 v] else []) ++ rest } =
    stepFor n { s with hz := if used then v else s.hz, host := rest } := by
  cases used with
  | false => rw [if_neg Bool.false_ne_true, Nat.zero_add]; rfl
  | true =>
    rw [if_pos rfl, Nat.add_comm]
    exact stepFor_succ (step_withHost_regStore hp (off := offHz) (by decide) rfl v rest) n

/-- So does the store of `BUF`. -/
theorem stepFor_storeBuf {s : State} (hp : platformOk s.platform = true) (used : Bool) (v : Word) (rest : List HostOp)
    (n : Nat) :
    stepFor ((if used then 1 else 0) + n)
      { s with host := (if used then [.regStore (regAddr s.platform offBuf) 4 v] else []) ++ rest } =
    stepFor n { s with buf := if used then v else s.buf, host := rest } := by
  cases used with
  | false => rw [if_neg Bool.false_ne_true, Nat.zero_add]; rfl
  | true =>
    rw [if_pos rfl, Nat.add_comm]
    exact stepFor_succ (step_withHost_regStore hp (off := offBuf) (by decide) rfl v rest) n

/-- The store of a command word in IDLE is the acceptance of its command (30_encoding.md R70, 10_state.md R26). -/
theorem step_storeCmd {s : State} (hp : platformOk s.platform = true) (hi : s.phase = .idle) (i : Instr)
    (rest : List HostOp) :
    step { s with host := .regStore (regAddr s.platform offCmd) 4 (encode i) :: rest } = exec i { s with host := rest } :=
  (step_withHost_regStore hp (off := offCmd) (by decide) rfl _ rest).trans
    (cmdWrite_eq_exec (s := { s with host := rest }) hi (decodeOfEncodeIsTheCommand i))

/-- CALL up to its command: the operand registers are stored, then the command word, whose store is the command's
acceptance (30_encoding.md R81). -/
theorem stepFor_call {s : State} {i : Instr} {hz buf : Word} {rest : List HostOp} (hp : platformOk s.platform = true)
    (hi : s.phase = .idle) (hh : s.host = callOps s.platform i hz buf ++ rest) :
    stepFor ((if i.usesHz then 1 else 0) + (if i.usesBuf then 1 else 0) + 1) s = exec i { s with
      hz := if i.usesHz then hz else s.hz, buf := if i.usesBuf then buf else s.buf,
      host := .await :: .regLoad (regAddr s.platform offResult) 4 :: rest } := by
  have hs : s = { s with host := callOps s.platform i hz buf ++ rest } := by rw [← hh]
  rw [hs, callOps, List.append_assoc, List.append_assoc, Nat.add_assoc]
  refine (stepFor_storeHz hp i.usesHz hz _ _).trans ?_
  refine (stepFor_storeBuf (s := { s with hz := if i.usesHz then hz else s.hz }) hp i.usesBuf buf _ _).trans ?_
  exact (stepFor_one _).trans (step_storeCmd (s := { s with
    hz := if i.usesHz then hz else s.hz, buf := if i.usesBuf then buf else s.buf }) hp hi i _)

/-- The sign of the loaded result decides the skip of WRREAD (30_encoding.md R82). -/
theorem step_skipIfNeg {s : State} {k : Nat} {rest : List HostOp} (hp : platformOk s.platform = true)
    (hh : s.host = .skipIfNeg k :: rest) :
    step s = .next { s with host := if s.hostVal.toInt < 0 then rest.drop k else rest } := by
  rw [step_of_host hp hh]
  simp only [hostAction, BitVec.msb_eq_toInt, decide_eq_true_eq]
  split <;> rfl

/-- Settles O20: a call's stores, the end of a wait and the load of RESULT; the skip's length is that of the READ's
call. -/
theorem hostSequencesWaitAndSkip : Obligations.HostSequencesWaitAndSkip := by
  refine ⟨fun s i hz buf rest => stepFor_call, fun s rest hp => ⟨fun hi hh => ?_, fun hh => ?_⟩,
    fun p j a reg buf n => ⟨_, rfl, fun s rest hp hh => ?_⟩, fun _ _ _ _ => rfl⟩
  · rw [step_of_host hp hh]
    simp only [hostAction, hi, status]
  · exact step_regLoad hp hh (by decide) (by decide)
  · rw [step_skipIfNeg hp hh]
    exact ⟨fun hneg => by rw [if_pos hneg, List.drop_left], fun hpos => by rw [if_neg (Int.not_lt.mpr hpos)]⟩

/-! ### The constraints on the platform (00_scope.md R9, 20_memory.md R67) -/

/-- The rows of a registry are apart pairwise when the rows at any two indices are. -/
theorem pairwise_apart_iff (l : List Descriptor) : (l.Pairwise fun d e => apart d e = true) ↔
    ∀ (a b : Nat), a < b → ∀ (x y : Descriptor), l[a]? = some x → l[b]? = some y → apart x y = true := by
  rw [List.pairwise_iff_getElem]
  refine ⟨fun h a b hab x y hx hy => ?_, fun h a b ha hb hab => ?_⟩
  · obtain ⟨ha, rfl⟩ := List.getElem?_eq_some_iff.mp hx
    obtain ⟨hb, rfl⟩ := List.getElem?_eq_some_iff.mp hy
    exact h a b ha hb hab
  · exact h a b hab _ _ (List.getElem?_eq_getElem ha) (List.getElem?_eq_getElem hb)

/-- Settles O21: every step checks the platform, and the check is the constraints, with rows compared by index. -/
theorem platformConstraints : Obligations.PlatformConstraints := by
  refine ⟨fun s hbad => by simp only [step, hbad, Bool.false_eq_true, if_false], fun p => ?_⟩
  simp only [platformOk, Bool.and_eq_true, decide_eq_true_eq, pairwise_apart_iff]
  simp only [apart_iff, and_assoc]
  rfl

end Sys2Proof.Machine
end

section
/-! What follows from one action a step (10_state.md R24 to R29, R35): the frame of a running command, what the history
records, and the isolation of interfaces (20_memory.md R67). -/

namespace Sys2Proof.Machine

/-- Settles O10: with which errors a micro-program ends. -/
theorem errorsAreThoseOfTheCommand : Obligations.ErrorsAreThoseOfTheCommand := by
  intro i s t h e hr ht hist
  obtain ⟨hok | ⟨e', he', herr⟩, -⟩ := exec_endsIn hr t (.err e) ht (lastEvent_of_hist hist)
  · exact nomatch hok
  · exact Result.err.inj herr ▸ he'

/-- Settles O36: the points that read and store a byte are `loadByte` and `storeByte`, which ask for the admission. -/
theorem refusedMemoryAccessIsStuck : Obligations.RefusedMemoryAccessIsStuck := by
  refine ⟨fun i f s hi hr hu hadm => ?_, fun f s k hr hk hadm => ?_⟩
  · rw [exec_outRead hi hr hu]
    exact if_neg (Bool.eq_false_iff.mp hadm)
  · rw [exec_at_storeIndex hr hk]
    exact if_neg (Bool.eq_false_iff.mp hadm)

/-- A step of a running command is one action. -/
theorem exec_moves {i : Instr} {s t : State} (hr : Running i s) (h : exec i s = .next t) : ∃ e, Moves s t e := by
  obtain ⟨hidle, -⟩ | ⟨-, -, -, hm⟩ := exec_cases h
  · exact nomatch hidle.symm.trans hr.1
  · exact hm

/-- Settles O48: the frame of one action. -/
theorem eachStepIsOneEventOfTheCommand : Obligations.EachStepIsOneEventOfTheCommand := by
  intro i s t hr h
  obtain ⟨e, m⟩ := exec_moves hr h
  exact ⟨⟨m.hz, m.buf, m.platform, m.host, m.hostVal, m.seed⟩, m.cur, ⟨e, hr.2 ▸ m.hist⟩,
    m.bits.imp .symm fun hb => hb.2.symm, m.bytes.imp .symm fun hb => hb.2.symm⟩

/-! ### The history -/

/-- The last event is the last to write. -/
theorem lastWritten_append_singleton {α : Type} (f : Event → Option α) (i : Ifid) (l : List HistEntry) (x : HistEntry) :
    lastWritten f i (l ++ [x]) = (if x.ifid = i then f x.ev else none).or (lastWritten f i l) := by
  induction l with
  | nil => simp [lastWritten]
  | cons y l ih => simp only [List.cons_append, lastWritten, ih, Option.or_assoc]

/-- An event of another interface, or one that writes nothing, leaves the last value. -/
theorem lastWritten_append_of_none {α : Type} {f : Event → Option α} {i : Ifid} {x : HistEntry}
    (h : x.ifid = i → f x.ev = none) (l : List HistEntry) : lastWritten f i (l ++ [x]) = lastWritten f i l := by
  rw [lastWritten_append_singleton, show (if x.ifid = i then f x.ev else none) = none from ite_eq_right_iff.mpr h,
    Option.none_or]

/-- An event of the interface that writes gives the last value. -/
theorem lastWritten_append_of_some {α : Type} {f : Event → Option α} {i : Ifid} {e : Event} {a : α} (h : f e = some a)
    (l : List HistEntry) : lastWritten f i (l ++ [⟨i, e⟩]) = some a := by
  rw [lastWritten_append_singleton, if_pos rfl, h, Option.some_or]

theorem lastDone_append_done (l : List HistEntry) (j : Ifid) (r : Result) : lastDone (l ++ [⟨j, .done r⟩]) = some r := by
  induction l with
  | nil => rfl
  | cons y l ih => simp only [List.cons_append, lastDone, ih, Option.some_or]

theorem lastDone_append_of_ne_done {e : Event} (h : ∀ r, e ≠ .done r) (l : List HistEntry) (j : Ifid) :
    lastDone (l ++ [⟨j, e⟩]) = lastDone l := by
  induction l with
  | nil =>
    cases e with
    | done r => exact absurd rfl (h r)
    | _ => rfl
  | cons y l ih => simp only [List.cons_append, lastDone, ih]

theorem timingWritten_eq_none {e : Event} (h : ∀ hz, e ≠ .timing hz) : timingWritten e = none := by
  cases e with
  | timing hz => exact absurd rfl (h hz)
  | _ => rfl

/-! ### Isolation of interfaces (20_memory.md R67, 60_exceptions.md R201) -/

/-- What a step of any command, its acceptance included, writes outside its own interface: nothing. -/
theorem exec_event {i : Instr} {s t : State} (h : exec i s = .next t) : ∃ e, t.hist = s.hist ++ [⟨i.ifid, e⟩] ∧
    ((t.cfg = s.cfg ∧ ∀ hz, e ≠ .timing hz) ∨
      e = .timing s.cur.hz ∧ s.phase = .run ∧ t.cfg = s.cfg.setIfInBounds i.ifid.toNat (some s.cur.hz)) := by
  obtain ⟨-, -, rfl⟩ | ⟨hrun, rfl, -, e, m⟩ := exec_cases h
  · exact ⟨_, rfl, .inl ⟨rfl, nofun⟩⟩
  · exact ⟨e, m.hist, m.cfg.imp_right fun hc => ⟨hc.1, hrun, hc.2⟩⟩

/-- A configuration write at one interface leaves every other. -/
theorem cfg_setIfInBounds_of_ne {cfg : Vector (Option Word) 16} {i j : Ifid} {v : Option Word} (h : j ≠ i) :
    (cfg.setIfInBounds i.toNat v)[j.toNat]? = cfg[j.toNat]? :=
  Vector.getElem?_setIfInBounds_ne fun he => h (BitVec.toNat_inj.mp he.symm)

theorem cfg_setIfInBounds_same {cfg : Vector (Option Word) 16} {i : Ifid} {v : Option Word} :
    (cfg.setIfInBounds i.toNat v)[i.toNat]? = some v :=
  Vector.getElem?_setIfInBounds_self.trans (if_pos i.isLt)

/-- On a sound platform the rows of two interfaces have different register blocks. -/
theorem registry_regs_ne {p : Platform} (hp : platformOk p = true) {a b : Nat} (hab : a ≠ b) {x y : Descriptor}
    (hx : p.registry[a]? = some x) (hy : p.registry[b]? = some y) : x.regs ≠ y.regs := by
  simp only [platformOk, Bool.and_eq_true, decide_eq_true_eq, pairwise_apart_iff] at hp
  obtain hlt | hgt := Nat.lt_or_gt_of_ne hab
  · exact ((apart_iff x y).mp (hp.2 a b hlt x y hx hy)).1
  · exact ((apart_iff y x).mp (hp.2 b a hgt y x hy hx)).1.symm

/-- Settles O52: the one event of a step is of the command's own interface, and so is the one row of `cfg` it writes. -/
theorem interfacesAreIsolated : Obligations.InterfacesAreIsolated := by
  refine ⟨fun i s t j h hj => ?_, fun p x y a b hp hxy hx hy => ?_⟩
  · obtain ⟨e, hist, hcfg⟩ := exec_event h
    have hother : i.ifid ≠ j := hj.symm
    refine ⟨by simp [hist, hother], ?_, ?_, ?_⟩
    · obtain ⟨hc, -⟩ | ⟨-, -, hc⟩ := hcfg
      · rw [hc]
      · rw [hc, cfg_setIfInBounds_of_ne hj]
    · rw [hist]
      exact lastWritten_append_of_none (fun hi => absurd hi hother) s.hist
    · rw [hist]
      exact lastWritten_append_of_none (fun hi => absurd hi hother) s.hist
  · obtain ⟨dx, hdx, rfl⟩ := Option.map_eq_some_iff.mp hx
    obtain ⟨dy, hdy, rfl⟩ := Option.map_eq_some_iff.mp hy
    exact registry_regs_ne hp (fun he => hxy (BitVec.toNat_inj.mp he)) hdx hdy

/-! ### What every step of the machine keeps -/

/-- A property that no host register and no host memory enters, that reset meets, and that every step of a command keeps,
is kept by every step of the machine. -/
theorem step_preserves {P : State → Prop}
    (hexec : ∀ i s t, platformOk s.platform = true → P s → exec i s = .next t → P t)
    (hhost : ∀ s hz buf mem host hostVal, P s →
      P { s with hz := hz, buf := buf, mem := mem, host := host, hostVal := hostVal })
    (hreset : ∀ s, P (engineReset s)) {s t : State} (hs : P s) (h : step s = .next t) : P t := by
  obtain ⟨hp, ⟨i, s', hi, l, rfl⟩ | ⟨l, v, rfl⟩ | ⟨l, v, rfl⟩ | ⟨l, v, rfl⟩ | ⟨l, a, v, rfl⟩ | ⟨l, rfl⟩⟩ := step_cases h
  · exact hexec i { s with host := l } t hp (hhost s s.hz s.buf s.mem l s.hostVal hs) hi
  · exact hhost s s.hz s.buf s.mem l v hs
  · exact hhost s v s.buf s.mem l s.hostVal hs
  · exact hhost s s.hz v s.mem l s.hostVal hs
  · exact hhost s s.hz s.buf _ l s.hostVal hs
  · exact hreset _

/-- A step of a command keeps the canonical form of memory and the platform. -/
theorem exec_keeps_memory_and_platform {i : Instr} {s t : State} (hs : Memory.wf s.mem = true)
    (h : exec i s = .next t) : Memory.wf t.mem = true ∧ t.platform = s.platform := by
  obtain ⟨-, -, rfl⟩ | ⟨-, -, -, e, m⟩ := exec_cases h
  · exact ⟨hs, rfl⟩
  · refine ⟨?_, m.platform⟩
    obtain ⟨hm, -⟩ | ⟨a, v, -, hm⟩ := m.mem
    · exact hm ▸ hs
    · exact hm ▸ Memory.wf_memSet hs a v

/-- Settles O54: only a stored byte changes memory, and `memSet` keeps its form. -/
theorem stepKeepsMemoryAndPlatform : Obligations.StepKeepsMemoryAndPlatform := by
  rintro s t ⟨hp, hm⟩ h
  have keeps : Memory.wf t.mem = true ∧ t.platform = s.platform := by
    obtain ⟨-, ⟨i, s', hi, l, rfl⟩ | ⟨l, v, rfl⟩ | ⟨l, v, rfl⟩ | ⟨l, v, rfl⟩ | ⟨l, a, v, rfl⟩ | ⟨l, rfl⟩⟩ := step_cases h
    · exact exec_keeps_memory_and_platform (s := { s with host := l }) hm hi
    · exact ⟨hm, rfl⟩
    · exact ⟨hm, rfl⟩
    · exact ⟨hm, rfl⟩
    · exact ⟨Memory.wf_memSet hm a v, rfl⟩
    · exact ⟨hm, rfl⟩
  exact ⟨⟨keeps.2 ▸ hp, keeps.1⟩, keeps.2⟩

/-! ### The registers the history records (10_state.md R24, R29, 41_lifecycle.md R112) -/

/-- What the history says `RESULT` holds. -/
def recordedResult (l : List HistEntry) : Word :=
  match lastDone l with
  | some r => encResult r
  | none   => 0

theorem recorded_iff {s : State} : Recorded s ↔
    s.result = recordedResult s.hist ∧ ∀ i : Ifid, s.cfg[i.toNat]? = some (lastTiming s.hist i) := Iff.rfl

theorem recordedResult_append_done (l : List HistEntry) (j : Ifid) (r : Result) :
    recordedResult (l ++ [⟨j, .done r⟩]) = encResult r := by
  simp only [recordedResult, lastDone_append_done]

theorem recordedResult_append_of_ne_done {e : Event} (h : ∀ r, e ≠ .done r) (l : List HistEntry) (j : Ifid) :
    recordedResult (l ++ [⟨j, e⟩]) = recordedResult l := by
  simp only [recordedResult, lastDone_append_of_ne_done h]

/-- `RESULT` is written with the event that records it. -/
theorem exec_keeps_result {i : Instr} {s t : State} (hs : s.result = recordedResult s.hist) (h : exec i s = .next t) :
    t.result = recordedResult t.hist := by
  obtain ⟨-, -, rfl⟩ | ⟨-, -, -, e, m⟩ := exec_cases h
  · have hne : ∀ r, Event.accept (encode i) ≠ .done r := nofun
    rw [accepted_hist, recordedResult_append_of_ne_done hne]
    exact hs
  · rw [m.hist]
    obtain ⟨-, hres, hdone⟩ | ⟨r, rfl, -, hres⟩ := m.done
    · rw [hres, hs, recordedResult_append_of_ne_done hdone]
    · rw [hres, recordedResult_append_done]

/-- `cfg` is written with the event that records it. -/
theorem exec_keeps_cfg {i : Instr} {s t : State} (hs : ∀ j : Ifid, s.cfg[j.toNat]? = some (lastTiming s.hist j))
    (h : exec i s = .next t) (j : Ifid) : t.cfg[j.toNat]? = some (lastTiming t.hist j) := by
  obtain ⟨e, hist, ⟨hc, he⟩ | ⟨rfl, -, hc⟩⟩ := exec_event h
  · rw [hc, hist, lastTiming, lastWritten_append_of_none fun _ => timingWritten_eq_none he]
    exact hs j
  · rw [hc, hist, lastTiming]
    by_cases hj : j = i.ifid
    · subst hj
      rw [cfg_setIfInBounds_same, lastWritten_append_of_some (f := timingWritten) rfl]
    · rw [cfg_setIfInBounds_of_ne hj, lastWritten_append_of_none fun hi => absurd hi.symm hj]
      exact hs j

theorem recorded_engineReset (s : State) : Recorded (engineReset s) :=
  ⟨rfl, fun i => Vector.getElem?_replicate_of_lt i.isLt⟩

/-- Settles O56: `RESULT` and `cfg` change with the events that record them, and reset empties both. -/
theorem stepKeepsTheRecords : Obligations.StepKeepsTheRecords := fun _ _ =>
  step_preserves
    (fun _ _ _ _ hs h => recorded_iff.mpr ⟨exec_keeps_result hs.1 h, exec_keeps_cfg hs.2 h⟩)
    (fun _ _ _ _ _ _ hs => hs) recorded_engineReset

/-- Settles O53: the engine is IDLE and its history empty. -/
theorem resetMeetsTheInvariants : Obligations.ResetMeetsTheInvariants :=
  ⟨⟨by decide, Memory.wf_reset⟩, ⟨nofun, Nat.zero_le _, nofun⟩,
    ⟨rfl, fun i => Vector.getElem?_replicate_of_lt i.isLt⟩, nofun, nofun⟩

end Sys2Proof.Machine
end

section
/-! The start and address phase of WRITE and READ, point by point (42_write.md R130 to R133, 43_read.md R160). -/

namespace Sys2Proof.Machine

/-! ### The points of the phase -/

section

variable {dir : Bool} {done : Upc} {s : State}

theorem addressPhase_clearAf (hu : s.upc = .clearAf) : addressPhase dir done s = .next (did .clearAf .start s) := by
  simp only [addressPhase, hu, act_eq_did]

theorem addressPhase_start (hu : s.upc = .start) : addressPhase dir done s = .next (did .start .sbStart s) := by
  simp only [addressPhase, hu, act_eq_did]

theorem addressPhase_sbStart (hu : s.upc = .sbStart) :
    addressPhase dir done s = firstSample .sb .sbPoll .addrByte (endsErr .timeoutSb) s := by
  simp only [addressPhase, hu, startPoll_eq_firstSample, raise_eq_endsErr]

theorem addressPhase_addrStart (hu : s.upc = .addrStart) :
    addressPhase dir done s = firstSample .addr .addrPoll done classifyAddress s := by
  simp only [addressPhase, hu, startPoll_eq_firstSample]

end

/-! ### WRITE (42_write.md R130) -/

section

variable {f : Fields} {s : State} (hr : Running (.write f) s)
include hr

theorem exec_write_entry (hu : s.upc = .entry) (hn : f.ifid.toNat < s.platform.nIf) :
    exec (.write f) s = .next (did (.pos false) .clearAf s) := by
  rw [exec_run hr.1 hr.2]
  simp only [micro, writeStep, hu]
  exact checkIfid_of_lt_nIf hr.2 hn _

theorem exec_write_address {u : Upc} (hu : s.upc = u) (h : u ∈ addressPoints) :
    exec (.write f) s = addressPhase false .wrSr1 s := by
  rw [exec_run hr.1 hr.2]
  fin_cases h
  all_goals simp only [micro, writeStep, hu]

theorem exec_write_wrSr1 (hu : s.upc = .wrSr1) : exec (.write f) s = .next (did .sr1 .wrSr2 s) := by
  rw [exec_run hr.1 hr.2]
  simp only [micro, writeStep, hu, act_eq_did]

theorem exec_write_wrSr2 (hu : s.upc = .wrSr2) : exec (.write f) s = .next (did .sr2 .outInit s) := by
  rw [exec_run hr.1 hr.2]
  simp only [micro, writeStep, hu, act_eq_did]

end

/-- Settles O27: WRITE's own points around the shared phase. -/
theorem writeStartAndAddressPhase : Obligations.WriteStartAndAddressPhase := by
  intro f s hr
  have hphase {u : Upc} (hu : s.upc = u) (h : u ∈ addressPoints) := exec_write_address hr hu h
  exact ⟨interfaceCheckComesFirst _ s hr, exec_write_entry hr,
    fun hu => (hphase hu (by decide)).trans (addressPhase_clearAf hu),
    fun hu => (hphase hu (by decide)).trans (addressPhase_start hu),
    fun hu => (hphase hu (by decide)).trans (addressPhase_sbStart hu),
    pollsAt_of_pollError hr rfl rfl,
    exec_write_addrByte hr,
    fun hu => (hphase hu (by decide)).trans (addressPhase_addrStart hu),
    pollsAt_of_pollLoop hr rfl,
    fun hu => (exec_run hr.1 hr.2).trans (micro_afNack ⟨f, .inl rfl⟩ hu),
    fun hu => (exec_run hr.1 hr.2).trans (micro_afTimeout ⟨f, .inl rfl⟩ hu),
    exec_write_wrSr1 hr, exec_write_wrSr2 hr⟩

/-! ### READ (43_read.md R160) -/

section

variable {f : Fields} {s : State} (hr : Running (.read f) s)
include hr

theorem exec_read_entry (hu : s.upc = .entry) (hn : f.ifid.toNat < s.platform.nIf) : exec (.read f) s =
    if f.count = 0 then endsErr .argCountZero s else .next (did (.pos false) .setAck s) := by
  rw [exec_run hr.1 hr.2]
  simp only [micro, readStep, hu]
  rw [checkIfid_of_lt_nIf hr.2 hn, hr.2]
  rfl

theorem exec_read_setAck (hu : s.upc = .setAck) : exec (.read f) s = .next (did (.ack true) .clearAf s) := by
  rw [exec_run hr.1 hr.2]
  simp only [micro, readStep, hu, act_eq_did]

theorem exec_read_address {u : Upc} (hu : s.upc = u) (h : u ∈ addressPoints) :
    exec (.read f) s = addressPhase true .rdSelect s := by
  rw [exec_run hr.1 hr.2]
  fin_cases h
  all_goals simp only [micro, readStep, hu]

end

/-- Settles O30: READ's own points around the shared phase, and the choice of the sub-protocol. -/
theorem readCommonMicroProgram : Obligations.ReadCommonMicroProgram := by
  intro f s hr
  have hphase {u : Upc} (hu : s.upc = u) (h : u ∈ addressPoints) := exec_read_address hr hu h
  have htwo (h2 : f.count = 2) : f.count ≠ 1 := by rw [h2]; decide
  exact ⟨interfaceCheckComesFirst _ s hr,
    fun hu hn h0 => (exec_read_entry hr hu hn).trans (if_pos h0),
    fun hu hn h0 => (exec_read_entry hr hu hn).trans (if_neg h0),
    exec_read_setAck hr,
    fun hu => (hphase hu (by decide)).trans (addressPhase_clearAf hu),
    fun hu => (hphase hu (by decide)).trans (addressPhase_start hu),
    fun hu => (hphase hu (by decide)).trans (addressPhase_sbStart hu),
    pollsAt_of_pollError hr rfl rfl,
    exec_read_addrByte hr,
    fun hu => (hphase hu (by decide)).trans (addressPhase_addrStart hu),
    pollsAt_of_pollLoop hr rfl,
    fun hu => (exec_run hr.1 hr.2).trans (micro_afNack ⟨f, .inr rfl⟩ hu),
    fun hu => (exec_run hr.1 hr.2).trans (micro_afTimeout ⟨f, .inr rfl⟩ hu),
    fun hu h1 => (exec_rdSelect hr hu).trans (if_pos h1),
    fun hu h2 => (exec_rdSelect hr hu).trans ((if_neg (htwo h2)).trans (if_pos h2)),
    fun hu h1 h2 => (exec_rdSelect hr hu).trans ((if_neg h1).trans (if_neg h2))⟩

end Sys2Proof.Machine
end

section
/-! The control flow of the micro-programs (10_state.md R26, R27): between which points a step may go, with which event, and
where a step stops instead. -/

namespace Sys2Proof.Machine

/-! ### The arcs of each micro-program -/

/-- An event without its data. -/
def bare : Event → Event
  | .accept _     => .accept 0
  | .drWrite _    => .drWrite 0
  | .drRead _     => .drRead 0
  | .sample c _   => .sample c false
  | .timing _     => .timing 0
  | .memRead _ _  => .memRead 0 0
  | .memWrite _ _ => .memWrite 0 0
  | .done _       => .done (.ok 0)
  | e             => e

/-- A step from one point to another, with its event's kind. -/
abbrev Arc := Upc × Event × Upc

/-- A point that samples `c` and goes on to one of the points of the list. -/
def samples (u : Upc) (c : Cond) (l : List Upc) : List Arc := l.map fun v => (u, .sample c false, v)

/-- SETFREQ_BODY after its first action (41_lifecycle.md R113). -/
def freqArcs : List Arc :=
  samples .freqPoll .idle [.freqPoll, .freqTiming] ++ [(.freqTiming, .timing 0, .finishOk)]

/-- The start and address phase up to the point `done` (42_write.md R130, 43_read.md R160). -/
def addressArcs (done : Upc) : List Arc :=
  [(.clearAf, .clearAf, .start), (.start, .start, .sbStart)] ++ samples .sbStart .sb [.sbPoll, .addrByte] ++
    samples .sbPoll .sb [.sbPoll, .addrByte] ++ [(.addrByte, .drWrite 0, .addrStart)] ++
    samples .addrStart .addr [.addrPoll, done] ++ samples .addrStart .af [.afNack, .afTimeout] ++
    samples .addrPoll .addr [.addrPoll, done] ++ samples .addrPoll .af [.afNack, .afTimeout]

/-- The wait for a stop to clear (42_write.md R145). -/
def stopArcs : List Arc :=
  samples .stopStart .stopclr [.stopPoll, .finishOk] ++ samples .stopPoll .stopclr [.stopPoll, .finishOk]

/-- Where the loop test of DATA_OUT goes on (42_write.md R134). -/
def outTopNext : List Upc := [.txePoll, .outRead, .txeFinalPoll, .outAf]

/-- DATA_OUT after its first action (42_write.md R134 to R137). -/
def outArcs : List Arc :=
  samples .txePoll .txe [.txePoll, .outRead] ++
    [(.outRead, .memRead 0 0, .outSend), (.outSend, .drWrite 0, .outNext)] ++
    samples .outNext .txe [.txeFinalPoll, .outAf] ++ samples .outNext .btf [.outReadB, .outLoop] ++
    samples .outLoop .txe outTopNext ++
    [(.outReadB, .memRead 0 0, .outSendB), (.outSendB, .drWrite 0, .outNextB)] ++
    samples .outNextB .txe outTopNext ++ samples .txeFinalPoll .txe [.txeFinalPoll, .outAf] ++
    samples .outAf .af [.outNack, .outStop] ++ (.outStop, .stop, .stopStart) :: stopArcs

/-- READ_1 (43_read.md R161). -/
def read1Arcs : List Arc :=
  [(.r1Stop, .stop, .r1Sr1), (.r1Stop, .sr1, .r1Sr2), (.r1Sr1, .sr1, .r1Sr2), (.r1Sr2, .sr2, .r1Start)] ++
    samples .r1Start .rxne [.r1Poll, .r1Read] ++ samples .r1Poll .rxne [.r1Poll, .r1Read] ++
    [(.r1Read, .drRead 0, .r1Store), (.r1Store, .memWrite 0 0, .readEnd)]

/-- READ_2 (43_read.md R162). -/
def read2Arcs : List Arc :=
  [(.r2Pos, .pos true, .r2Sr1), (.r2Sr1, .sr1, .r2Sr2), (.r2Sr2, .sr2, .r2Start)] ++
    samples .r2Start .btf [.r2Poll, .r2Stop] ++ samples .r2Poll .btf [.r2Poll, .r2Stop] ++
    [(.r2Stop, .stop, .r2Read1), (.r2Stop, .drRead 0, .r2Store1), (.r2Read1, .drRead 0, .r2Store1),
      (.r2Store1, .memWrite 0 0, .r2Read2), (.r2Read2, .drRead 0, .r2Store2), (.r2Store2, .memWrite 0 0, .readEnd)]

/-- The loop test of READ_N (43_read.md R163). -/
def readTopArcs (u : Upc) : List Arc :=
  samples u .rxne [.rnPoll, .rnRead] ++ samples u .btf [.rnBtfAPoll, .rnAckOff]

/-- READ_N (43_read.md R163). -/
def readNArcs : List Arc :=
  (.rnSr2, .sr2, .rnInit) :: readTopArcs .rnInit ++ samples .rnPoll .rxne [.rnPoll, .rnRead] ++
    [(.rnRead, .drRead 0, .rnStore), (.rnStore, .memWrite 0 0, .rnNext)] ++ readTopArcs .rnNext ++
    samples .rnBtfAPoll .btf [.rnBtfAPoll, .rnAckOff] ++
    [(.rnAckOff, .ack false, .rnStopA), (.rnStopA, .stop, .rnReadA), (.rnStopA, .drRead 0, .rnStoreA),
      (.rnReadA, .drRead 0, .rnStoreA), (.rnStoreA, .memWrite 0 0, .rnBtfBStart)] ++
    samples .rnBtfBStart .btf [.rnBtfBPoll, .rnStopB] ++ samples .rnBtfBPoll .btf [.rnBtfBPoll, .rnStopB] ++
    [(.rnStopB, .stop, .rnReadB), (.rnStopB, .drRead 0, .rnStoreB), (.rnReadB, .drRead 0, .rnStoreB),
      (.rnStoreB, .memWrite 0 0, .rnReadC), (.rnReadC, .drRead 0, .rnStoreC), (.rnStoreC, .memWrite 0 0, .readEnd)]

def openArcs : List Arc :=
  [(.entry, .clken, .openReset), (.openReset, .prst, .openPins), (.openPins, .pins, .freqBody)] ++
    samples .freqBody .idle [.freqPoll, .freqTiming] ++ freqArcs

def setFreqArcs : List Arc := samples .entry .idle [.freqPoll, .freqTiming] ++ freqArcs

def closeArcs : List Arc :=
  samples .entry .idle [.closePoll, .closeDisable] ++ samples .closePoll .idle [.closePoll, .closeDisable] ++
    [(.entry, .pdis, .closeTimeout), (.closePoll, .pdis, .closeTimeout), (.closeDisable, .pdis, .finishOk)]

def genStopArcs : List Arc := (.entry, .stop, .stopStart) :: stopArcs

def writeArcs : List Arc :=
  (.entry, .pos false, .clearAf) :: addressArcs .wrSr1 ++ [(.wrSr1, .sr1, .wrSr2), (.wrSr2, .sr2, .outInit)] ++
    samples .outInit .txe outTopNext ++ outArcs

def writeRawArcs : List Arc := samples .entry .txe outTopNext ++ outArcs

def readArcs : List Arc :=
  (.entry, .pos false, .setAck) :: (.setAck, .ack true, .clearAf) :: addressArcs .rdSelect ++
    [(.rdSelect, .ack false, .r1Stop), (.rdSelect, .ack false, .r2Pos), (.rdSelect, .sr1, .rnSr2)] ++
    read1Arcs ++ read2Arcs ++ readNArcs ++ samples .readEnd .stopclr [.stopPoll, .finishOk] ++
    samples .stopPoll .stopclr [.stopPoll, .finishOk]

/-- The arcs of a command's micro-program. -/
def arcs : Instr → List Arc
  | .openIf _   => openArcs
  | .close _    => closeArcs
  | .setFreq _  => setFreqArcs
  | .write _    => writeArcs
  | .read _     => readArcs
  | .writeRaw _ => writeRawArcs
  | .genStop _  => genStopArcs

/-! ### What a step answers -/

/-- The bytes and addresses in an event are those of the registers (20_memory.md R52, R54). -/
def DataOf (s t : State) : Event → Prop
  | .memRead a v  => a = bufAddr s.cur.buf s.idx ∧ t.idx = s.idx ∧ v = t.dat
  | .drWrite b    => s.upc = .addrByte ∨ b = s.dat ∧ t.dat = s.dat
  | .drRead b     => b = t.dat
  | .memWrite a v => v = s.dat ∧ ∃ k, storeIndex s = some k ∧ a = bufAddr s.cur.buf k
  | _             => True

/-- The poll counter grows only within the budget of a poll (40_bounded_poll.md R90). -/
def CountsSamples (s t : State) : Prop := t.pcnt ≤ s.pcnt ∨ ∃ c, t.pcnt ≤ budget s.platform c

/-- A step along an arc. -/
structure Goes (as : List Arc) (s t : State) (e : Event) : Prop where
  hist  : t.hist = s.hist ++ [⟨s.cur.cmd.ifid, e⟩]
  phase : t.phase = s.phase
  cur   : t.cur = s.cur
  pcnt  : CountsSamples s t
  arc   : (s.upc, bare e, t.upc) ∈ as
  data  : DataOf s t e

/-- The host memory refuses the byte the point accesses (20_memory.md R53). -/
def Refuses (s : State) : Prop :=
  (s.upc = .outRead ∨ s.upc = .outReadB) ∧ admitsRead s.platform (bufAddr s.cur.buf s.idx) = false ∨
  ∃ k, storeIndex s = some k ∧ admitsWrite s.platform (bufAddr s.cur.buf k) = false

/-- The answers of a micro-program with these points and arcs: a step along an arc, the end of the command, or a stop where
the memory refuses a byte or the point is not the program's. -/
inductive Answer (ps : List Upc) (as : List Arc) (s : State) : Step → Prop
  | goes {t : State} {e : Event} (h : Goes as s t e) : Answer ps as s (.next t)
  | ends {t : State} {r : Result} (hist : t.hist = s.hist ++ [⟨s.cur.cmd.ifid, .done r⟩]) (idle : t.phase = .idle)
    (pcnt : CountsSamples s t) : Answer ps as s (.next t)
  | stuck (h : Refuses s) : Answer ps as s (.fault .memRefused)
  | foreign (h : s.upc ∉ ps) : Answer ps as s (.fault .foreignPoint)

section

variable {ps : List Upc} {as : List Arc} {s s' : State}

/-- More arcs are allowed in a longer list. -/
theorem Answer.mono {as' : List Arc} {o : Step} (h : Answer ps as s o) (hs : as ⊆ as') : Answer ps as' s o := by
  cases h with
  | goes h => exact .goes { h with arc := hs h.arc }
  | ends hist idle pcnt => exact .ends hist idle pcnt
  | stuck h => exact .stuck h
  | foreign h => exact .foreign h

theorem answer_ite {c : Prop} [Decidable c] {a b : Step} (ha : Answer ps as s a) (hb : Answer ps as s b) :
    Answer ps as s (if c then a else b) := by
  split
  · exact ha
  · exact hb

/-! The shared operations. Those that stand behind a change of `rem` and `idx` are taken in a state `s'` that differs from
`s` in the sequencer's registers only, and not in `upc`. -/

/-- A control primitive's event carries no data. -/
def dataless : Event → Bool
  | .memRead _ _ | .drWrite _ | .drRead _ | .memWrite _ _ => false
  | _ => true

theorem dataOf_of_dataless {t : State} {e : Event} (h : dataless e = true) : DataOf s t e := by
  cases e with
  | memRead | drWrite | drRead | memWrite => exact Bool.noConfusion h
  | _ => trivial

theorem finish_answers (r : Result) : Answer ps as s (finish r s) := .ends rfl rfl (.inl le_rfl)

theorem raise_answers (e : Err) : Answer ps as s (raise e s) := finish_answers _

/-- `s'` is `s` with `rem` and `idx` changed and `pcnt` no higher. -/
def Prepared (s s' : State) : Prop := ∃ r k n, n ≤ s.pcnt ∧ s' = { s with rem := r, idx := k, pcnt := n }

theorem prepared_refl (s : State) : Prepared s s := ⟨_, _, _, le_rfl, rfl⟩

theorem prepared_initTransfer (s : State) : Prepared s (initTransfer s) := ⟨_, _, _, le_rfl, rfl⟩

theorem prepared_advance (s : State) : Prepared s (advance s) := ⟨_, _, _, le_rfl, rfl⟩

theorem Prepared.raise_answers (h : Prepared s s') (e : Err) : Answer ps as s (raise e s') := by
  obtain ⟨r, k, n, hn, rfl⟩ := h
  exact .ends rfl rfl (.inl hn)

theorem Prepared.act_answers (h : Prepared s s') {e : Event} {nxt : Upc} (ha : (s.upc, bare e, nxt) ∈ as)
    (he : dataless e = true) : Answer ps as s (act e nxt s') := by
  obtain ⟨r, k, n, hn, rfl⟩ := h
  exact .goes ⟨rfl, rfl, rfl, .inl hn, ha, dataOf_of_dataless he⟩

theorem act_answers {e : Event} {nxt : Upc} (ha : (s.upc, bare e, nxt) ∈ as) (he : dataless e = true) :
    Answer ps as s (act e nxt s) :=
  (prepared_refl s).act_answers ha he

theorem Prepared.sample_answers (h : Prepared s s') {c : Cond} {yes no : Upc}
    (ha : samples s.upc c [yes, no] ⊆ as) : Answer ps as s (sample c yes no s') := by
  obtain ⟨r, k, n, hn, rfl⟩ := h
  refine .goes ⟨rfl, rfl, rfl, .inl hn, ha ?_, trivial⟩
  simp only [samples, List.map_cons, List.map_nil, List.mem_cons, bare]
  split <;> simp

theorem Prepared.poll_answers (h : Prepared s s') {c : Cond} {loop ok : Upc} {fail : State → Step}
    (ha : samples s.upc c [loop, ok] ⊆ as) (hf : Answer ps as s (fail s')) :
    Answer ps as s (poll c loop ok fail s') := by
  unfold poll
  split
  case isFalse => exact hf
  case isTrue hb =>
    obtain ⟨r, k, n, hn, rfl⟩ := h
    refine .goes ⟨rfl, rfl, rfl, .inr ⟨c, hb⟩, ha ?_, trivial⟩
    simp only [samples, List.map_cons, List.map_nil, List.mem_cons, bare]
    split <;> simp

theorem Prepared.startPoll_answers (h : Prepared s s') {c : Cond} {loop ok : Upc} {fail : State → Step}
    (ha : samples s.upc c [loop, ok] ⊆ as) (hf : ∀ s', Prepared s s' → Answer ps as s (fail s')) :
    Answer ps as s (startPoll c loop ok fail s') := by
  obtain ⟨r, k, n, hn, rfl⟩ := h
  have h0 : Prepared s { s with rem := r, idx := k, pcnt := 0 } := ⟨r, k, 0, Nat.zero_le _, rfl⟩
  exact h0.poll_answers ha (hf _ h0)

theorem Prepared.receiveByte_answers (h : Prepared s s') {nxt : Upc} (ha : (s.upc, .drRead 0, nxt) ∈ as) :
    Answer ps as s (receiveByte nxt s') := by
  obtain ⟨r, k, n, hn, rfl⟩ := h
  exact .goes ⟨rfl, rfl, rfl, .inl hn, ha, rfl⟩

theorem sendAddress_answers {dir : Bool} {nxt : Upc} (hu : s.upc = .addrByte) (ha : (s.upc, .drWrite 0, nxt) ∈ as) :
    Answer ps as s (sendAddress dir nxt s) :=
  .goes ⟨rfl, rfl, rfl, .inl le_rfl, ha, .inl hu⟩

theorem sendByte_answers {nxt : Upc} (ha : (s.upc, .drWrite 0, nxt) ∈ as) : Answer ps as s (sendByte nxt s) :=
  .goes ⟨rfl, rfl, rfl, .inl le_rfl, ha, .inr ⟨rfl, rfl⟩⟩

theorem loadByte_answers {nxt : Upc} (hu : s.upc = .outRead ∨ s.upc = .outReadB) (ha : (s.upc, .memRead 0 0, nxt) ∈ as) :
    Answer ps as s (loadByte s.idx nxt s) := by
  unfold loadByte
  dsimp only
  split
  · exact .goes ⟨rfl, rfl, rfl, .inl le_rfl, ha, rfl, rfl, rfl⟩
  case isFalse h => exact .stuck (.inl ⟨hu, Bool.eq_false_of_not_eq_true h⟩)

theorem storeByte_answers {k : Count} {nxt : Upc} (hk : storeIndex s = some k) (ha : (s.upc, .memWrite 0 0, nxt) ∈ as) :
    Answer ps as s (storeByte k nxt s) := by
  unfold storeByte
  dsimp only
  split
  · exact .goes ⟨rfl, rfl, rfl, .inl le_rfl, ha, rfl, k, hk, rfl⟩
  case isFalse h => exact .stuck (.inr ⟨k, hk, Bool.eq_false_of_not_eq_true h⟩)

theorem programTiming_answers {nxt : Upc} (ha : (s.upc, .timing 0, nxt) ∈ as) : Answer ps as s (programTiming nxt s) :=
  .goes ⟨rfl, rfl, rfl, .inl le_rfl, ha, trivial⟩

theorem checkIfid_answers {k : State → Step} (hk : Answer ps as s (k s)) : Answer ps as s (checkIfid k s) :=
  answer_ite (raise_answers _) hk

end

/-! ### The shared sub-programs, each at its own points -/

section

variable {ps : List Upc} {s : State}

theorem addressPhase_answers (dir : Bool) (done : Upc) (h : s.upc ∈ addressPoints) :
    Answer ps (addressArcs done) s (addressPhase dir done s) := by
  unfold addressPhase
  split <;> rename_i hu
  · exact act_answers (by simp [hu, addressArcs, bare]) rfl
  · exact act_answers (by simp [hu, addressArcs, bare]) rfl
  · exact (prepared_refl s).startPoll_answers (by simp [hu, addressArcs, samples]) fun _ h => h.raise_answers _
  · exact (prepared_refl s).poll_answers (by simp [hu, addressArcs, samples]) (raise_answers _)
  · exact sendAddress_answers hu (by simp [hu, addressArcs, samples])
  · exact (prepared_refl s).startPoll_answers (by simp [hu, addressArcs, samples]) fun _ h =>
      h.sample_answers (by simp [hu, addressArcs, samples])
  · exact (prepared_refl s).poll_answers (by simp [hu, addressArcs, samples])
      ((prepared_refl s).sample_answers (by simp [hu, addressArcs, samples]))
  · exact raise_answers _
  · exact raise_answers _
  · simp_all [addressPoints]

theorem freqCheck_answers {as : List Arc} (ha : samples s.upc .idle [.freqPoll, .freqTiming] ⊆ as) :
    Answer ps as s (freqCheck s) :=
  answer_ite (raise_answers _) ((prepared_refl s).startPoll_answers ha fun _ h => h.raise_answers _)

theorem setFreqBody_answers (h : s.upc ∈ freqPoints) : Answer ps freqArcs s (setFreqBody s) := by
  unfold setFreqBody
  split <;> rename_i hu
  · exact absurd (hu ▸ h) (by decide)
  · exact (prepared_refl s).poll_answers (by rw [hu]; decide) (raise_answers _)
  · exact programTiming_answers (by rw [hu]; decide)
  · exact finish_answers _
  · simp_all [freqPoints]

theorem stopPhase_answers (n : Count) (h : s.upc ∈ [Upc.stopStart, .stopPoll, .finishOk]) :
    Answer ps stopArcs s (stopPhase n s) := by
  unfold stopPhase
  split <;> rename_i hu
  · exact (prepared_refl s).startPoll_answers (by rw [hu]; decide) fun _ h => h.raise_answers _
  · exact (prepared_refl s).poll_answers (by rw [hu]; decide) (raise_answers _)
  · exact finish_answers _
  · simp_all

theorem Prepared.txeFinal_answers {s' : State} {as : List Arc} (h : Prepared s s')
    (ha : samples s.upc .txe [.txeFinalPoll, .outAf] ⊆ as) : Answer ps as s (txeFinal s') :=
  h.startPoll_answers ha fun _ h => h.raise_answers _

theorem Prepared.outTop_answers {s' : State} {as : List Arc} (h : Prepared s s')
    (ha : samples s.upc .txe outTopNext ⊆ as) : Answer ps as s (outTop s') := by
  obtain ⟨hdata, hfinal⟩ : samples s.upc .txe [.txePoll, .outRead] ⊆ as ∧
      samples s.upc .txe [.txeFinalPoll, .outAf] ⊆ as := List.append_subset.mp ha
  exact answer_ite (h.txeFinal_answers hfinal) (h.startPoll_answers hdata fun _ h => h.raise_answers _)

theorem dataOut_answers (h : s.upc ∈ outPoints) : Answer ps outArcs s (dataOut s) := by
  unfold dataOut
  split <;> rename_i hu
  · exact absurd (hu ▸ h) (by decide)
  · exact (prepared_refl s).poll_answers (by rw [hu]; decide) (raise_answers _)
  · exact loadByte_answers (.inl hu) (by rw [hu]; decide)
  · exact sendByte_answers (by rw [hu]; decide)
  · exact answer_ite ((prepared_advance s).txeFinal_answers (by rw [hu]; decide))
      ((prepared_advance s).sample_answers (by rw [hu]; decide))
  · exact (prepared_refl s).outTop_answers (by rw [hu]; decide)
  · exact loadByte_answers (.inr hu) (by rw [hu]; decide)
  · exact sendByte_answers (by rw [hu]; decide)
  · exact (prepared_advance s).outTop_answers (by rw [hu]; decide)
  · exact (prepared_refl s).poll_answers (by rw [hu]; decide) (raise_answers _)
  · exact (prepared_refl s).sample_answers (by rw [hu]; decide)
  · exact raise_answers _
  · exact answer_ite (act_answers (by rw [hu]; decide) rfl) (finish_answers _)
  · exact (stopPhase_answers _ (by simp_all [outPoints])).mono (by decide)

theorem readSelect_answers (hu : s.upc = .rdSelect) : Answer ps readArcs s (readSelect s) :=
  answer_ite (act_answers (by rw [hu]; decide) rfl)
    (answer_ite (act_answers (by rw [hu]; decide) rfl) (act_answers (by rw [hu]; decide) rfl))

theorem read1_answers (h : s.upc ∈ read1Points) : Answer ps read1Arcs s (read1 s) := by
  unfold read1
  split <;> rename_i hu
  · exact answer_ite (act_answers (by rw [hu]; decide) rfl) (act_answers (by rw [hu]; decide) rfl)
  · exact act_answers (by rw [hu]; decide) rfl
  · exact act_answers (by rw [hu]; decide) rfl
  · exact (prepared_refl s).startPoll_answers (by rw [hu]; decide) fun _ h => h.raise_answers _
  · exact (prepared_refl s).poll_answers (by rw [hu]; decide) (raise_answers _)
  · exact (prepared_refl s).receiveByte_answers (by rw [hu]; decide)
  · exact storeByte_answers (by simp only [storeIndex, hu]) (by rw [hu]; decide)
  · simp_all [read1Points]

theorem read2_answers (h : s.upc ∈ read2Points) : Answer ps read2Arcs s (read2 s) := by
  unfold read2
  split <;> rename_i hu
  · exact act_answers (by rw [hu]; decide) rfl
  · exact act_answers (by rw [hu]; decide) rfl
  · exact act_answers (by rw [hu]; decide) rfl
  · exact (prepared_refl s).startPoll_answers (by rw [hu]; decide) fun _ h => h.raise_answers _
  · exact (prepared_refl s).poll_answers (by rw [hu]; decide) (raise_answers _)
  · exact answer_ite (act_answers (by rw [hu]; decide) rfl)
      ((prepared_refl s).receiveByte_answers (by rw [hu]; decide))
  · exact (prepared_refl s).receiveByte_answers (by rw [hu]; decide)
  · exact storeByte_answers (by simp only [storeIndex, hu]) (by rw [hu]; decide)
  · exact (prepared_refl s).receiveByte_answers (by rw [hu]; decide)
  · exact storeByte_answers (by simp only [storeIndex, hu]) (by rw [hu]; decide)
  · simp_all [read2Points]

theorem Prepared.readTop_answers {s' : State} {as : List Arc} (h : Prepared s s') (ha : readTopArcs s.upc ⊆ as) :
    Answer ps as s (readTop s') := by
  obtain ⟨hdata, hlast⟩ := List.append_subset.mp ha
  exact answer_ite (h.startPoll_answers hdata fun _ h => h.raise_answers _)
    (h.startPoll_answers hlast fun _ h => h.raise_answers _)

theorem readN_answers (h : s.upc ∈ readNPointsA ∨ s.upc ∈ readNPointsB) : Answer ps readNArcs s (readN s) := by
  unfold readN
  split <;> rename_i hu
  · exact act_answers (by rw [hu]; decide) rfl
  · exact (prepared_initTransfer s).readTop_answers (by rw [hu]; decide)
  · exact (prepared_refl s).poll_answers (by rw [hu]; decide) (raise_answers _)
  · exact (prepared_refl s).receiveByte_answers (by rw [hu]; decide)
  · exact storeByte_answers (by simp only [storeIndex, hu]) (by rw [hu]; decide)
  · exact (prepared_advance s).readTop_answers (by rw [hu]; decide)
  · exact (prepared_refl s).poll_answers (by rw [hu]; decide) (raise_answers _)
  · exact act_answers (by rw [hu]; decide) rfl
  · exact answer_ite (act_answers (by rw [hu]; decide) rfl)
      ((prepared_refl s).receiveByte_answers (by rw [hu]; decide))
  · exact (prepared_refl s).receiveByte_answers (by rw [hu]; decide)
  · exact storeByte_answers (by simp only [storeIndex, hu]) (by rw [hu]; decide)
  · exact (prepared_advance s).startPoll_answers (by rw [hu]; decide) fun _ h => h.raise_answers _
  · exact (prepared_refl s).poll_answers (by rw [hu]; decide) (raise_answers _)
  · exact answer_ite (act_answers (by rw [hu]; decide) rfl)
      ((prepared_refl s).receiveByte_answers (by rw [hu]; decide))
  · exact (prepared_refl s).receiveByte_answers (by rw [hu]; decide)
  · exact storeByte_answers (by simp only [storeIndex, hu]) (by rw [hu]; decide)
  · exact (prepared_advance s).receiveByte_answers (by rw [hu]; decide)
  · exact storeByte_answers (by simp only [storeIndex, hu]) (by rw [hu]; decide)
  · simp_all [readNPointsA, readNPointsB]

theorem readEnd_answers (hu : s.upc = .readEnd) : Answer ps readArcs s (readEnd s) :=
  answer_ite ((prepared_refl s).startPoll_answers (by rw [hu]; decide) fun _ h => h.raise_answers _) (finish_answers _)

end

/-! ### The micro-programs -/

theorem openStep_answers (f : Fields) (s : State) : Answer (points (.openIf f)) openArcs s (openStep s) := by
  cases hu : s.upc
  all_goals simp only [openStep, hu]
  case entry => exact checkIfid_answers (act_answers (by rw [hu]; decide) rfl)
  case openReset | openPins => exact act_answers (by rw [hu]; decide) rfl
  case freqBody =>
    simp only [setFreqBody, hu]
    exact freqCheck_answers (by rw [hu]; decide)
  case freqPoll | freqTiming | finishOk => exact (setFreqBody_answers (by rw [hu]; decide)).mono (by decide)
  all_goals
    simp only [setFreqBody, hu]
    exact .foreign (by rw [hu]; simp [points, freqPoints])

theorem setFreqStep_answers (f : Fields) (s : State) : Answer (points (.setFreq f)) setFreqArcs s (setFreqStep s) := by
  cases hu : s.upc
  all_goals simp only [setFreqStep, hu]
  case entry => exact checkIfid_answers (freqCheck_answers (by rw [hu]; decide))
  case freqPoll | freqTiming | finishOk => exact (setFreqBody_answers (by rw [hu]; decide)).mono (by decide)
  case freqBody => exact .foreign (by rw [hu]; simp [points, freqPoints])
  all_goals
    simp only [setFreqBody, hu]
    exact .foreign (by rw [hu]; simp [points, freqPoints])

theorem closeStep_answers (f : Fields) (s : State) : Answer (points (.close f)) closeArcs s (closeStep s) := by
  cases hu : s.upc
  all_goals simp only [closeStep, hu]
  case entry =>
    exact checkIfid_answers ((prepared_refl s).startPoll_answers (by rw [hu]; decide) fun _ h =>
      h.act_answers (by rw [hu]; decide) rfl)
  case closePoll => exact (prepared_refl s).poll_answers (by rw [hu]; decide) (act_answers (by rw [hu]; decide) rfl)
  case closeDisable => exact act_answers (by rw [hu]; decide) rfl
  case closeTimeout => exact raise_answers _
  case finishOk => exact finish_answers _
  all_goals exact .foreign (by rw [hu]; simp [points])

theorem genStopStep_answers (f : Fields) (s : State) : Answer (points (.genStop f)) genStopArcs s (genStopStep s) := by
  cases hu : s.upc
  all_goals simp only [genStopStep, hu]
  case entry => exact checkIfid_answers (act_answers (by rw [hu]; decide) rfl)
  case stopStart | stopPoll | finishOk => exact (stopPhase_answers 0 (by rw [hu]; decide)).mono (by decide)
  all_goals
    simp only [stopPhase, hu]
    exact .foreign (by rw [hu]; simp [points])

theorem writeStep_answers (f : Fields) (s : State) : Answer (points (.write f)) writeArcs s (writeStep s) := by
  cases hu : s.upc
  all_goals simp only [writeStep, hu]
  case entry => exact checkIfid_answers (act_answers (by rw [hu]; decide) rfl)
  case wrSr1 | wrSr2 => exact act_answers (by rw [hu]; decide) rfl
  case clearAf | start | sbStart | sbPoll | addrByte | addrStart | addrPoll | afNack | afTimeout =>
    exact (addressPhase_answers _ _ (by rw [hu]; decide)).mono (by decide)
  case outInit =>
    simp only [dataOut, hu]
    exact (prepared_initTransfer s).outTop_answers (by rw [hu]; decide)
  case txePoll | outRead | outSend | outNext | outLoop | outReadB | outSendB | outNextB | txeFinalPoll | outAf | outNack
      | outStop | stopStart | stopPoll | finishOk =>
    exact (dataOut_answers (by rw [hu]; decide)).mono (by decide)
  all_goals
    simp only [dataOut, stopPhase, hu]
    exact .foreign (by rw [hu]; simp [points, addressPoints, outPoints])

theorem writeRawStep_answers (f : Fields) (s : State) :
    Answer (points (.writeRaw f)) writeRawArcs s (writeRawStep s) := by
  cases hu : s.upc
  all_goals simp only [writeRawStep, hu]
  case entry => exact checkIfid_answers ((prepared_initTransfer s).outTop_answers (by rw [hu]; decide))
  case txePoll | outRead | outSend | outNext | outLoop | outReadB | outSendB | outNextB | txeFinalPoll | outAf | outNack
      | outStop | stopStart | stopPoll | finishOk =>
    exact (dataOut_answers (by rw [hu]; decide)).mono (by decide)
  case outInit => exact .foreign (by rw [hu]; simp [points, outPoints])
  all_goals
    simp only [dataOut, stopPhase, hu]
    exact .foreign (by rw [hu]; simp [points, outPoints])

theorem readStep_answers (f : Fields) (s : State) : Answer (points (.read f)) readArcs s (readStep s) := by
  cases hu : s.upc
  all_goals simp only [readStep, hu]
  case entry => exact checkIfid_answers (answer_ite (raise_answers _) (act_answers (by rw [hu]; decide) rfl))
  case setAck => exact act_answers (by rw [hu]; decide) rfl
  case rdSelect => exact readSelect_answers hu
  case readEnd => exact readEnd_answers hu
  case stopPoll =>
    simp only [stopPhase, hu]
    exact (prepared_refl s).poll_answers (by rw [hu]; decide) (raise_answers _)
  case finishOk =>
    simp only [stopPhase, hu]
    exact finish_answers _
  case clearAf | start | sbStart | sbPoll | addrByte | addrStart | addrPoll | afNack | afTimeout =>
    exact (addressPhase_answers _ _ (by rw [hu]; decide)).mono (by decide)
  case r1Stop | r1Sr1 | r1Sr2 | r1Start | r1Poll | r1Read | r1Store =>
    exact (read1_answers (by rw [hu]; decide)).mono (by decide)
  case r2Pos | r2Sr1 | r2Sr2 | r2Start | r2Poll | r2Stop | r2Read1 | r2Store1 | r2Read2 | r2Store2 =>
    exact (read2_answers (by rw [hu]; decide)).mono (by decide)
  case rnSr2 | rnInit | rnPoll | rnRead | rnStore | rnNext | rnBtfAPoll | rnAckOff | rnStopA | rnReadA | rnStoreA
      | rnBtfBStart | rnBtfBPoll | rnStopB | rnReadB | rnStoreB | rnReadC | rnStoreC =>
    exact (readN_answers (by rw [hu]; decide)).mono (by decide)
  all_goals exact .foreign (by rw [hu]; simp [points, addressPoints, read1Points, read2Points, readNPointsA,
    readNPointsB, readEndPoints])

/-- Every step of a micro-program follows its arcs, ends the command, or stops. -/
theorem micro_answers (i : Instr) (s : State) : Answer (points i) (arcs i) s (micro i s) := by
  cases i with
  | openIf f => exact openStep_answers f s
  | close f => exact closeStep_answers f s
  | setFreq f => exact setFreqStep_answers f s
  | write f => exact writeStep_answers f s
  | read f => exact readStep_answers f s
  | writeRaw f => exact writeRawStep_answers f s
  | genStop f => exact genStopStep_answers f s

end Sys2Proof.Machine
end

section
/-! What the arcs show: every point of a micro-program goes on (10_state.md R27), which points write `cfg` and memory, and
which actions are adjacent (20_memory.md R54, 70_reset_and_hazards.md R224). -/

namespace Sys2Proof.Machine

/-! ### A step of a running command and its arc -/

theorem exec_answers {i : Instr} {s : State} (hr : Running i s) : Answer (points i) (arcs i) s (exec i s) := by
  rw [exec_run hr.1 hr.2]
  exact micro_answers i s

/-- A step of a running command follows an arc or ends the command. -/
theorem exec_goes_or_ends {i : Instr} {s t : State} (hr : Running i s) (h : exec i s = .next t) :
    (∃ e, Goes (arcs i) s t e) ∨
      ∃ r, t.hist = s.hist ++ [⟨s.cur.cmd.ifid, .done r⟩] ∧ t.phase = .idle ∧ CountsSamples s t := by
  have ha := exec_answers hr
  rw [h] at ha
  cases ha with
  | goes h => exact .inl ⟨_, h⟩
  | ends hist idle pcnt => exact .inr ⟨_, hist, idle, pcnt⟩

/-- The event a history grew by. -/
theorem event_eq_of_hist {l : List HistEntry} {i j : Ifid} {e e' : Event} (h : l ++ [⟨i, e⟩] = l ++ [⟨j, e'⟩]) :
    e = e' := by
  obtain ⟨-, he⟩ := HistEntry.mk.inj (List.singleton_inj.mp (List.append_cancel_left h))
  exact he

/-- A step that records an event other than `Done` follows an arc with that event. -/
theorem exec_goes_of_hist {i : Instr} {s t : State} {j : Ifid} {e : Event} (hr : Running i s) (h : exec i s = .next t)
    (hist : t.hist = s.hist ++ [⟨j, e⟩]) (he : ∀ r, e ≠ .done r) : Goes (arcs i) s t e := by
  obtain ⟨e', g⟩ | ⟨r, hist', -⟩ := exec_goes_or_ends hr h
  · cases event_eq_of_hist (g.hist.symm.trans hist)
    exact g
  · exact absurd (event_eq_of_hist (hist.symm.trans hist')) (he r)

/-- What holds of the arcs of each micro-program holds of every command's. -/
theorem forall_arcs {P : Arc → Prop} (hopen : ∀ a ∈ openArcs, P a) (hclose : ∀ a ∈ closeArcs, P a)
    (hsetFreq : ∀ a ∈ setFreqArcs, P a) (hwrite : ∀ a ∈ writeArcs, P a) (hread : ∀ a ∈ readArcs, P a)
    (hwriteRaw : ∀ a ∈ writeRawArcs, P a) (hgenStop : ∀ a ∈ genStopArcs, P a) (i : Instr) : ∀ a ∈ arcs i, P a := by
  cases i
  all_goals assumption

/-- Arcs lead from point to point of the micro-program. -/
theorem arc_target_mem_points {i : Instr} {a : Arc} (h : a ∈ arcs i) : a.2.2 ∈ points i := by
  cases i with
  | openIf f => exact (by decide : ∀ a ∈ openArcs, a.2.2 ∈ points (.openIf ⟨false, 0, 0, 0⟩)) a h
  | close f => exact (by decide : ∀ a ∈ closeArcs, a.2.2 ∈ points (.close ⟨false, 0, 0, 0⟩)) a h
  | setFreq f => exact (by decide : ∀ a ∈ setFreqArcs, a.2.2 ∈ points (.setFreq ⟨false, 0, 0, 0⟩)) a h
  | write f => exact (by decide : ∀ a ∈ writeArcs, a.2.2 ∈ points (.write ⟨false, 0, 0, 0⟩)) a h
  | read f => exact (by decide : ∀ a ∈ readArcs, a.2.2 ∈ points (.read ⟨false, 0, 0, 0⟩)) a h
  | writeRaw f => exact (by decide : ∀ a ∈ writeRawArcs, a.2.2 ∈ points (.writeRaw ⟨false, 0, 0, 0⟩)) a h
  | genStop f => exact (by decide : ∀ a ∈ genStopArcs, a.2.2 ∈ points (.genStop ⟨false, 0, 0, 0⟩)) a h

/-- Only a refused memory access keeps a command from its next action at a point of its micro-program. -/
theorem exec_proceeds {i : Instr} {s : State} (hr : Running i s) (hu : s.upc ∈ points i) (hadm : ¬ Refuses s) :
    ∃ t, exec i s = .next t := by
  have ha := exec_answers hr
  cases ho : exec i s with
  | next t => exact ⟨t, rfl⟩
  | fault r =>
    rw [ho] at ha
    cases ha with
    | stuck h => exact absurd h hadm
    | foreign h => exact absurd hu h
  | refused r =>
    rw [ho] at ha
    exact nomatch ha

/-- Settles O35: the step exists where memory admits the bytes; its arc leads to a point, or it ends. -/
theorem everyPointTakesOneAction : Obligations.EveryPointTakesOneAction := by
  intro i s hr hu hadm
  have hnot : ¬ Refuses s := by
    rintro (⟨-, h⟩ | ⟨k, -, h⟩)
    · exact Bool.false_ne_true (h.symm.trans (hadm s.idx).1)
    · exact Bool.false_ne_true (h.symm.trans (hadm k).2)
  obtain ⟨t, ht⟩ := exec_proceeds hr hu hnot
  obtain ⟨hout, hcur, -⟩ := eachStepIsOneEventOfTheCommand i s t hr ht
  obtain ⟨e, g⟩ | ⟨r, hist, hidle, -⟩ := exec_goes_or_ends hr ht
  · exact ⟨t, e, ht, hr.2 ▸ g.hist, hout, hcur, .inl ⟨g.phase.trans hr.1, arc_target_mem_points g.arc⟩⟩
  · exact ⟨t, .done r, ht, hr.2 ▸ hist, hout, hcur, .inr ⟨hidle, r, rfl⟩⟩

/-! ### Which points write `cfg` and memory -/

/-- `TIMING` is an action of SETFREQ_BODY alone (41_lifecycle.md R113). -/
theorem timing_arc {i : Instr} {u v : Upc} (h : (u, .timing 0, v) ∈ arcs i) : i.usesHz = true ∧ u = .freqTiming := by
  cases i with
  | openIf f => exact ⟨rfl, (by decide : ∀ a ∈ openArcs, a.2.1 = .timing 0 → a.1 = .freqTiming) _ h rfl⟩
  | setFreq f => exact ⟨rfl, (by decide : ∀ a ∈ setFreqArcs, a.2.1 = .timing 0 → a.1 = .freqTiming) _ h rfl⟩
  | close f => exact absurd rfl ((by decide : ∀ a ∈ closeArcs, a.2.1 ≠ .timing 0) _ h)
  | write f => exact absurd rfl ((by decide : ∀ a ∈ writeArcs, a.2.1 ≠ .timing 0) _ h)
  | read f => exact absurd rfl ((by decide : ∀ a ∈ readArcs, a.2.1 ≠ .timing 0) _ h)
  | writeRaw f => exact absurd rfl ((by decide : ∀ a ∈ writeRawArcs, a.2.1 ≠ .timing 0) _ h)
  | genStop f => exact absurd rfl ((by decide : ∀ a ∈ genStopArcs, a.2.1 ≠ .timing 0) _ h)

theorem usesHz_iff {i : Instr} : i.usesHz = true ↔ (∃ f, i = .openIf f) ∨ ∃ f, i = .setFreq f := by
  cases i <;> simp [Instr.usesHz]

/-- Settles O49: the event of a step that writes `cfg` is `TIMING`, and its arc starts at the `TIMING` point. -/
theorem configurationIsWrittenOnlyByTiming : Obligations.ConfigurationIsWrittenOnlyByTiming := by
  intro i s t h
  obtain ⟨e, hist, ⟨hc, he⟩ | ⟨rfl, hrun, hc⟩⟩ := exec_event h
  · exact .inl ⟨hc, fun hz hh => he hz (event_eq_of_hist (hist.symm.trans hh))⟩
  · obtain ⟨hidle, -⟩ | ⟨-, hi, -⟩ := exec_cases h
    · exact nomatch hidle.symm.trans hrun
    obtain ⟨huses, hu⟩ := timing_arc (exec_goes_of_hist ⟨hrun, hi⟩ h hist nofun).arc
    refine .inr ⟨usesHz_iff.mp huses, hrun, hu, hist, fun j => ?_⟩
    rw [hc]
    split
    case isTrue hj =>
      subst hj
      exact cfg_setIfInBounds_same
    case isFalse hj => exact cfg_setIfInBounds_of_ne hj

/-- A byte is stored by READ alone (43_read.md R166). -/
theorem memWrite_arc {i : Instr} {u v : Upc} (h : (u, .memWrite 0 0, v) ∈ arcs i) : ∃ f, i = .read f := by
  cases i with
  | read f => exact ⟨f, rfl⟩
  | openIf f => exact absurd rfl ((by decide : ∀ a ∈ openArcs, a.2.1 ≠ .memWrite 0 0) _ h)
  | setFreq f => exact absurd rfl ((by decide : ∀ a ∈ setFreqArcs, a.2.1 ≠ .memWrite 0 0) _ h)
  | close f => exact absurd rfl ((by decide : ∀ a ∈ closeArcs, a.2.1 ≠ .memWrite 0 0) _ h)
  | write f => exact absurd rfl ((by decide : ∀ a ∈ writeArcs, a.2.1 ≠ .memWrite 0 0) _ h)
  | writeRaw f => exact absurd rfl ((by decide : ∀ a ∈ writeRawArcs, a.2.1 ≠ .memWrite 0 0) _ h)
  | genStop f => exact absurd rfl ((by decide : ∀ a ∈ genStopArcs, a.2.1 ≠ .memWrite 0 0) _ h)

/-- A step that changes memory is a READ's at a store point. -/
theorem exec_mem {i : Instr} {s t : State} (h : exec i s = .next t) : t.mem = s.mem ∨
    s.phase = .run ∧ (∃ f, i = .read f) ∧ ∃ k, storeIndex s = some k := by
  obtain ⟨-, -, rfl⟩ | ⟨hrun, hi, -, e, m⟩ := exec_cases h
  · exact .inl rfl
  · obtain ⟨hm, -⟩ | ⟨a, v, rfl, -⟩ := m.mem
    · exact .inl hm
    · have g := exec_goes_of_hist ⟨hrun, hi⟩ h m.hist nofun
      obtain ⟨-, k, hk, -⟩ := g.data
      exact .inr ⟨hrun, memWrite_arc g.arc, k, hk⟩

/-- Settles O50: the frame is `exec_mem`, and at a store point a READ is `storeByte`. -/
theorem memoryIsWrittenOnlyByRead : Obligations.MemoryIsWrittenOnlyByRead := by
  refine fun i s t h => ⟨fun hno => ?_, fun k hwf hr hread hk => ?_⟩
  · obtain hm | ⟨hrun, ⟨f, hf⟩, k, hk⟩ := exec_mem h
    · exact hm
    · obtain hi | hidle | hnone := hno
      · exact absurd hf (hi f)
      · exact nomatch hrun.symm.trans hidle
      · exact nomatch hk.symm.trans hnone
  · obtain ⟨f, rfl⟩ := hread
    rw [exec_at_storeIndex hr hk, storeByte] at h
    split at h
    · cases h
      exact ⟨Memory.get_set_same hwf _ _, fun a ha => memGet_memSet_ne _ _ ha⟩
    · exact nomatch h

/-! ### Adjacent actions -/

/-- The kind of the action that must come right before a point (20_memory.md R54, 70_reset_and_hazards.md R224). -/
def precededBy : Upc → Option Event
  | .outSend | .outSendB => some (.memRead 0 0)
  | .outNext | .outNextB => some (.drWrite 0)
  | .r1Store | .r2Store1 | .r2Store2 | .rnStore | .rnStoreA | .rnStoreB | .rnStoreC => some (.drRead 0)
  | .wrSr2 | .r1Sr2 | .r2Sr2 | .rnSr2 => some .sr1
  | _ => none

/-- Every arc to such a point has that action. -/
theorem arc_precededBy (i : Instr) : ∀ a ∈ arcs i, ∀ e ∈ precededBy a.2.2, a.2.1 = e := by
  refine forall_arcs ?_ ?_ ?_ ?_ ?_ ?_ ?_ i
  all_goals decide

/-- The address byte is not sent to a point that a data byte is sent to. -/
theorem arc_addrByte (i : Instr) : ∀ a ∈ arcs i, a.1 = .addrByte → a.2.2 = .addrStart := by
  refine forall_arcs ?_ ?_ ?_ ?_ ?_ ?_ ?_ i
  all_goals decide

/-- The action right before a point, with the registers' data in it. -/
def lastAction (s : State) : Option Event :=
  match s.upc with
  | .outSend | .outSendB => some (.memRead (bufAddr s.cur.buf s.idx) s.dat)
  | .outNext | .outNextB => some (.drWrite s.dat)
  | .r1Store | .r2Store1 | .r2Store2 | .rnStore | .rnStoreA | .rnStoreB | .rnStoreC => some (.drRead s.dat)
  | .wrSr2 | .r1Sr2 | .r2Sr2 | .rnSr2 => some .sr1
  | _ => none

theorem adjacent_iff {s : State} :
    Adjacent s ↔ (s.phase = .run → ∀ e ∈ lastAction s, lastEvent s = some e) := by
  unfold Adjacent lastAction
  cases s.upc <;> simp

theorem precededBy_eq_bare_lastAction (s : State) : precededBy s.upc = (lastAction s).map bare := by
  unfold precededBy lastAction
  cases s.upc <;> rfl

/-! At an arc the kind of its event gives the event, since the data is in the registers. -/

section

variable {as : List Arc} {s t : State} {e : Event}

theorem Goes.eq_memRead (g : Goes as s t e) (h : bare e = .memRead 0 0) :
    e = .memRead (bufAddr t.cur.buf t.idx) t.dat := by
  cases e with
  | memRead a v =>
    obtain ⟨rfl, hidx, rfl⟩ := g.data
    rw [g.cur, hidx]
  | _ => exact nomatch h

theorem Goes.eq_drRead (g : Goes as s t e) (h : bare e = .drRead 0) : e = .drRead t.dat := by
  cases e with
  | drRead b => exact congrArg Event.drRead g.data
  | _ => exact nomatch h

theorem Goes.eq_drWrite (g : Goes as s t e) (h : bare e = .drWrite 0) (hu : s.upc ≠ .addrByte) : e = .drWrite t.dat := by
  cases e with
  | drWrite b =>
    obtain hb | ⟨rfl, hdat⟩ := g.data
    · exact absurd hb hu
    · rw [hdat]
  | _ => exact nomatch h

theorem eq_sr1_of_bare (h : bare e = .sr1) : e = .sr1 := by
  cases e with
  | sr1 => rfl
  | _ => exact nomatch h

end

/-- An arc's event is the one the registers of its target show. -/
theorem Goes.eq_lastAction {i : Instr} {s t : State} {e e' : Event} (g : Goes (arcs i) s t e) (h : e' ∈ lastAction t) :
    e = e' := by
  have hp : bare e' ∈ precededBy t.upc := by
    rw [precededBy_eq_bare_lastAction]
    exact Option.mem_map_of_mem bare h
  have hbare : bare e = bare e' := arc_precededBy i _ g.arc _ hp
  unfold lastAction at h
  split at h
  case h_1 | h_2 =>
    cases h
    exact g.eq_memRead hbare
  case h_3 hu | h_4 hu =>
    cases h
    exact g.eq_drWrite hbare fun hs => absurd (hu.symm.trans (arc_addrByte i _ g.arc hs)) (by decide)
  case h_12 | h_13 | h_14 | h_15 =>
    cases h
    exact eq_sr1_of_bare hbare
  case h_16 => exact nomatch h
  all_goals
    cases h
    exact g.eq_drRead hbare

/-- After every step of a command the last event is the action the registers show, whatever came before. -/
theorem exec_adjacent {i : Instr} {s t : State} (h : exec i s = .next t) : Adjacent t := by
  refine adjacent_iff.mpr fun hrun e' he' => ?_
  obtain ⟨-, -, rfl⟩ | ⟨hp, hi, -⟩ := exec_cases h
  · exact nomatch he'
  · obtain ⟨e, g⟩ | ⟨r, -, hidle, -⟩ := exec_goes_or_ends ⟨hp, hi⟩ h
    · rw [← g.eq_lastAction he']
      exact lastEvent_of_hist g.hist
    · exact nomatch hrun.symm.trans hidle

/-- Settles O57: an arc to such a point has its action, and neither the host nor a reset puts the engine at one. -/
theorem stepKeepsAdjacency : Obligations.StepKeepsAdjacency := fun _ _ =>
  step_preserves (fun _ _ _ _ _ h => exec_adjacent h) (fun _ _ _ _ _ _ hs => hs) fun _ => nofun

/-- A data byte is sent where a byte was read, and the second status read follows the first (42_write.md R133, R134). -/
theorem arc_event_precededBy (i : Instr) : ∀ a ∈ arcs i,
    (a.2.1 = .drWrite 0 → a.1 ≠ .addrByte → precededBy a.1 = some (.memRead 0 0)) ∧
    (a.2.1 = .sr2 → precededBy a.1 = some .sr1) := by
  refine forall_arcs ?_ ?_ ?_ ?_ ?_ ?_ ?_ i
  all_goals decide

theorem precededBy_of_storeIndex {s : State} {k : Count} (h : storeIndex s = some k) :
    precededBy s.upc = some (.drRead 0) := by
  unfold storeIndex at h
  split at h
  case h_8 => exact nomatch h
  all_goals
    rename_i hu
    rw [hu]
    rfl

/-- The last event of an adjacent state at a point with a given action before it: that action, with the registers' data. -/
theorem Adjacent.lastEvent_eq {s : State} (hs : Adjacent s) (hrun : s.phase = .run) {b : Event}
    (h : precededBy s.upc = some b) : ∃ e, bare e = b ∧ e ∈ lastAction s ∧ lastEvent s = some e := by
  rw [precededBy_eq_bare_lastAction, Option.map_eq_some_iff] at h
  obtain ⟨e, he, hb⟩ := h
  exact ⟨e, hb, he, adjacent_iff.mp hs hrun e he⟩

theorem lastAction_memRead {s : State} {a : Word} {v : Byte} (h : .memRead a v ∈ lastAction s) :
    a = bufAddr s.cur.buf s.idx ∧ v = s.dat := by
  unfold lastAction at h
  split at h <;> cases h
  all_goals exact ⟨rfl, rfl⟩

theorem lastAction_drRead {s : State} {b : Byte} (h : .drRead b ∈ lastAction s) : b = s.dat := by
  unfold lastAction at h
  split at h <;> cases h
  all_goals rfl

/-- Settles O60: the point of the second action shows the first as its last action. -/
theorem bytesMoveInAdjacentSteps : Obligations.BytesMoveInAdjacentSteps := by
  refine fun i s t j hs hr h => ⟨fun b hist hu => ?_, fun a b hist => ?_, fun hist => ?_⟩
  · have g := exec_goes_of_hist hr h hist nofun
    obtain ⟨e, hb, he, hlast⟩ := hs.lastEvent_eq hr.1 ((arc_event_precededBy i _ g.arc).1 rfl hu)
    obtain hu' | ⟨rfl, -⟩ := g.data
    · exact absurd hu' hu
    · cases e with
      | memRead a v =>
        obtain ⟨rfl, rfl⟩ := lastAction_memRead he
        exact hlast
      | _ => exact nomatch hb
  · have g := exec_goes_of_hist hr h hist nofun
    obtain ⟨rfl, k, hk, -⟩ := g.data
    obtain ⟨e, hb, he, hlast⟩ := hs.lastEvent_eq hr.1 (precededBy_of_storeIndex hk)
    cases e with
    | drRead v =>
      cases lastAction_drRead he
      exact hlast
    | _ => exact nomatch hb
  · have g := exec_goes_of_hist hr h hist nofun
    obtain ⟨e, hb, -, hlast⟩ := hs.lastEvent_eq hr.1 ((arc_event_precededBy i _ g.arc).2 rfl)
    rw [hlast, eq_sr1_of_bare hb]

end Sys2Proof.Machine
end

section
/-! The registers at each point (10_state.md R26, 60_exceptions.md R200) and the steps that are left from it
(40_bounded_poll.md R100): every action of a running command leads to a point where the registers are right again and
fewer steps are left. -/

namespace Sys2Proof.Machine

/-! ### The steps left -/

/-- The most steps left at the loop test of DATA_OUT with `r` bytes to send, for a short budget `b` (42_write.md R134). -/
def outLeft (b r : Nat) : Nat := 2 * b + 3 + r * (b + 3)

/-- The most steps left at the loop test of READ_N with `r` bytes to receive (43_read.md R163). -/
def readLeft (b r : Nat) : Nat := 3 * b + 9 + (r - 3) * (b + 2)

/-- The most steps left once the address is acknowledged. -/
def addressedLeft (b : Nat) : Instr → Nat
  | .write f => outLeft b f.count.toNat + 2
  | .read f  => if f.count.toNat = 1 then 2 * b + 7 else if f.count.toNat = 2 then 2 * b + 10
    else readLeft b f.count.toNat + 2
  | _        => 2

/-- The extra step of a READ_N that asserts STOP after the second BTF wait (43_read.md R163). -/
def lateStop (p : Platform) : Nat := if p.read3Stop = .afterBtfB then 1 else 0

/-- The most steps a running command takes from a state to its end. -/
def stepsLeft (s : State) : Nat :=
  let b := s.platform.shortBudget
  let l := s.platform.longBudget
  let r := s.rem.toNat
  match s.upc with
  | .entry => stepBound s.platform s.cur.cmd
  | .finishOk | .closeTimeout | .afNack | .afTimeout | .outNack => 1
  | .openReset => l + 4
  | .openPins => l + 3
  | .freqBody => l + 2
  | .freqPoll | .closePoll => l - s.pcnt + 2
  | .freqTiming | .closeDisable => 2
  | .setAck => 2 * b + addressedLeft b s.cur.cmd + 4
  | .clearAf => 2 * b + addressedLeft b s.cur.cmd + 3
  | .start => 2 * b + addressedLeft b s.cur.cmd + 2
  | .sbStart => 2 * b + addressedLeft b s.cur.cmd + 1
  | .sbPoll => b - s.pcnt + (b + addressedLeft b s.cur.cmd + 1)
  | .addrByte => b + addressedLeft b s.cur.cmd + 1
  | .addrStart => b + addressedLeft b s.cur.cmd
  | .addrPoll => b - s.pcnt + addressedLeft b s.cur.cmd
  | .wrSr1 | .rdSelect => addressedLeft b s.cur.cmd
  | .wrSr2 => outLeft b s.cur.cmd.count.toNat + 1
  | .outInit => outLeft b s.cur.cmd.count.toNat
  | .txePoll => b - s.pcnt + (outLeft b (r - 1) + 3)
  | .outRead => outLeft b (r - 1) + 3
  | .outSend => outLeft b (r - 1) + 2
  | .outNext => outLeft b (r - 1) + 1
  | .outLoop => outLeft b r
  | .outReadB => outLeft b (r - 1) + 2
  | .outSendB => outLeft b (r - 1) + 1
  | .outNextB => outLeft b (r - 1)
  | .txeFinalPoll => b - s.pcnt + (b + 3)
  | .outAf => b + 3
  | .outStop => b + 2
  | .stopStart | .readEnd => b + 1
  | .stopPoll => b - s.pcnt + 1
  | .r1Stop => 2 * b + 6
  | .r1Sr1 => 2 * b + 5
  | .r1Sr2 => 2 * b + 4
  | .r1Start => 2 * b + 3
  | .r1Poll => b - s.pcnt + (b + 3)
  | .r1Read => b + 3
  | .r1Store | .r2Store2 | .rnStoreC => b + 2
  | .r2Pos => 2 * b + 9
  | .r2Sr1 => 2 * b + 8
  | .r2Sr2 => 2 * b + 7
  | .r2Start => 2 * b + 6
  | .r2Poll => b - s.pcnt + (b + 6)
  | .r2Stop => b + 6
  | .r2Read1 => b + 5
  | .r2Store1 => b + 4
  | .r2Read2 => b + 3
  | .rnSr2 => readLeft b s.cur.cmd.count.toNat + 1
  | .rnInit => readLeft b s.cur.cmd.count.toNat
  | .rnPoll => b - s.pcnt + (readLeft b (r - 1) + 2)
  | .rnRead => readLeft b (r - 1) + 2
  | .rnStore => readLeft b (r - 1) + 1
  | .rnNext => readLeft b (r - 1)
  | .rnBtfAPoll => b - s.pcnt + (2 * b + 9)
  | .rnAckOff => 2 * b + 9
  | .rnStopA => 2 * b + 8
  | .rnReadA => 2 * b + 7 + lateStop s.platform
  | .rnStoreA => 2 * b + 6 + lateStop s.platform
  | .rnBtfBStart => 2 * b + 5 + lateStop s.platform
  | .rnBtfBPoll => b - s.pcnt + (b + 5 + lateStop s.platform)
  | .rnStopB => b + 5 + lateStop s.platform
  | .rnReadB => b + 5
  | .rnStoreB => b + 4
  | .rnReadC => b + 3

theorem outLeft_succ (b r : Nat) : outLeft b (r + 1) = outLeft b r + b + 3 := by
  simp only [outLeft, Nat.succ_mul]
  omega

theorem readLeft_succ (b : Nat) {r : Nat} (h : 3 ≤ r) : readLeft b (r + 1) = readLeft b r + b + 2 := by
  simp only [readLeft, show r + 1 - 3 = r - 3 + 1 by omega, Nat.succ_mul]
  omega

theorem two_le_addressedLeft (b : Nat) (i : Instr) : 2 ≤ addressedLeft b i := by
  cases i with
  | read f =>
    simp only [addressedLeft]
    split_ifs <;> omega
  | openIf f | close f | setFreq f | write f | writeRaw f | genStop f =>
    simp only [addressedLeft]
    omega

theorem stepBound_pos (p : Platform) (i : Instr) : 0 < stepBound p i := by
  cases i with
  | read f =>
    simp only [stepBound]
    split <;> omega
  | openIf f | close f | setFreq f | genStop f | write f | writeRaw f =>
    simp only [stepBound]
    omega

/-- A running command has a step to go. -/
theorem stepsLeft_pos (s : State) : 0 < stepsLeft s := by
  have h2 := two_le_addressedLeft s.platform.shortBudget s.cur.cmd
  have hb := stepBound_pos s.platform s.cur.cmd
  cases hu : s.upc
  all_goals
    simp only [stepsLeft, hu, outLeft, readLeft]
    omega

/-! ### Where an action lands -/

/-- The condition of the poll at a loop point. -/
def pollCond : Upc → Option Cond
  | .freqPoll | .closePoll => some .idle
  | .sbPoll => some .sb
  | .addrPoll => some .addr
  | .txePoll | .txeFinalPoll => some .txe
  | .r1Poll | .rnPoll => some .rxne
  | .r2Poll | .rnBtfAPoll | .rnBtfBPoll => some .btf
  | .stopPoll => some .stopclr
  | _ => none

theorem pollCond_of_pollLoop {i : Instr} {u : Upc} {c : Cond} {ok : Upc} (h : pollLoop i u = some (c, ok)) :
    pollCond u = some c := by
  unfold pollLoop at h
  split at h <;> cases h <;> rfl

/-- The samples taken are within the poll's budget (40_bounded_poll.md R90). -/
def WithinBudget (s : State) : Prop := ∀ c ∈ pollCond s.upc, s.pcnt ≤ budget s.platform c

/-- An action from `s` ends the command, or leads to a point where the registers are right and fewer steps are left. -/
def Lands (s : State) (o : Step) : Prop :=
  ∀ t, o = .next t → t.phase = .run → AtPoint t ∧ WithinBudget t ∧ stepsLeft t < stepsLeft s

section

variable {s s' t : State}

/-- Two states with the same point and the same registers behind it. -/
structure SameRegisters (s t : State) : Prop where
  upc      : t.upc = s.upc
  rem      : t.rem = s.rem
  idx      : t.idx = s.idx
  pcnt     : t.pcnt = s.pcnt
  cur      : t.cur = s.cur
  platform : t.platform = s.platform

theorem SameRegisters.atPoint (h : SameRegisters s t) : AtPoint t ↔ AtPoint s := by
  simp only [AtPoint, Counts, h.upc, h.rem, h.idx, h.cur, h.platform]

theorem SameRegisters.withinBudget (h : SameRegisters s t) : WithinBudget t ↔ WithinBudget s := by
  simp only [WithinBudget, h.upc, h.pcnt, h.platform]

theorem SameRegisters.stepsLeft_eq (h : SameRegisters s t) : stepsLeft t = stepsLeft s := by
  simp only [stepsLeft, h.upc, h.rem, h.pcnt, h.cur, h.platform]

/-- Landing at `u` with the registers of `s'`. -/
def LandsAt (s s' : State) (u : Upc) : Prop :=
  AtPoint { s' with upc := u } ∧ WithinBudget { s' with upc := u } ∧ stepsLeft { s' with upc := u } < stepsLeft s

theorem lands_next {u : Upc} (h : LandsAt s s' u) (ht : SameRegisters { s' with upc := u } t) : Lands s (.next t) := by
  rintro _ ⟨⟩ -
  obtain ⟨hat, hwithin, hleft⟩ := h
  exact ⟨ht.atPoint.mpr hat, ht.withinBudget.mpr hwithin, ht.stepsLeft_eq ▸ hleft⟩

/-- Landing at a point that is no poll's loop. -/
theorem landsAt_nonPoll {u : Upc} (hat : AtPoint { s' with upc := u }) (hc : pollCond u = none)
    (hl : stepsLeft { s' with upc := u } < stepsLeft s) : LandsAt s s' u := by
  refine ⟨hat, fun c h => ?_, hl⟩
  rw [show pollCond u = none from hc] at h
  exact nomatch h

theorem lands_fault (r : Fault) : Lands s (.fault r) := fun _ h => nomatch h

theorem lands_ite {c : Prop} [Decidable c] {a b : Step} (ha : c → Lands s a) (hb : ¬ c → Lands s b) :
    Lands s (if c then a else b) := by
  split
  case isTrue h => exact ha h
  case isFalse h => exact hb h

theorem act_lands {e : Event} {nxt : Upc} (h : LandsAt s s' nxt) : Lands s (act e nxt s') :=
  lands_next h ⟨rfl, rfl, rfl, rfl, rfl, rfl⟩

theorem receiveByte_lands {nxt : Upc} (h : LandsAt s s' nxt) : Lands s (receiveByte nxt s') :=
  lands_next h ⟨rfl, rfl, rfl, rfl, rfl, rfl⟩

theorem programTiming_lands {nxt : Upc} (h : LandsAt s s' nxt) : Lands s (programTiming nxt s') :=
  lands_next h ⟨rfl, rfl, rfl, rfl, rfl, rfl⟩

theorem loadByte_lands {k : Count} {nxt : Upc} (h : LandsAt s s' nxt) : Lands s (loadByte k nxt s') :=
  lands_ite (fun _ => lands_next h ⟨rfl, rfl, rfl, rfl, rfl, rfl⟩) fun _ => lands_fault _

theorem storeByte_lands {k : Count} {nxt : Upc} (h : LandsAt s s' nxt) : Lands s (storeByte k nxt s') :=
  lands_ite (fun _ => lands_next h ⟨rfl, rfl, rfl, rfl, rfl, rfl⟩) fun _ => lands_fault _

theorem sample_lands {c : Cond} {yes no : Upc} (hyes : LandsAt s s' yes) (hno : LandsAt s s' no) :
    Lands s (sample c yes no s') := by
  unfold sample
  cases answer c s'
  · exact lands_next hno ⟨rfl, rfl, rfl, rfl, rfl, rfl⟩
  · exact lands_next hyes ⟨rfl, rfl, rfl, rfl, rfl, rfl⟩

theorem finish_lands (r : Result) : Lands s (finish r s') := by
  rintro _ ⟨⟩ hrun
  exact nomatch hrun

theorem raise_lands (e : Err) : Lands s (raise e s') := finish_lands _

/-- A poll from whose end at most `n` steps are left lands at its loop point with a sample more, or past it; with a
used-up budget it does what follows. -/
theorem poll_lands {c : Cond} {loop ok : Upc} {fail : State → Step} {n : Nat}
    (hloop : AtPoint { s' with upc := loop }) (hok : AtPoint { s' with upc := ok })
    (hcloop : pollCond loop = some c) (hcok : pollCond ok = none)
    (hnloop : ∀ k, stepsLeft { s' with pcnt := k, upc := loop } = budget s'.platform c - k + n)
    (hnok : ∀ k, stepsLeft { s' with pcnt := k, upc := ok } ≤ n)
    (hn : budget s'.platform c - s'.pcnt + n ≤ stepsLeft s) (hf : Lands s (fail s')) :
    Lands s (poll c loop ok fail s') := by
  refine lands_ite (fun hb => ?_) fun _ => hf
  have hatk (u : Upc) : AtPoint { s' with pcnt := s'.pcnt + 1, upc := u } ↔ AtPoint { s' with upc := u } := Iff.rfl
  cases answer c s'
  · refine lands_next (s' := { s' with pcnt := s'.pcnt + 1 }) ⟨(hatk loop).mpr hloop, fun c' hc' => ?_, ?_⟩
      ⟨rfl, rfl, rfl, rfl, rfl, rfl⟩
    · cases hcloop.symm.trans hc'
      exact hb
    · exact (hnloop _).trans_lt (by dsimp only; omega)
  · refine lands_next (s' := { s' with pcnt := s'.pcnt + 1 })
      (landsAt_nonPoll ((hatk ok).mpr hok) hcok ?_) ⟨rfl, rfl, rfl, rfl, rfl, rfl⟩
    exact (hnok _).trans_lt (by omega)

theorem startPoll_lands {c : Cond} {loop ok : Upc} {fail : State → Step} {n : Nat}
    (hloop : AtPoint { s' with upc := loop }) (hok : AtPoint { s' with upc := ok })
    (hcloop : pollCond loop = some c) (hcok : pollCond ok = none)
    (hnloop : ∀ k, stepsLeft { s' with pcnt := k, upc := loop } = budget s'.platform c - k + n)
    (hnok : ∀ k, stepsLeft { s' with pcnt := k, upc := ok } ≤ n)
    (hn : budget s'.platform c + n ≤ stepsLeft s) (hf : ∀ s', Lands s (fail s')) :
    Lands s (startPoll c loop ok fail s') :=
  poll_lands (s' := { s' with pcnt := 0 }) hloop hok hcloop hcok hnloop hnok hn (hf _)

end

/-! ### The shared sub-programs -/

section

variable {s : State}

theorem addressPhase_lands {dir : Bool} {done : Upc} (hat : AtPoint { s with upc := done })
    (hc : pollCond done = none)
    (hl : ∀ k, stepsLeft { s with pcnt := k, upc := done } ≤ addressedLeft s.platform.shortBudget s.cur.cmd) :
    Lands s (addressPhase dir done s) := by
  have h2 := two_le_addressedLeft s.platform.shortBudget s.cur.cmd
  have hclassify (hs : 1 < stepsLeft s) (s' : State) : Lands s (classifyAddress s') :=
    sample_lands (landsAt_nonPoll trivial rfl hs) (landsAt_nonPoll trivial rfl hs)
  unfold addressPhase
  split <;> rename_i hu
  · exact act_lands (landsAt_nonPoll trivial rfl (by simp only [stepsLeft, hu]; omega))
  · exact act_lands (landsAt_nonPoll trivial rfl (by simp only [stepsLeft, hu]; omega))
  · exact startPoll_lands (n := s.platform.shortBudget + addressedLeft s.platform.shortBudget s.cur.cmd + 1)
      trivial trivial rfl rfl (fun _ => rfl) (fun _ => le_rfl) (by simp only [stepsLeft, hu, budget]; omega)
      fun _ => raise_lands _
  · exact poll_lands trivial trivial rfl rfl (fun _ => rfl) (fun _ => le_rfl) (by simp only [stepsLeft, hu, budget]; rfl)
      (raise_lands _)
  · exact act_lands (landsAt_nonPoll trivial rfl (by simp only [stepsLeft, hu]; omega))
  · exact startPoll_lands (n := addressedLeft s.platform.shortBudget s.cur.cmd) trivial hat rfl hc (fun _ => rfl) hl
      (by simp only [stepsLeft, hu, budget]; omega) (hclassify (by simp only [stepsLeft, hu]; omega))
  · exact poll_lands (n := addressedLeft s.platform.shortBudget s.cur.cmd) trivial hat rfl hc (fun _ => rfl) hl
      (by simp only [stepsLeft, hu, budget]; omega) (hclassify (by simp only [stepsLeft, hu]; omega) s)
  · exact raise_lands _
  · exact raise_lands _
  · exact lands_fault _

/-! SETFREQ_BODY and the wait for a stop. -/

theorem freqCheck_lands (hl : s.platform.longBudget + 2 ≤ stepsLeft s) : Lands s (freqCheck s) :=
  lands_ite (fun _ => raise_lands _) fun hz =>
    startPoll_lands (n := 2) (Nat.not_lt.mp hz) (Nat.not_lt.mp hz) rfl rfl (fun _ => rfl) (fun _ => le_rfl) hl
      fun _ => raise_lands _

theorem setFreqBody_lands (h : AtPoint s) : Lands s (setFreqBody s) := by
  unfold setFreqBody
  split <;> rename_i hu
  · exact freqCheck_lands (by simp only [stepsLeft, hu]; rfl)
  · simp only [AtPoint, hu] at h
    exact poll_lands (n := 2) h h rfl rfl (fun _ => rfl) (fun _ => le_rfl) (by simp only [stepsLeft, hu, budget]; rfl)
      (raise_lands _)
  · exact programTiming_lands (landsAt_nonPoll trivial rfl (by simp only [stepsLeft, hu]; omega))
  · exact finish_lands _
  · exact lands_fault _

theorem stopWait_lands (hl : s.platform.shortBudget + 1 ≤ stepsLeft s) : Lands s (stopWait s) :=
  startPoll_lands (n := 1) trivial trivial rfl rfl (fun _ => rfl) (fun _ => le_rfl) hl fun _ => raise_lands _

theorem stopPhase_lands (n : Count) : Lands s (stopPhase n s) := by
  unfold stopPhase
  split <;> rename_i hu
  · exact stopWait_lands (by simp only [stepsLeft, hu]; rfl)
  · exact poll_lands (n := 1) trivial trivial rfl rfl (fun _ => rfl) (fun _ => le_rfl)
      (by simp only [stepsLeft, hu, budget]; rfl) (raise_lands _)
  · exact finish_lands _
  · exact lands_fault _

/-! DATA_OUT. -/

/-- The two transfer registers of the pseudocode's `idx <- idx + 1; rem <- rem - 1` keep their sum. -/
theorem counts_advance (h : Counts s) (h0 : s.rem ≠ 0) : Counts (advance s) ∧
    (advance s).rem.toNat = s.rem.toNat - 1 ∧ (advance s).idx.toNat = s.idx.toNat + 1 := by
  have hn := s.cur.cmd.count.isLt
  have hpos : s.rem.toNat ≠ 0 := fun h0' => h0 (BitVec.eq_of_toNat_eq h0')
  have hrem : (s.rem - 1).toNat = s.rem.toNat - 1 := by
    rw [BitVec.toNat_sub_of_le (by bv_omega)]
    rfl
  have hidx : (s.idx + 1).toNat = s.idx.toNat + 1 := by
    unfold Counts at h
    bv_omega
  refine ⟨?_, hrem, hidx⟩
  simp only [Counts, advance_rem, advance_idx, advance_cur, hrem, hidx] at h ⊢
  omega

theorem counts_initTransfer (s : State) : Counts (initTransfer s) := by
  simp [Counts]

theorem txeFinal_lands {s' : State} (hc : Counts s') (h0 : s'.rem = 0)
    (hl : outLeft s'.platform.shortBudget 0 ≤ stepsLeft s) : Lands s (txeFinal s') :=
  startPoll_lands (n := s'.platform.shortBudget + 3) ⟨hc, h0⟩ ⟨hc, h0⟩ rfl rfl (fun _ => rfl) (fun _ => le_rfl)
    (by simp only [outLeft, budget] at hl ⊢; omega) fun _ => raise_lands _

theorem outTop_lands {s' : State} (hc : Counts s')
    (hl : outLeft s'.platform.shortBudget s'.rem.toNat ≤ stepsLeft s) : Lands s (outTop s') := by
  refine lands_ite (fun h0 => ?_) fun h0 => ?_
  · exact txeFinal_lands hc h0 (by rw [h0] at hl; exact hl)
  · obtain ⟨r, hr⟩ := Nat.exists_eq_succ_of_ne_zero fun hz => h0 (BitVec.eq_of_toNat_eq hz)
    rw [hr, outLeft_succ] at hl
    refine startPoll_lands (n := outLeft s'.platform.shortBudget r + 3) ⟨hc, h0⟩ ⟨hc, h0⟩ rfl rfl (fun k => ?_)
      (fun k => ?_) (by simp only [budget]; omega) fun _ => raise_lands _
    · simp only [stepsLeft, hr, budget, Nat.succ_sub_one]
    · simp only [stepsLeft, hr, Nat.succ_sub_one, le_refl]

theorem outShortcut_lands {s' : State} (hc : Counts s')
    (hl : outLeft s'.platform.shortBudget s'.rem.toNat < stepsLeft s) : Lands s (outShortcut s') := by
  refine lands_ite (fun h0 => ?_) fun h0 => ?_
  · exact txeFinal_lands hc h0 (by rw [h0] at hl; exact hl.le)
  · obtain ⟨r, hr⟩ := Nat.exists_eq_succ_of_ne_zero fun hz => h0 (BitVec.eq_of_toNat_eq hz)
    rw [hr, outLeft_succ] at hl
    refine sample_lands (landsAt_nonPoll ⟨hc, h0⟩ rfl ?_) (landsAt_nonPoll ⟨hc, h0⟩ rfl ?_)
    · change outLeft s'.platform.shortBudget (s'.rem.toNat - 1) + 2 < stepsLeft s
      rw [hr, Nat.succ_sub_one]
      omega
    · change outLeft s'.platform.shortBudget s'.rem.toNat < stepsLeft s
      rw [hr, outLeft_succ]
      exact hl

theorem dataOut_lands (h : AtPoint s) : Lands s (dataOut s) := by
  unfold dataOut
  split <;> rename_i hu <;> simp only [AtPoint, hu] at h
  · exact outTop_lands (counts_initTransfer s) (by simp only [stepsLeft, hu]; rfl)
  · exact poll_lands h h rfl rfl (fun _ => rfl) (fun _ => le_rfl) (by simp only [stepsLeft, hu, budget]; rfl)
      (raise_lands _)
  · exact loadByte_lands (landsAt_nonPoll h rfl (by simp only [stepsLeft, hu]; omega))
  · exact act_lands (landsAt_nonPoll h rfl (by simp only [stepsLeft, hu]; omega))
  · obtain ⟨hc, hrem, -⟩ := counts_advance h.1 h.2
    exact outShortcut_lands hc (by simp only [stepsLeft, hu, hrem, advance_platform]; omega)
  · exact outTop_lands h.1 (by simp only [stepsLeft, hu]; rfl)
  · exact loadByte_lands (landsAt_nonPoll h rfl (by simp only [stepsLeft, hu]; omega))
  · exact act_lands (landsAt_nonPoll h rfl (by simp only [stepsLeft, hu]; omega))
  · obtain ⟨hc, hrem, -⟩ := counts_advance h.1 h.2
    exact outTop_lands hc (by simp only [stepsLeft, hu, hrem, advance_platform]; rfl)
  · exact poll_lands h h rfl rfl (fun _ => rfl) (fun _ => le_rfl) (by simp only [stepsLeft, hu, budget]; rfl)
      (raise_lands _)
  · exact sample_lands (landsAt_nonPoll h rfl (by simp only [stepsLeft, hu]; omega))
      (landsAt_nonPoll h rfl (by simp only [stepsLeft, hu]; omega))
  · exact raise_lands _
  · exact lands_ite (fun _ => act_lands (landsAt_nonPoll trivial rfl (by simp only [stepsLeft, hu]; omega)))
      fun _ => finish_lands _
  · exact stopPhase_lands _

/-! The sub-protocols of READ. -/

theorem read1_lands (h : AtPoint s) : Lands s (read1 s) := by
  unfold read1
  split <;> rename_i hu <;> simp only [AtPoint, hu] at h
  · exact lands_ite (fun _ => act_lands (landsAt_nonPoll h rfl (by simp only [stepsLeft, hu]; omega)))
      fun _ => act_lands (landsAt_nonPoll h rfl (by simp only [stepsLeft, hu]; omega))
  · exact act_lands (landsAt_nonPoll h rfl (by simp only [stepsLeft, hu]; omega))
  · exact act_lands (landsAt_nonPoll h rfl (by simp only [stepsLeft, hu]; omega))
  · exact startPoll_lands (n := s.platform.shortBudget + 3) h h rfl rfl (fun _ => rfl) (fun _ => le_rfl)
      (by simp only [stepsLeft, hu, budget]; omega) fun _ => raise_lands _
  · exact poll_lands h h rfl rfl (fun _ => rfl) (fun _ => le_rfl) (by simp only [stepsLeft, hu, budget]; rfl)
      (raise_lands _)
  · exact receiveByte_lands (landsAt_nonPoll h rfl (by simp only [stepsLeft, hu]; omega))
  · exact storeByte_lands (landsAt_nonPoll trivial rfl (by simp only [stepsLeft, hu]; omega))
  · exact lands_fault _

theorem read2_lands (h : AtPoint s) : Lands s (read2 s) := by
  unfold read2
  split <;> rename_i hu <;> simp only [AtPoint, hu] at h
  · exact act_lands (landsAt_nonPoll h rfl (by simp only [stepsLeft, hu]; omega))
  · exact act_lands (landsAt_nonPoll h rfl (by simp only [stepsLeft, hu]; omega))
  · exact act_lands (landsAt_nonPoll h rfl (by simp only [stepsLeft, hu]; omega))
  · exact startPoll_lands (n := s.platform.shortBudget + 6) h h rfl rfl (fun _ => rfl) (fun _ => le_rfl)
      (by simp only [stepsLeft, hu, budget]; omega) fun _ => raise_lands _
  · exact poll_lands h h rfl rfl (fun _ => rfl) (fun _ => le_rfl) (by simp only [stepsLeft, hu, budget]; rfl)
      (raise_lands _)
  · exact lands_ite (fun _ => act_lands (landsAt_nonPoll h rfl (by simp only [stepsLeft, hu]; omega)))
      fun _ => receiveByte_lands (landsAt_nonPoll h rfl (by simp only [stepsLeft, hu]; omega))
  · exact receiveByte_lands (landsAt_nonPoll h rfl (by simp only [stepsLeft, hu]; omega))
  · exact storeByte_lands (landsAt_nonPoll h rfl (by simp only [stepsLeft, hu]; omega))
  · exact receiveByte_lands (landsAt_nonPoll h rfl (by simp only [stepsLeft, hu]; omega))
  · exact storeByte_lands (landsAt_nonPoll trivial rfl (by simp only [stepsLeft, hu]; omega))
  · exact lands_fault _

theorem readTop_lands {s' : State} (hc : Counts s') (h3 : 3 ≤ s'.rem.toNat)
    (hl : readLeft s'.platform.shortBudget s'.rem.toNat ≤ stepsLeft s) : Lands s (readTop s') := by
  refine lands_ite (fun hmore => ?_) fun hlast => ?_
  · obtain ⟨r, hr⟩ := Nat.exists_eq_succ_of_ne_zero (by omega : s'.rem.toNat ≠ 0)
    rw [hr, readLeft_succ _ (by omega)] at hl
    refine startPoll_lands (n := readLeft s'.platform.shortBudget r + 2) ⟨hc, hmore⟩ ⟨hc, hmore⟩ rfl rfl (fun k => ?_)
      (fun k => ?_) (by simp only [budget]; omega) fun _ => raise_lands _
    · simp only [stepsLeft, hr, budget, Nat.succ_sub_one]
    · simp only [stepsLeft, hr, Nat.succ_sub_one, le_refl]
  · have h3' : s'.rem.toNat = 3 := by omega
    have hrem : s'.rem = 3 := BitVec.eq_of_toNat_eq h3'
    rw [h3'] at hl
    exact startPoll_lands (n := 2 * s'.platform.shortBudget + 9) ⟨hc, hrem⟩ ⟨hc, hrem⟩ rfl rfl (fun _ => rfl)
      (fun _ => le_rfl) (by simp only [readLeft, budget] at hl ⊢; omega) fun _ => raise_lands _

/-- The registers after the first byte behind a BTF wait (43_read.md R163). -/
theorem counts_advance_of_rem_eq_three (h : Counts s ∧ s.rem = 3) :
    Counts (advance s) ∧ (advance s).rem = 2 ∧ (advance s).idx ≠ 0 := by
  obtain ⟨hc, hrem⟩ := h
  obtain ⟨hc', -, hidx⟩ := counts_advance hc (by rw [hrem]; decide)
  refine ⟨hc', by rw [advance_rem, hrem]; rfl, fun h0 => ?_⟩
  rw [h0] at hidx
  exact absurd hidx.symm (Nat.succ_ne_zero _)

/-- The registers after the second one (43_read.md R163). -/
theorem counts_advance_of_rem_eq_two (h : Counts s ∧ s.rem = 2 ∧ s.idx ≠ 0) :
    Counts (advance s) ∧ (advance s).rem = 1 ∧ 2 ≤ (advance s).idx.toNat := by
  obtain ⟨hc, hrem, hidx⟩ := h
  obtain ⟨hc', -, hidx'⟩ := counts_advance hc (by rw [hrem]; decide)
  refine ⟨hc', by rw [advance_rem, hrem]; rfl, ?_⟩
  have hpos : s.idx.toNat ≠ 0 := fun h0 => hidx (BitVec.eq_of_toNat_eq h0)
  omega

theorem lateStop_le_one (p : Platform) : lateStop p ≤ 1 := by
  unfold lateStop
  split <;> omega

theorem lateStop_of_afterAckOff {p : Platform} (h : p.read3Stop = .afterAckOff) : lateStop p = 0 :=
  if_neg (by rw [h]; nofun)

theorem lateStop_of_afterBtfB {p : Platform} (h : p.read3Stop = .afterBtfB) : lateStop p = 1 := if_pos h

theorem readN_lands (h : AtPoint s) : Lands s (readN s) := by
  have hlate := lateStop_le_one s.platform
  unfold readN
  split <;> rename_i hu <;> simp only [AtPoint, hu] at h
  · exact act_lands (landsAt_nonPoll h rfl (by simp only [stepsLeft, hu]; omega))
  · exact readTop_lands (counts_initTransfer s) h (by simp only [stepsLeft, hu]; rfl)
  · exact poll_lands h h rfl rfl (fun _ => rfl) (fun _ => le_rfl) (by simp only [stepsLeft, hu, budget]; rfl)
      (raise_lands _)
  · exact receiveByte_lands (landsAt_nonPoll h rfl (by simp only [stepsLeft, hu]; omega))
  · exact storeByte_lands (landsAt_nonPoll h rfl (by simp only [stepsLeft, hu]; omega))
  · obtain ⟨hc, hrem, -⟩ := counts_advance h.1 (by rintro h0; rw [h0] at h; exact absurd h.2 (by decide))
    exact readTop_lands hc (by omega) (by simp only [stepsLeft, hu, hrem, advance_platform]; rfl)
  · exact poll_lands h h rfl rfl (fun _ => rfl) (fun _ => le_rfl) (by simp only [stepsLeft, hu, budget]; rfl)
      (raise_lands _)
  · exact act_lands (landsAt_nonPoll h rfl (by simp only [stepsLeft, hu]; omega))
  · refine lands_ite (fun hstop => ?_) fun _ => ?_
    · have hzero := lateStop_of_afterAckOff hstop.2
      exact act_lands (landsAt_nonPoll h rfl (by simp only [stepsLeft, hu]; omega))
    · exact receiveByte_lands (landsAt_nonPoll h rfl (by simp only [stepsLeft, hu]; omega))
  · exact receiveByte_lands (landsAt_nonPoll h rfl (by simp only [stepsLeft, hu]; omega))
  · exact storeByte_lands (landsAt_nonPoll h rfl (by simp only [stepsLeft, hu]; omega))
  · have h' := counts_advance_of_rem_eq_three h
    exact startPoll_lands (n := s.platform.shortBudget + 5 + lateStop s.platform) h' h' rfl rfl (fun _ => rfl)
      (fun _ => le_rfl) (by simp only [stepsLeft, hu, budget, advance_platform]; omega) fun _ => raise_lands _
  · exact poll_lands h h rfl rfl (fun _ => rfl) (fun _ => le_rfl) (by simp only [stepsLeft, hu, budget]; rfl)
      (raise_lands _)
  · refine lands_ite (fun hstop => ?_) fun _ => ?_
    · have hone := lateStop_of_afterBtfB hstop.2
      exact act_lands (landsAt_nonPoll h rfl (by simp only [stepsLeft, hu]; omega))
    · exact receiveByte_lands (landsAt_nonPoll h rfl (by simp only [stepsLeft, hu]; omega))
  · exact receiveByte_lands (landsAt_nonPoll h rfl (by simp only [stepsLeft, hu]; omega))
  · exact storeByte_lands (landsAt_nonPoll h rfl (by simp only [stepsLeft, hu]; omega))
  · exact receiveByte_lands (landsAt_nonPoll (counts_advance_of_rem_eq_two h) rfl
      (by simp only [stepsLeft, hu, advance_platform]; omega))
  · exact storeByte_lands (landsAt_nonPoll trivial rfl (by simp only [stepsLeft, hu]; omega))
  · exact lands_fault _

theorem readSelect_lands {f : Fields} (hu : s.upc = .rdSelect) (hi : s.cur.cmd = .read f) (h : AtPoint s) :
    Lands s (readSelect s) := by
  simp only [AtPoint, hu] at h
  have hs : stepsLeft s = addressedLeft s.platform.shortBudget s.cur.cmd := by simp only [stepsLeft, hu]
  have hcount : s.cur.cmd.count = f.count := congrArg Instr.count hi
  rw [hi, addressedLeft, ← hcount] at hs
  refine lands_ite (fun h1 => ?_) fun h1 => lands_ite (fun h2 => ?_) fun h2 => ?_
  · rw [h1] at hs
    exact act_lands (landsAt_nonPoll h1 rfl (hs ▸ Nat.lt_succ_self _))
  · rw [h2] at hs
    exact act_lands (landsAt_nonPoll h2 rfl (hs ▸ Nat.lt_succ_self _))
  · have hne (n : Nat) (hn : s.cur.cmd.count ≠ BitVec.ofNat 16 n) (hlt : n < 2 ^ 16) : s.cur.cmd.count.toNat ≠ n :=
      fun he => hn (BitVec.eq_of_toNat_eq (by rw [he, BitVec.toNat_ofNat, Nat.mod_eq_of_lt hlt]))
    have h0' := hne 0 h (by decide)
    have h1' := hne 1 h1 (by decide)
    have h2' := hne 2 h2 (by decide)
    rw [if_neg h1', if_neg h2'] at hs
    exact act_lands (landsAt_nonPoll (show 3 ≤ s.cur.cmd.count.toNat by omega) rfl (hs ▸ Nat.lt_succ_self _))

theorem readEnd_lands (hu : s.upc = .readEnd) : Lands s (readEnd s) :=
  lands_ite (fun _ => stopWait_lands (by simp only [stepsLeft, hu]; rfl)) fun _ => finish_lands _

/-! ### The micro-programs -/

theorem checkIfid_lands {k : State → Step} (hk : Lands s (k s)) : Lands s (checkIfid k s) :=
  lands_ite (fun _ => raise_lands _) fun _ => hk

/-- At the entry the bound of the whole command is left (40_bounded_poll.md R100). -/
theorem stepsLeft_entry {i : Instr} (hi : s.cur.cmd = i) (hu : s.upc = .entry) :
    stepsLeft s = stepBound s.platform i := by
  simp only [stepsLeft, hu, hi]

theorem openStep_lands {f : Fields} (hi : s.cur.cmd = .openIf f) (h : AtPoint s) : Lands s (openStep s) := by
  unfold openStep
  split <;> rename_i hu
  · refine checkIfid_lands (act_lands (landsAt_nonPoll trivial rfl ?_))
    rw [stepsLeft_entry hi hu]
    exact Nat.lt_succ_self _
  · exact act_lands (landsAt_nonPoll trivial rfl (by simp only [stepsLeft, hu]; omega))
  · exact act_lands (landsAt_nonPoll trivial rfl (by simp only [stepsLeft, hu]; omega))
  · exact setFreqBody_lands h

theorem setFreqStep_lands {f : Fields} (hi : s.cur.cmd = .setFreq f) (h : AtPoint s) : Lands s (setFreqStep s) := by
  unfold setFreqStep
  split <;> rename_i hu
  · exact checkIfid_lands (freqCheck_lands (stepsLeft_entry hi hu).ge)
  · exact lands_fault _
  · exact setFreqBody_lands h

theorem closeStep_lands {f : Fields} (hi : s.cur.cmd = .close f) : Lands s (closeStep s) := by
  have hdisable (hs : 1 < stepsLeft s) (s' : State) : Lands s (act .pdis .closeTimeout s') :=
    act_lands (landsAt_nonPoll trivial rfl hs)
  unfold closeStep
  split <;> rename_i hu
  · have hs : stepsLeft s = s.platform.longBudget + 2 := stepsLeft_entry hi hu
    exact checkIfid_lands (startPoll_lands (n := 2) trivial trivial rfl rfl (fun _ => rfl) (fun _ => le_rfl) hs.ge
      (hdisable (by omega)))
  · exact poll_lands (n := 2) trivial trivial rfl rfl (fun _ => rfl) (fun _ => le_rfl)
      (by simp only [stepsLeft, hu, budget]; rfl) (hdisable (by simp only [stepsLeft, hu]; omega) s)
  · exact act_lands (landsAt_nonPoll trivial rfl (by simp only [stepsLeft, hu]; omega))
  · exact raise_lands _
  · exact finish_lands _
  · exact lands_fault _

theorem genStopStep_lands {f : Fields} (hi : s.cur.cmd = .genStop f) : Lands s (genStopStep s) := by
  unfold genStopStep
  split <;> rename_i hu
  · refine checkIfid_lands (act_lands (landsAt_nonPoll trivial rfl ?_))
    rw [stepsLeft_entry hi hu]
    exact Nat.lt_succ_self _
  · exact stopPhase_lands 0

theorem writeStep_lands {f : Fields} (hi : s.cur.cmd = .write f) (h : AtPoint s) : Lands s (writeStep s) := by
  have hcount : s.cur.cmd.count = f.count := congrArg Instr.count hi
  unfold writeStep
  split <;> rename_i hu
  case h_1 =>
    refine checkIfid_lands (act_lands (landsAt_nonPoll trivial rfl ?_))
    rw [stepsLeft_entry hi hu]
    simp only [stepsLeft, hi, addressedLeft, outLeft, stepBound]
    omega
  case h_2 =>
    refine act_lands (landsAt_nonPoll trivial rfl ?_)
    simp only [stepsLeft, hu, hcount]
    rw [hi, addressedLeft]
    exact Nat.lt_succ_self _
  case h_3 => exact act_lands (landsAt_nonPoll trivial rfl (by simp only [stepsLeft, hu]; omega))
  case h_13 => exact dataOut_lands h
  all_goals exact addressPhase_lands trivial rfl fun _ => le_rfl

theorem writeRawStep_lands {f : Fields} (hi : s.cur.cmd = .writeRaw f) (h : AtPoint s) : Lands s (writeRawStep s) := by
  have hcount : s.cur.cmd.count = f.count := congrArg Instr.count hi
  unfold writeRawStep
  split <;> rename_i hu
  · refine checkIfid_lands (outTop_lands (counts_initTransfer s) ?_)
    rw [stepsLeft_entry hi hu, initTransfer_rem, hcount]
    rfl
  · exact lands_fault _
  · exact dataOut_lands h

/-- What is left after READ's first action, `POS:=0`, is less than its bound. -/
theorem read_bound (p : Platform) {f : Fields} (h : f.count ≠ 0) :
    2 * p.shortBudget + addressedLeft p.shortBudget (.read f) + 4 < stepBound p (.read f) := by
  have hpos : f.count.toNat ≠ 0 := fun h0 => h (BitVec.eq_of_toNat_eq h0)
  simp only [addressedLeft, stepBound]
  obtain h1 | h2 | ⟨m, h3⟩ : f.count.toNat = 1 ∨ f.count.toNat = 2 ∨ ∃ m, f.count.toNat = m + 3 := by
    obtain h12 | h3 : f.count.toNat ≤ 2 ∨ 3 ≤ f.count.toNat := Nat.lt_or_ge _ 3 |>.imp_left Nat.le_of_lt_succ
    · omega
    · exact .inr (.inr ⟨f.count.toNat - 3, by omega⟩)
  · norm_num [h1]
    omega
  · norm_num [h2]
    omega
  · simp only [h3, readLeft, Nat.add_sub_cancel, show ¬ m + 3 = 1 by omega, show ¬ m + 3 = 2 by omega,
      show ¬ m + 3 ≤ 2 by omega, if_false, Nat.mul_add, Nat.add_mul]
    omega

theorem readStep_lands {f : Fields} (hi : s.cur.cmd = .read f) (hn : s.upc ≠ .entry → f.count ≠ 0) (h : AtPoint s) :
    Lands s (readStep s) := by
  have hcount : s.cur.cmd.count = f.count := congrArg Instr.count hi
  cases hu : s.upc
  all_goals simp only [readStep, hu]
  case entry =>
    refine checkIfid_lands (lands_ite (fun _ => raise_lands _) fun h0 => act_lands (landsAt_nonPoll h0 rfl ?_))
    rw [stepsLeft_entry hi hu]
    simp only [stepsLeft, hi]
    exact read_bound _ (hcount ▸ h0)
  case setAck => exact act_lands (landsAt_nonPoll trivial rfl (by simp only [stepsLeft, hu]; omega))
  case clearAf | start | sbStart | sbPoll | addrByte | addrStart | addrPoll | afNack | afTimeout =>
    exact addressPhase_lands (show s.cur.cmd.count ≠ 0 from hcount ▸ hn (by rw [hu]; nofun)) rfl fun _ => le_rfl
  case rdSelect => exact readSelect_lands hu hi h
  case r1Stop | r1Sr1 | r1Sr2 | r1Start | r1Poll | r1Read | r1Store => exact read1_lands h
  case r2Pos | r2Sr1 | r2Sr2 | r2Start | r2Poll | r2Stop | r2Read1 | r2Store1 | r2Read2 | r2Store2 => exact read2_lands h
  case rnSr2 | rnInit | rnPoll | rnRead | rnStore | rnNext | rnBtfAPoll | rnAckOff | rnStopA | rnReadA | rnStoreA
      | rnBtfBStart | rnBtfBPoll | rnStopB | rnReadB | rnStoreB | rnReadC | rnStoreC =>
    exact readN_lands h
  case readEnd => exact readEnd_lands hu
  case stopPoll | finishOk => exact stopPhase_lands _
  all_goals exact lands_fault _

/-- Where the registers are right for the point, and a READ past its entry has a byte to read, the next action lands. -/
theorem micro_lands {i : Instr} (hi : s.cur.cmd = i) (hn : ∀ f, i = .read f → s.upc ≠ .entry → f.count ≠ 0)
    (h : AtPoint s) : Lands s (micro i s) := by
  cases i with
  | openIf f => exact openStep_lands hi h
  | close f => exact closeStep_lands hi
  | setFreq f => exact setFreqStep_lands hi h
  | write f => exact writeStep_lands hi h
  | read f => exact readStep_lands hi (hn f rfl) h
  | writeRaw f => exact writeRawStep_lands hi h
  | genStop f => exact genStopStep_lands hi

end

/-! ### The control invariant -/

/-- What `RunsWell` says of the sequencer. -/
def Steady (s : State) : Prop :=
  s.upc ∈ points s.cur.cmd ∧ (∀ f, s.cur.cmd = .read f → s.upc ≠ .entry → f.count ≠ 0) ∧ AtPoint s

theorem RunsWell.steady {s : State} (h : RunsWell s) : Steady s := by
  obtain ⟨-, hu, -, hcount, hat⟩ := h
  exact ⟨hu, hcount, hat⟩

/-- Past the entry the interface exists and a READ has a byte to read (40_bounded_poll.md R93, 43_read.md R160). -/
theorem exec_entry_checks {i : Instr} {s t : State} (hr : Running i s) (hu : s.upc = .entry) (h : exec i s = .next t)
    (hrun : t.phase = .run) : i.ifid.toNat < s.platform.nIf ∧ ∀ f, i = .read f → f.count ≠ 0 := by
  have hn : i.ifid.toNat < s.platform.nIf := by
    refine Nat.lt_of_not_le fun hle => ?_
    rw [interfaceCheckComesFirst i s hr hu hle] at h
    cases h
    exact nomatch hrun
  refine ⟨hn, ?_⟩
  rintro f rfl h0
  rw [exec_read_entry hr hu hn, if_pos h0] at h
  cases h
  exact nomatch hrun

/-- A step of a steady command ends it, or leaves it steady, within the budget of a poll it is in, and with fewer steps
to go. -/
theorem exec_steady {i : Instr} {s t : State} (hr : Running i s) (hs : Steady s) (h : exec i s = .next t)
    (hrun : t.phase = .run) : Running i t ∧ Steady t ∧ WithinBudget t ∧ stepsLeft t < stepsLeft s := by
  obtain ⟨hp, rfl⟩ := hr
  obtain ⟨-, hcount, hat⟩ := hs
  obtain ⟨e, g⟩ | ⟨r, -, hidle, -⟩ := exec_goes_or_ends ⟨hp, rfl⟩ h
  · rw [exec_run hp rfl] at h
    obtain ⟨hat', hwithin, hleft⟩ := micro_lands rfl hcount hat t h hrun
    refine ⟨⟨hrun, g.cur ▸ rfl⟩, ⟨g.cur ▸ arc_target_mem_points g.arc, ?_, hat'⟩, hwithin, hleft⟩
    rw [g.cur]
    intro f hf _
    by_cases hu : s.upc = .entry
    · exact (exec_entry_checks ⟨hp, rfl⟩ hu (exec_run hp rfl ▸ h) hrun).2 f hf
    · exact hcount f hf hu
  · exact nomatch hrun.symm.trans hidle

/-- On a platform within the constraints every budget is within the long one (00_scope.md R9). -/
theorem budget_le_longBudget {p : Platform} (hp : platformOk p = true) (c : Cond) : budget p c ≤ p.longBudget := by
  simp only [platformOk, Bool.and_eq_true, decide_eq_true_eq] at hp
  obtain ⟨⟨-, -, -, hle⟩, -⟩ := hp
  cases c
  case idle => exact le_rfl
  all_goals exact hle

/-- The poll counter stays within the long budget. -/
theorem exec_pcnt {i : Instr} {s t : State} (hp : platformOk s.platform = true) (hs : s.pcnt ≤ s.platform.longBudget)
    (h : exec i s = .next t) : t.pcnt ≤ s.platform.longBudget := by
  obtain ⟨-, -, rfl⟩ | ⟨hrun, hi, -⟩ := exec_cases h
  · exact hs
  · have hcounts : CountsSamples s t := by
      obtain ⟨e, g⟩ | ⟨r, -, -, hc⟩ := exec_goes_or_ends ⟨hrun, hi⟩ h
      · exact g.pcnt
      · exact hc
    obtain hle | ⟨c, hle⟩ := hcounts
    · exact hle.trans hs
    · exact hle.trans (budget_le_longBudget hp c)

theorem entry_mem_points (i : Instr) : Upc.entry ∈ points i := by
  cases i <;> exact List.mem_cons_self

theorem pollLoop_entry (i : Instr) : pollLoop i .entry = none := by cases i <;> rfl

/-- An accepted command runs well: its operands were checked, and its entry asks nothing of the registers. -/
theorem runsWell_accepted {i : Instr} {s : State} (h : refusedOperands i s.hz s.buf = none) : RunsWell (accepted i s) :=
  ⟨(refusedOperands_eq_none i s.hz s.buf).mp h, entry_mem_points i, fun h => absurd rfl h, fun _ _ h => absurd rfl h,
    trivial⟩

theorem controlled_accepted {i : Instr} {s : State} (hs : s.pcnt ≤ s.platform.longBudget)
    (h : refusedOperands i s.hz s.buf = none) : Controlled (accepted i s) :=
  ⟨fun _ => runsWell_accepted h, hs, fun _ _ _ hl => nomatch (pollLoop_entry i).symm.trans hl⟩

/-- Past the entry the interface exists. -/
theorem exec_keeps_ifid {i : Instr} {s t : State} (hr : Running i s) (hs : s.upc ≠ .entry → i.ifid.toNat < s.platform.nIf)
    (h : exec i s = .next t) (hrun : t.phase = .run) : i.ifid.toNat < s.platform.nIf := by
  by_cases hu : s.upc = .entry
  · exact (exec_entry_checks hr hu h hrun).1
  · exact hs hu

theorem exec_keeps_control {i : Instr} {s t : State} (hp : platformOk s.platform = true) (hs : Controlled s)
    (h : exec i s = .next t) : Controlled t := by
  obtain ⟨hwell, hpcnt, -⟩ := hs
  obtain ⟨-, href, rfl⟩ | ⟨hp', rfl, -, e, m⟩ := exec_cases h
  · exact controlled_accepted hpcnt href
  have hr : Running s.cur.cmd s := ⟨hp', rfl⟩
  have hsteady := (hwell hp').steady
  obtain ⟨hwf, -, hifid, -, -⟩ := hwell hp'
  refine ⟨fun hrun => ?_, m.platform ▸ exec_pcnt hp hpcnt h, fun hrun c ok hl => ?_⟩
  · obtain ⟨-, ⟨hpoints, hcount, hat⟩, -, -⟩ := exec_steady hr hsteady h hrun
    refine ⟨m.cur ▸ hwf, hpoints, fun _ => ?_, hcount, hat⟩
    rw [m.cur, m.platform]
    exact exec_keeps_ifid hr hifid h hrun
  · obtain ⟨-, -, hwithin, -⟩ := exec_steady hr hsteady h hrun
    exact hwithin c (pollCond_of_pollLoop hl)

/-- Settles O55: an accepted command runs well, and each action lands where the registers are right. -/
theorem stepKeepsControl : Obligations.StepKeepsControl := fun _ _ =>
  step_preserves (fun _ _ _ hp hs h => exec_keeps_control hp hs h) (fun _ _ _ _ _ _ hs => hs)
    fun _ => ⟨nofun, Nat.zero_le _, nofun⟩

/-! ### The buffer (20_memory.md R52) -/

/-- Where a byte is read for sending, the index is within the count. -/
theorem AtPoint.idx_lt_count {s : State} (h : AtPoint s) (hu : s.upc = .outRead ∨ s.upc = .outReadB) :
    s.idx.toNat < s.cur.cmd.count.toNat := by
  have hc : Counts s ∧ s.rem ≠ 0 := by
    obtain hu | hu := hu
    all_goals simpa only [AtPoint, hu] using h
  have hpos : s.rem.toNat ≠ 0 := fun h0 => hc.2 (BitVec.eq_of_toNat_eq h0)
  have hsum := hc.1
  unfold Counts at hsum
  omega

/-- Where a received byte is stored, the index is within the count. -/
theorem AtPoint.storeIndex_lt_count {s : State} (h : AtPoint s) {k : Count} (hk : storeIndex s = some k) :
    k.toNat < s.cur.cmd.count.toNat := by
  have hsum (hc : Counts s) (hpos : 0 < s.rem.toNat) : s.idx.toNat < s.cur.cmd.count.toNat := by
    unfold Counts at hc
    omega
  unfold storeIndex at hk
  split at hk <;> rename_i hu <;> cases hk <;> simp only [AtPoint, hu] at h
  · rw [h]; decide
  · rw [h]; decide
  · rw [h]; decide
  · exact hsum h.1 (by omega)
  · exact hsum h.1 (by rw [h.2]; decide)
  · exact hsum h.1 (by rw [h.2.1]; decide)
  · exact hsum h.1 (by rw [h.2.1]; decide)

/-- The points that read a byte for sending are of WRITE and WRITERAW. -/
theorem sends_of_mem_points {i : Instr} {u : Upc} (h : u ∈ points i) (hu : u = .outRead ∨ u = .outReadB) :
    ∃ f, i = .write f ∨ i = .writeRaw f := by
  obtain rfl | rfl := hu
  all_goals
    cases i with
    | write f => exact ⟨f, .inl rfl⟩
    | writeRaw f => exact ⟨f, .inr rfl⟩
    | openIf f | close f | setFreq f | genStop f | read f =>
      simp [points, freqPoints, addressPoints, read1Points, read2Points, readNPointsA, readNPointsB, readEndPoints] at h

/-- The points that store a received byte are of READ. -/
theorem stores_of_mem_points {i : Instr} {s : State} (h : s.upc ∈ points i) {k : Count} (hk : storeIndex s = some k) :
    ∃ f, i = .read f := by
  unfold storeIndex at hk
  split at hk
  case h_8 => exact nomatch hk
  all_goals
    rename_i hu
    rw [hu] at h
    cases i with
    | read f => exact ⟨f, rfl⟩
    | openIf f | close f | setFreq f | genStop f | write f | writeRaw f =>
      simp [points, freqPoints, addressPoints, outPoints] at h

/-- A buffer byte's address does not wrap for a command whose operands have a meaning (20_memory.md R52). -/
theorem toNat_bufAddr {i : Instr} {hz buf : Word} (hw : i.wellFormed hz buf = true) (hu : i.usesBuf = true) {k : Count}
    (hk : k.toNat < i.count.toNat) : (bufAddr buf k).toNat = buf.toNat + k.toNat := by
  simp only [Instr.wellFormed, Instr.bufferFits, hu, Bool.true_and, Bool.and_eq_true, Bool.not_eq_true',
    decide_eq_false_iff_not] at hw
  have hlt : buf.toNat + k.toNat < 2 ^ 32 := by omega
  rw [bufAddr, BitVec.toNat_add, BitVec.toNat_setWidth, Nat.mod_eq_of_lt (a := k.toNat) (by omega),
    Nat.mod_eq_of_lt hlt]

/-- A byte is read for sending at these points alone. -/
theorem memRead_arc (i : Instr) : ∀ a ∈ arcs i, a.2.1 = .memRead 0 0 → a.1 = .outRead ∨ a.1 = .outReadB := by
  refine forall_arcs ?_ ?_ ?_ ?_ ?_ ?_ ?_ i
  all_goals decide

/-- Settles O51: the access is at the index of its point, which is within the count. -/
theorem bufferAccessesStayInside : Obligations.BufferAccessesStayInside := by
  intro i s t j a v hc hr h hist
  obtain ⟨hwf, hu, -, -, hat⟩ := hc.1 hr.1
  rw [hr.2] at hwf hu
  obtain hist | hist := hist
  · have g := exec_goes_of_hist hr h hist nofun
    have hpoint := memRead_arc i _ g.arc rfl
    have huses : i.usesBuf = true := by
      obtain ⟨f, rfl | rfl⟩ := sends_of_mem_points hu hpoint <;> rfl
    have hk := hat.idx_lt_count hpoint
    rw [hr.2] at hk
    obtain ⟨rfl, -⟩ := g.data
    exact ⟨huses, s.idx.toNat, hk, toNat_bufAddr hwf huses hk⟩
  · have g := exec_goes_of_hist hr h hist nofun
    obtain ⟨-, k, hk', rfl⟩ := g.data
    have huses : i.usesBuf = true := by
      obtain ⟨f, rfl⟩ := stores_of_mem_points hu hk'
      rfl
    have hk := hat.storeIndex_lt_count hk'
    rw [hr.2] at hk
    exact ⟨huses, k.toNat, hk, toNat_bufAddr hwf huses hk⟩

/-! ### The step bound (40_bounded_poll.md R100) -/

/-- Memory that admits the command's accesses refuses none at a point of a steady command. -/
theorem not_refuses_of_bufferAdmitted {i : Instr} {s : State} (hi : s.cur.cmd = i) (hs : Steady s)
    (hadm : BufferAdmitted i s) : ¬ Refuses s := by
  obtain ⟨hu, -, hat⟩ := hs
  rw [hi] at hu
  rintro (⟨hpoint, hno⟩ | ⟨k, hk, hno⟩)
  · have hlt := hat.idx_lt_count hpoint
    rw [hi] at hlt
    obtain ⟨f, rfl | rfl⟩ := sends_of_mem_points hu hpoint
    all_goals exact Bool.false_ne_true (hno.symm.trans (hadm s.idx hlt))
  · have hlt := hat.storeIndex_lt_count hk
    rw [hi] at hlt
    obtain ⟨f, rfl⟩ := stores_of_mem_points hu hk
    exact Bool.false_ne_true (hno.symm.trans (hadm k hlt))

/-- The admission speaks of the parameters and the latched buffer, which no step changes. -/
theorem bufferAdmitted_congr {i : Instr} {s t : State} (hcur : t.cur = s.cur) (hp : t.platform = s.platform) :
    BufferAdmitted i t ↔ BufferAdmitted i s := by
  cases i <;> simp only [BufferAdmitted, hcur, hp]

/-- A steady command ends within the steps left, by induction on them. -/
theorem ends_within_stepsLeft {i : Instr} (n : Nat) {s : State} (hn : stepsLeft s ≤ n) (hr : Running i s)
    (hs : Steady s) (hadm : BufferAdmitted i s) : ∃ m t, m ≤ n ∧ execFor i m s = .next t ∧ t.phase = .idle := by
  induction n generalizing s with
  | zero => exact absurd hn (Nat.not_le.mpr (stepsLeft_pos s))
  | succ n ih =>
    have hu : s.upc ∈ points i := hr.2 ▸ hs.1
    obtain ⟨t, ht⟩ := exec_proceeds hr hu (not_refuses_of_bufferAdmitted hr.2 hs hadm)
    cases hp : t.phase with
    | idle => exact ⟨1, t, by omega, execFor_succ ht 0, hp⟩
    | run =>
      obtain ⟨e, m⟩ := exec_moves hr ht
      obtain ⟨hr', hs', -, hleft⟩ := exec_steady hr hs ht hp
      obtain ⟨k, t', hk, hrun, hidle⟩ := ih (by omega) hr' hs' ((bufferAdmitted_congr m.cur m.platform).mpr hadm)
      exact ⟨k + 1, t', by omega, (execFor_succ ht k).trans hrun, hidle⟩

theorem steady_of_entry {s : State} (hu : s.upc = .entry) : Steady s := by
  refine ⟨by rw [hu]; exact entry_mem_points _, fun _ _ h => absurd hu h, ?_⟩
  simp only [AtPoint, hu]

/-- Settles O47: at the entry the bound is the number of steps left. -/
theorem everyCommandEndsWithinItsBound : Obligations.EveryCommandEndsWithinItsBound := fun _ _ hr hu hadm =>
  ends_within_stepsLeft _ (stepsLeft_entry hr.2 hu).le hr (steady_of_entry hu) hadm

end Sys2Proof.Machine
end

section
/-! The acknowledge and position latches of a running READ and WRITE (43_read.md R160 to R165, R168; 42_write.md R131): which
arcs write them, and so what they are at each point. -/

namespace Sys2Proof.Machine

/-! ### Events and latches -/

/-- The event writes neither latch (10_state.md R34). -/
def latchless (e : Event) : Bool := (ackWritten e).isNone && (posWritten e).isNone

theorem latchless_iff {e : Event} : latchless e = true ↔ ackWritten e = none ∧ posWritten e = none := by
  simp only [latchless, Bool.and_eq_true, Option.isNone_iff_eq_none]

theorem posWritten_bare (e : Event) : posWritten (bare e) = posWritten e := by cases e <;> rfl

theorem latchless_bare (e : Event) : latchless (bare e) = latchless e := by cases e <;> rfl

theorem eq_ack_of_bare {e : Event} {v : Bool} (h : bare e = .ack v) : e = .ack v := by
  cases e with
  | ack w => exact h
  | _ => exact nomatch h

theorem eq_pos_of_bare {e : Event} {v : Bool} (h : bare e = .pos v) : e = .pos v := by
  cases e with
  | pos w => exact h
  | _ => exact nomatch h

section

variable {as : List Arc} {s t : State} {e : Event}

theorem Goes.ackLatch_eq (g : Goes as s t e) :
    ackLatch t.hist t.cur.cmd.ifid = (ackWritten e).or (ackLatch s.hist s.cur.cmd.ifid) := by
  rw [g.hist, g.cur, ackLatch, lastWritten_append_singleton, if_pos rfl]
  rfl

theorem Goes.posLatch_eq (g : Goes as s t e) :
    posLatch t.hist t.cur.cmd.ifid = (posWritten e).or (posLatch s.hist s.cur.cmd.ifid) := by
  rw [g.hist, g.cur, posLatch, lastWritten_append_singleton, if_pos rfl]
  rfl

/-- An event that writes neither latch leaves both. -/
theorem Goes.latchesAre {ack pos : Bool} (g : Goes as s t e) (he : latchless (bare e) = true) (h : LatchesAre s ack pos) :
    LatchesAre t ack pos := by
  obtain ⟨hack, hpos⟩ := latchless_iff.mp (latchless_bare e ▸ he)
  exact ⟨by rw [g.ackLatch_eq, hack, Option.none_or, h.1], by rw [g.posLatch_eq, hpos, Option.none_or, h.2]⟩

theorem Goes.latchesAre_ack {v pos : Bool} (g : Goes as s t (.ack v)) (h : posLatch s.hist s.cur.cmd.ifid = some pos) :
    LatchesAre t v pos :=
  ⟨by rw [g.ackLatch_eq]; rfl, by rw [g.posLatch_eq]; exact h⟩

theorem Goes.latchesAre_pos {v ack : Bool} (g : Goes as s t (.pos v)) (h : ackLatch s.hist s.cur.cmd.ifid = some ack) :
    LatchesAre t ack v :=
  ⟨by rw [g.ackLatch_eq]; exact h, by rw [g.posLatch_eq]; rfl⟩

end

/-! ### The points of READ by their latches (43_read.md R165) -/

/-- Acknowledge is on and POS off. -/
def ackOnPoints : List Upc := addressPoints ++ .rdSelect :: readNPointsA

/-- Acknowledge is off and POS off, a byte still to come. -/
def ackOffPoints : List Upc := read1Points ++ .r2Pos :: readNPointsB

/-- Acknowledge is off and POS on: READ_2 after its `POS:=1`. -/
def posOnPoints : List Upc := read2Points.tail

/-- The points that receive and store the last byte. -/
def lastPoints : List Upc := [.r1Read, .r1Store, .r2Read2, .r2Store2, .rnReadC, .rnStoreC]

/-! How the arcs of READ lead into each class of points. -/

theorem readArcs_to_setAck : ∀ a ∈ readArcs, a.2.2 = .setAck → a.2.1 = .pos false := by decide

theorem readArcs_to_ackOn : ∀ a ∈ readArcs, a.2.2 ∈ ackOnPoints →
    a.1 = .setAck ∧ a.2.1 = .ack true ∨ a.1 ∈ ackOnPoints ∧ latchless a.2.1 = true := by decide

theorem readArcs_to_ackOff : ∀ a ∈ readArcs, a.2.2 ∈ ackOffPoints →
    a.1 ∈ ackOnPoints ∧ a.2.1 = .ack false ∨ a.1 ∈ ackOffPoints ∧ latchless a.2.1 = true := by decide

theorem readArcs_to_posOn : ∀ a ∈ readArcs, a.2.2 ∈ posOnPoints →
    a.1 = .r2Pos ∧ a.2.1 = .pos true ∨ a.1 ∈ posOnPoints ∧ latchless a.2.1 = true := by decide

theorem readArcs_to_readEnd : ∀ a ∈ readArcs, a.2.2 ∈ readEndPoints →
    (a.1 ∈ readEndPoints ∨ a.1 ∈ lastPoints) ∧ latchless a.2.1 = true := by decide

/-- The latches at each point of a running READ, with its points in classes. -/
structure ReadArmed (f : Fields) (s : State) : Prop where
  setAck : s.upc = .setAck → posLatch s.hist f.ifid = some false
  ackOn  : s.upc ∈ ackOnPoints → LatchesAre s true false
  ackOff : s.upc ∈ ackOffPoints → LatchesAre s false false
  posOn  : s.upc ∈ posOnPoints → LatchesAre s false true
  atEnd  : s.upc ∈ readEndPoints → LatchesAre s false (f.count == 2)

theorem armed_iff {s : State} : Armed s ↔ (s.phase = .run →
    (∀ f, s.cur.cmd = .write f → s.upc ≠ .entry → posLatch s.hist f.ifid = some false) ∧
    ∀ f, s.cur.cmd = .read f → ReadArmed f s) := by
  have hon : s.upc ∈ ackOnPoints ↔ s.upc ∈ addressPoints ∨ s.upc = .rdSelect ∨ s.upc ∈ readNPointsA := by
    simp only [ackOnPoints, List.mem_append, List.mem_cons]
  have hoff : s.upc ∈ ackOffPoints ↔ s.upc ∈ read1Points ∨ s.upc = .r2Pos ∨ s.upc ∈ readNPointsB := by
    simp only [ackOffPoints, List.mem_append, List.mem_cons]
  have hpos : s.upc ∈ posOnPoints ↔ s.upc ∈ read2Points ∧ s.upc ≠ .r2Pos := by
    cases s.upc <;> decide
  refine imp_congr_right fun _ => and_congr_right fun _ => forall_congr' fun f => imp_congr_right fun _ => ?_
  rw [← hon, ← hoff]
  exact ⟨fun ⟨h1, h2, h3, h4, h5⟩ => ⟨h1, h2, h3, fun h => h4 (hpos.mp h).1 (hpos.mp h).2, h5⟩,
    fun h => ⟨h.setAck, h.ackOn, h.ackOff, fun h2 hne => h.posOn (hpos.mpr ⟨h2, hne⟩), h.atEnd⟩⟩

theorem lastPoints_classes : ∀ u ∈ lastPoints, (u = .r1Read ∨ u = .r1Store) ∧ u ∈ ackOffPoints ∨
    (u = .r2Read2 ∨ u = .r2Store2) ∧ u ∈ posOnPoints ∨ (u = .rnReadC ∨ u = .rnStoreC) ∧ u ∈ ackOffPoints := by decide

/-! ### The count at the last byte -/

/-- What the control invariant says of the count where a READ moves its last byte (43_read.md R161 to R163). -/
theorem AtPoint.count_of_last {s : State} (h : AtPoint s) : (s.upc = .r1Read ∨ s.upc = .r1Store → s.cur.cmd.count = 1) ∧
    (s.upc = .r2Read2 ∨ s.upc = .r2Store2 → s.cur.cmd.count = 2) ∧
    (s.upc = .rnReadC ∨ s.upc = .rnStoreC → 3 ≤ s.cur.cmd.count.toNat) := by
  refine ⟨fun hu => ?_, fun hu => ?_, fun hu => ?_⟩
  all_goals obtain hu | hu := hu
  all_goals simp only [AtPoint, hu] at h
  · exact h
  · exact h
  · exact h
  · exact h
  · obtain ⟨hcounts, hrem, hidx⟩ := h
    have hne : s.idx.toNat ≠ 0 := fun h0 => hidx (BitVec.eq_of_toNat_eq h0)
    rw [Counts, hrem] at hcounts
    simp at hcounts
    omega
  · obtain ⟨hcounts, hrem, hidx⟩ := h
    rw [Counts, hrem] at hcounts
    simp at hcounts
    omega

theorem count_beq_two_of_three_le {n : Count} (h : 3 ≤ n.toNat) : (n == 2) = false := by
  rw [beq_eq_false_iff_ne]
  rintro rfl
  exact absurd h (by decide)

/-! ### The invariant -/

section

variable {f : Fields} {s t : State} {e : Event}

/-- At the last byte of a READ the latches are those it ends with. -/
theorem ReadArmed.latchesAre_of_last (h : ReadArmed f s) (hi : s.cur.cmd = .read f) (hp : AtPoint s)
    (hu : s.upc ∈ lastPoints) : LatchesAre s false (f.count == 2) := by
  have hf : s.cur.cmd.count = f.count := congrArg Instr.count hi
  obtain ⟨h1, h2, h3⟩ := hp.count_of_last
  simp only [hf] at h1 h2 h3
  obtain ⟨hu, hoff⟩ | ⟨hu, hon⟩ | ⟨hu, hoff⟩ := lastPoints_classes _ hu
  · rw [h1 hu]
    exact h.ackOff hoff
  · rw [h2 hu]
    exact h.posOn hon
  · rw [count_beq_two_of_three_le (h3 hu)]
    exact h.ackOff hoff

/-- An arc of READ leads to the latches of its target's class. -/
theorem Goes.readArmed (g : Goes readArcs s t e) (hi : s.cur.cmd = .read f) (hp : AtPoint s) (h : ReadArmed f s) :
    ReadArmed f t := by
  have hs : s.cur.cmd.ifid = f.ifid := congrArg Instr.ifid hi
  have ht : t.cur.cmd.ifid = f.ifid := (congrArg (fun c => c.cmd.ifid) g.cur).trans hs
  refine ⟨fun hu => ?_, fun hu => ?_, fun hu => ?_, fun hu => ?_, fun hu => ?_⟩
  · cases eq_pos_of_bare (readArcs_to_setAck _ g.arc hu)
    rw [← ht, g.posLatch_eq]
    rfl
  · obtain ⟨hsrc, hack⟩ | ⟨hsrc, hless⟩ := readArcs_to_ackOn _ g.arc hu
    · cases eq_ack_of_bare hack
      exact g.latchesAre_ack (hs ▸ h.setAck hsrc)
    · exact g.latchesAre hless (h.ackOn hsrc)
  · obtain ⟨hsrc, hack⟩ | ⟨hsrc, hless⟩ := readArcs_to_ackOff _ g.arc hu
    · cases eq_ack_of_bare hack
      exact g.latchesAre_ack (h.ackOn hsrc).2
    · exact g.latchesAre hless (h.ackOff hsrc)
  · obtain ⟨hsrc, hpos⟩ | ⟨hsrc, hless⟩ := readArcs_to_posOn _ g.arc hu
    · have hu : s.upc = .r2Pos := hsrc
      cases eq_pos_of_bare hpos
      exact g.latchesAre_pos (h.ackOff (by rw [hu]; decide)).1
    · exact g.latchesAre hless (h.posOn hsrc)
  · obtain ⟨hsrc, hless⟩ := readArcs_to_readEnd _ g.arc hu
    refine g.latchesAre hless ?_
    obtain hsrc | hsrc := hsrc
    · exact h.atEnd hsrc
    · exact h.latchesAre_of_last hi hp hsrc

/-- WRITE's first action is `POS:=0`, and no other of its actions writes POS (42_write.md R131). -/
theorem writeArcs_posWritten : ∀ a ∈ writeArcs,
    (a.1 = .entry → a.2.1 = .pos false) ∧ (a.1 ≠ .entry → posWritten a.2.1 = none) := by decide

theorem Goes.write_posLatch (g : Goes writeArcs s t e)
    (h : s.upc ≠ .entry → posLatch s.hist s.cur.cmd.ifid = some false) :
    posLatch t.hist t.cur.cmd.ifid = some false := by
  obtain ⟨hentry, hpast⟩ := writeArcs_posWritten _ g.arc
  rw [g.posLatch_eq]
  by_cases hu : s.upc = .entry
  · cases eq_pos_of_bare (hentry hu)
    rfl
  · rw [← posWritten_bare, hpast hu, Option.none_or, h hu]

end

/-- An accepted command has done nothing, and its entry is in no class. -/
theorem armed_accepted (i : Instr) (s : State) : Armed (accepted i s) := by
  refine armed_iff.mpr fun _ => ⟨fun _ _ h => absurd rfl h, fun _ _ => ⟨nofun, fun h => ?_, fun h => ?_, fun h => ?_,
    fun h => ?_⟩⟩
  · exact absurd h (by decide : Upc.entry ∉ ackOnPoints)
  · exact absurd h (by decide : Upc.entry ∉ ackOffPoints)
  · exact absurd h (by decide : Upc.entry ∉ posOnPoints)
  · exact absurd h (by decide : Upc.entry ∉ readEndPoints)

theorem exec_keeps_arming {i : Instr} {s t : State} (hc : Controlled s) (ha : Armed s) (h : exec i s = .next t) :
    Armed t := by
  obtain ⟨-, -, rfl⟩ | ⟨hp, rfl, -⟩ := exec_cases h
  · exact armed_accepted i s
  refine armed_iff.mpr fun hrun => ?_
  obtain ⟨hwrite, hread⟩ := armed_iff.mp ha hp
  obtain ⟨-, -, -, -, hat⟩ := hc.1 hp
  obtain ⟨e, g⟩ | ⟨r, -, hidle, -⟩ := exec_goes_or_ends ⟨hp, rfl⟩ h
  · rw [g.cur]
    refine ⟨fun f hi _ => ?_, fun f hi => ?_⟩
    · have hs : s.cur.cmd.ifid = f.ifid := congrArg Instr.ifid hi
      rw [← hs, ← g.cur]
      exact Goes.write_posLatch (hi ▸ g) (hs ▸ hwrite f hi)
    · exact Goes.readArmed (hi ▸ g) hi hat (hread f hi)
  · exact nomatch hrun.symm.trans hidle

/-- Settles O58: an arc leads to the latches of its target's class, and the host writes neither history nor point. -/
theorem stepKeepsTheArming : Obligations.StepKeepsTheArming := fun s _ hc ha h =>
  (step_preserves (P := fun s => Controlled s ∧ Armed s)
    (fun _ _ _ hp hs h => ⟨exec_keeps_control hp hs.1 h, exec_keeps_arming hs.1 hs.2 h⟩) (fun _ _ _ _ _ _ hs => hs)
    (fun _ => ⟨⟨nofun, Nat.zero_le _, nofun⟩, nofun⟩) (s := s) ⟨hc, ha⟩ h).2

/-! ### The last byte (43_read.md R165) -/

/-- The receipt of the last byte comes from one of these points. -/
theorem readArcs_to_lastStore : ∀ a ∈ readArcs, a.2.2 = .r1Store ∨ a.2.2 = .r2Store2 ∨ a.2.2 = .rnStoreC →
    a.1 ∈ lastPoints := by
  decide

/-- Settles O59: the byte is received at one of three points, and each has the latches of its sub-protocol's end. -/
theorem lastByteIsReadWithAcknowledgeOff : Obligations.LastByteIsReadWithAcknowledgeOff := by
  intro f s t b hc ha hr h hist ht
  obtain ⟨hp, hi⟩ := id hr
  obtain ⟨-, -, -, -, hat⟩ := hc.1 hp
  have hu := readArcs_to_lastStore _ (exec_goes_of_hist hr h hist nofun).arc ht
  have hf : s.cur.cmd.ifid = f.ifid := congrArg Instr.ifid hi
  exact hf ▸ ((armed_iff.mp ha hp).2 f hi).latchesAre_of_last hi hat hu

end Sys2Proof.Machine
end

section
/-! The bounded poll as a run (40_bounded_poll.md R90): one sample at a loop point, the samples up to the first true one, and
the samples up to the budget. -/

namespace Sys2Proof.Machine

section

variable {i : Instr} {s : State} {c : Cond} {ok : Upc} (hr : Running i s) (h : pollLoop i s.upc = some (c, ok))
include hr h

/-- One sample at a loop point, the answer scripted. -/
theorem exec_at_pollLoop_sample {v : Bool} {b : List Bool} (hlt : s.pcnt < budget s.platform c) (hb : s.bits = v :: b) :
    exec i s = .next { s with
      hist := s.hist ++ tagged i.ifid [.sample c v], bits := b, pcnt := s.pcnt + 1, upc := if v then ok else s.upc } := by
  rw [(pollsAt_of_pollLoop hr h rfl).1 hlt, asked, answer_cons c s v b hb, hb, hr.2]
  rfl

/-- A failed poll goes on with something else than a sample of its condition (40_bounded_poll.md R98, R99). -/
theorem exec_at_pollLoop_exhausted_event (hb : budget s.platform c ≤ s.pcnt) :
    ∃ t e, exec i s = .next t ∧ t.hist = s.hist ++ [⟨s.cur.cmd.ifid, e⟩] ∧ ∀ v, e ≠ .sample c v := by
  rw [exec_at_pollLoop_exhausted hr h hb]
  obtain ⟨rfl, -, hfail⟩ | ⟨-, -, hfail⟩ | ⟨-, -, e, -, -, hfail⟩ := pollLoop_kinds h
  · exact ⟨_, .sample .af (answer .af s), congrFun hfail s, rfl, nofun⟩
  · exact ⟨_, .pdis, congrFun hfail s, rfl, nofun⟩
  · exact ⟨_, .done (.err e), congrFun hfail s, rfl, nofun⟩

end

theorem tagged_append (j : Ifid) (es fs : List Event) : tagged j (es ++ fs) = tagged j es ++ tagged j fs :=
  List.map_append

/-- The state after `k` false samples of a poll, with the rest of the answers. -/
def polled (i : Instr) (c : Cond) (k : Nat) (rest : List Bool) (s : State) : State :=
  { s with hist := s.hist ++ tagged i.ifid (List.replicate k (.sample c false)), bits := rest, pcnt := s.pcnt + k }

theorem polled_zero {s : State} (i : Instr) (c : Cond) : polled i c 0 s.bits s = s := by
  simp [polled, tagged]

theorem polled_succ (i : Instr) (c : Cond) (k : Nat) (b rest : List Bool) (s : State) :
    polled i c k rest (polled i c 1 b s) = polled i c (k + 1) rest s := by
  simp only [polled, List.append_assoc, ← tagged_append, List.replicate_append_replicate, Nat.add_assoc, Nat.add_comm 1 k]

/-- `k` false answers within the budget take `k` samples, and the poll is back at its loop test. -/
theorem execFor_polled {i : Instr} {c : Cond} {ok : Upc} {rest : List Bool} (n k : Nat) {s : State} (hr : Running i s)
    (h : pollLoop i s.upc = some (c, ok)) (hk : s.pcnt + k ≤ budget s.platform c)
    (hb : s.bits = List.replicate k false ++ rest) : execFor i (k + n) s = execFor i n (polled i c k rest s) := by
  induction k generalizing s with
  | zero =>
    cases (hb : s.bits = rest)
    rw [polled_zero, Nat.zero_add]
  | succ k ih =>
    have hx : exec i s = .next (polled i c 1 (List.replicate k false ++ rest) s) :=
      exec_at_pollLoop_sample hr h (by omega) hb
    rw [Nat.succ_add, execFor_succ hx, ← polled_succ i c k (List.replicate k false ++ rest)]
    exact ih (s := polled i c 1 _ s) ⟨hr.1, hr.2⟩ h (by rw [Nat.add_comm k 1, ← Nat.add_assoc] at hk; exact hk) rfl

/-- Settles O37: false answers lead back to the loop test, a true one past it, and at the budget the poll has failed. -/
theorem pollIsBounded : Obligations.PollIsBounded := by
  intro i s c ok rest hr h
  refine ⟨fun k hk hb => ?_, fun k hk hb => ⟨execFor_polled 0 k hr h hk.le hb, fun t ht v => ?_⟩⟩
  · have hx := exec_at_pollLoop_sample (s := polled i c k (true :: rest) s) ⟨hr.1, hr.2⟩ h hk rfl
    rw [execFor_polled 1 k hr h hk.le hb, execFor_succ hx, tagged_append, ← List.append_assoc]
    rfl
  · obtain ⟨t', e, hx, hist, he⟩ := exec_at_pollLoop_exhausted_event (s := polled i c k rest s) ⟨hr.1, hr.2⟩ h hk.ge
    rw [execFor_polled 1 k hr h hk.le hb, execFor_succ hx] at ht
    cases ht
    rw [lastEvent_of_hist hist]
    exact fun hv => he v (Option.some.inj hv)

end Sys2Proof.Machine
end

section
/-! Runs of a command whose answers are scripted: the events of a run determine the answers and bytes it takes, the memory it
leaves and the history it adds. -/

namespace Sys2Proof.Machine

/-! ### What a list of events takes and stores -/

/-- The answer an event takes off the script (10_state.md R31). -/
@[simp] def answerOf : Event → Option Bool
  | .sample _ v => some v
  | _ => none

/-- The byte an event takes off the script (10_state.md R32). -/
@[simp] def byteOf : Event → Option Byte
  | .drRead b => some b
  | _ => none

/-- The memory after an event (20_memory.md R54). -/
@[simp] def storeOf (m : Memory) : Event → Memory
  | .memWrite a b => memSet m a.toNat b
  | _ => m

def answers (es : List Event) : List Bool := es.filterMap answerOf

def received (es : List Event) : List Byte := es.filterMap byteOf

def stored (es : List Event) (m : Memory) : Memory := es.foldl storeOf m

section

@[simp] theorem answers_nil : answers [] = [] := rfl

@[simp] theorem received_nil : received [] = [] := rfl

@[simp] theorem stored_nil (m : Memory) : stored [] m = m := rfl

variable (e : Event) (es fs : List Event)

@[simp] theorem answers_cons : answers (e :: es) = (answerOf e).toList ++ answers es := by
  cases e <;> rfl

@[simp] theorem received_cons : received (e :: es) = (byteOf e).toList ++ received es := by
  cases e <;> rfl

@[simp] theorem stored_cons (m : Memory) : stored (e :: es) m = stored es (storeOf m e) := rfl

@[simp] theorem answers_append : answers (es ++ fs) = answers es ++ answers fs := List.filterMap_append

@[simp] theorem received_append : received (es ++ fs) = received es ++ received fs := List.filterMap_append

@[simp] theorem stored_append (m : Memory) : stored (es ++ fs) m = stored fs (stored es m) := List.foldl_append

end

/-! ### Runs -/

/-- The command runs from `s` to `t` with these events: no acceptance, no end, no `TIMING`. -/
structure Ran (i : Instr) (s : State) (es : List Event) (t : State) : Prop where
  steps   : execFor i es.length s = .next t
  hist    : t.hist = s.hist ++ tagged s.cur.cmd.ifid es
  mem     : t.mem = stored es s.mem
  bits    : s.bits = answers es ++ t.bits
  bytes   : s.bytes = received es ++ t.bytes
  phase   : t.phase = s.phase
  cur     : t.cur = s.cur
  cfg     : t.cfg = s.cfg
  outside : SameOutside s t

theorem execFor_add {i : Instr} {n : Nat} (m : Nat) {s t : State} (h : execFor i n s = .next t) :
    execFor i (n + m) s = execFor i m t := by
  induction n generalizing s with
  | zero =>
    cases h
    rw [Nat.zero_add]
  | succ n ih =>
    rw [Nat.succ_add]
    cases hx : exec i s with
    | next u =>
      rw [execFor_succ hx] at h ⊢
      exact ih h
    | fault r => simp only [execFor, hx, reduceCtorEq] at h
    | refused r => simp only [execFor, hx, reduceCtorEq] at h

theorem SameOutside.trans {s t u : State} (h : SameOutside s t) (k : SameOutside t u) : SameOutside s u := by
  obtain ⟨h1, h2, h3, h4, h5, h6⟩ := h
  obtain ⟨k1, k2, k3, k4, k5, k6⟩ := k
  exact ⟨k1.trans h1, k2.trans h2, k3.trans h3, k4.trans h4, k5.trans h5, k6.trans h6⟩

theorem SameOutside.platform_eq {s t : State} (h : SameOutside s t) : t.platform = s.platform := by
  obtain ⟨-, -, hp, -⟩ := h
  exact hp

section

variable {i : Instr} {s t u : State} {es fs : List Event}

theorem Ran.nil : Ran i s [] s :=
  ⟨rfl, (List.append_nil _).symm, rfl, rfl, rfl, rfl, rfl, rfl, rfl, rfl, rfl, rfl, rfl, rfl⟩

theorem Ran.trans (h : Ran i s es t) (k : Ran i t fs u) : Ran i s (es ++ fs) u where
  steps := by rw [List.length_append, execFor_add _ h.steps, k.steps]
  hist := by rw [k.hist, h.hist, h.cur, List.append_assoc, tagged_append]
  mem := by rw [k.mem, h.mem, stored_append]
  bits := by rw [h.bits, k.bits, answers_append, List.append_assoc]
  bytes := by rw [h.bytes, k.bytes, received_append, List.append_assoc]
  phase := k.phase.trans h.phase
  cur := k.cur.trans h.cur
  cfg := k.cfg.trans h.cfg
  outside := h.outside.trans k.outside

theorem Ran.running (h : Ran i s es t) (hr : Running i s) : Running i t := ⟨h.phase.trans hr.1, h.cur ▸ hr.2⟩

/-! ### Runs from a script -/

/-- Where the scripts begin with the answers and bytes of these events, the command runs with them to a state with `P`, and
the rest of the scripts is left. -/
def Plays (i : Instr) (s : State) (es : List Event) (P : State → Prop) : Prop :=
  ∀ rest more, s.bits = answers es ++ rest → s.bytes = received es ++ more →
    ∃ t, Ran i s es t ∧ t.bits = rest ∧ t.bytes = more ∧ P t

variable {P Q : State → Prop}

theorem Plays.nil (h : P s) : Plays i s [] P := fun _ _ hb hy => ⟨s, .nil, hb, hy, h⟩

theorem Ran.plays (h : Ran i s es t) (k : Plays i t fs Q) : Plays i s (es ++ fs) Q := by
  intro rest more hb hy
  rw [answers_append, h.bits, List.append_assoc] at hb
  rw [received_append, h.bytes, List.append_assoc] at hy
  obtain ⟨u, hu, hend⟩ := k rest more (List.append_cancel_left hb) (List.append_cancel_left hy)
  exact ⟨u, h.trans hu, hend⟩

theorem Plays.append (h : Plays i s es P) (k : ∀ t, Ran i s es t → P t → Plays i t fs Q) : Plays i s (es ++ fs) Q := by
  intro rest more hb hy
  rw [answers_append, List.append_assoc] at hb
  rw [received_append, List.append_assoc] at hy
  obtain ⟨t, ht, -, -, hP⟩ := h _ _ hb hy
  refine ht.plays (k t ht hP) rest more ?_ ?_
  · rw [answers_append, List.append_assoc, hb]
  · rw [received_append, List.append_assoc, hy]

/-! ### The kinds of step -/

/-- The event takes nothing off a script, writes no memory. -/
def quiet (e : Event) : Bool :=
  match e with
  | .sample _ _ | .drRead _ | .memWrite _ _ => false
  | _ => true

theorem did_plays {e : Event} {nxt : Upc} (hx : exec i s = .next (did e nxt s)) (he : quiet e = true)
    (k : Plays i (did e nxt s) es Q) : Plays i s (e :: es) Q := by
  have h : Ran i s [e] (did e nxt s) := by
    refine ⟨execFor_succ hx 0, rfl, ?_, ?_, ?_, rfl, rfl, rfl, rfl, rfl, rfl, rfl, rfl, rfl⟩
    all_goals
      cases e with
      | sample c v | drRead b | memWrite a b => exact Bool.noConfusion he
      | _ => rfl
  exact h.plays k

/-- The sequencer with other values of `rem` and `idx`: the arithmetic before an action. -/
def counting (r x : Count) (s : State) : State := { s with rem := r, idx := x }

/-- The state after one sample with this answer. -/
def answered (c : Cond) (v : Bool) (b : List Bool) (nxt : Upc) (s : State) : State :=
  { did (.sample c v) nxt s with bits := b }

/-- A single sample, by its answer. -/
theorem asked_plays {c : Cond} {yes no : Upc} {r x : Count} (v : Bool)
    (hx : exec i s = .next (asked c (if answer c (counting r x s) then yes else no) (counting r x s)))
    (k : ∀ b, Plays i (answered c v b (if v then yes else no) (counting r x s)) es Q) :
    Plays i s (.sample c v :: es) Q := by
  intro rest more hb hy
  have hv : s.bits = v :: (answers es ++ rest) := hb
  rw [asked, answer_cons c (counting r x s) v _ hv] at hx
  have h : Ran i s [.sample c v] (answered c v s.bits.tail (if v then yes else no) (counting r x s)) :=
    ⟨execFor_succ hx 0, rfl, rfl, by rw [hv]; rfl, rfl, rfl, rfl, rfl, rfl, rfl, rfl, rfl, rfl, rfl⟩
  exact h.plays (k _) rest more hb hy

/-- The state after a poll's `k` false samples and a true one. -/
def passed (i : Instr) (c : Cond) (k : Nat) (b : List Bool) (ok : Upc) (s : State) : State :=
  { s with
    hist := s.hist ++ tagged i.ifid (List.replicate k (.sample c false) ++ [.sample c true]),
    bits := b, pcnt := k + 1, upc := ok }

/-- The sequencer at a poll's loop test, before the first sample. -/
def polling (loop : Upc) (s : State) : State := { s with upc := loop, pcnt := 0 }

/-- The first action of a poll is the poll at its loop point with `pcnt` at 0 (40_bounded_poll.md R90). -/
theorem firstSample_eq_exec {c : Cond} {loop ok : Upc} {fail : State → Step} (hr : Running i s)
    (hl : pollLoop i loop = some (c, ok)) (h0 : 0 < budget s.platform c) :
    firstSample c loop ok fail s = exec i (polling loop s) :=
  (if_pos h0).trans ((pollsAt_of_pollLoop (s := polling loop s) hr hl rfl).1 h0).symm

theorem execFor_polling {c : Cond} {loop ok : Upc} {k : Nat} {b : List Bool} (hr : Running i s)
    (hl : pollLoop i loop = some (c, ok)) (hk : k < budget s.platform c)
    (hb : s.bits = List.replicate k false ++ true :: b) :
    execFor i (k + 1) (polling loop s) = .next (passed i c k b ok s) := by
  rw [(pollIsBounded i (polling loop s) c ok b hr hl).1 k ((Nat.zero_add k).symm ▸ hk) hb]
  simp only [polling, passed, Nat.zero_add]

theorem execFor_congr {n : Nat} (h : exec i s = exec i t) : execFor i (n + 1) s = execFor i (n + 1) t := by
  simp only [execFor, h]

@[simp] theorem answers_falses (c : Cond) (k : Nat) : answers (List.replicate k (.sample c false)) = List.replicate k false := by
  induction k with
  | zero => rfl
  | succ k ih => exact congrArg (false :: ·) ih

@[simp] theorem received_falses (c : Cond) (k : Nat) : received (List.replicate k (.sample c false)) = [] := by
  induction k with
  | zero => rfl
  | succ k ih => exact ih

@[simp] theorem stored_falses (c : Cond) (k : Nat) (m : Memory) : stored (List.replicate k (.sample c false)) m = m := by
  induction k with
  | zero => rfl
  | succ k ih => exact ih

section

variable {c : Cond} {loop ok : Upc} {fail : State → Step} {r x : Count} {k : Nat} {b : List Bool} (hr : Running i s)
  (hx : exec i s = firstSample c loop ok fail (counting r x s)) (hl : pollLoop i loop = some (c, ok))
include hr hx hl

/-- A poll whose answer at sample `k + 1` is the first true one. -/
theorem ran_poll (hk : k < budget s.platform c) (hb : s.bits = List.replicate k false ++ true :: b) :
    Ran i s (List.replicate k (.sample c false) ++ [.sample c true]) (passed i c k b ok (counting r x s)) := by
  have hloop := hx.trans (firstSample_eq_exec (s := counting r x s) hr hl (Nat.zero_lt_of_lt hk))
  have hrun := execFor_polling (s := counting r x s) hr hl hk hb
  refine ⟨?_, ?_, ?_, ?_, ?_, rfl, rfl, rfl, rfl, rfl, rfl, rfl, rfl, rfl⟩
  · rw [List.length_append, List.length_replicate, List.length_singleton, execFor_congr hloop, hrun]
  · rw [hr.2]
    rfl
  · rw [stored_append, stored_falses]
    rfl
  · rw [answers_append, answers_falses, hb, List.append_assoc]
    rfl
  · rw [received_append, received_falses]
    rfl

/-- A poll with a true sample within its budget. -/
theorem poll_plays (k : Nat) (hk : k < budget s.platform c)
    (next : ∀ b, Plays i (passed i c k b ok (counting r x s)) es Q) :
    Plays i s (List.replicate k (.sample c false) ++ .sample c true :: es) Q := by
  intro rest more hb hy
  have hb' := hb
  rw [answers_append, answers_falses, List.append_assoc] at hb'
  exact List.append_cons _ _ es ▸ (ran_poll hr hx hl hk hb').plays (next _) rest more
    (List.append_cons _ _ es ▸ hb) (List.append_cons _ _ es ▸ hy)

/-- A poll true at its first sample. -/
theorem sample_plays (h0 : 0 < budget s.platform c) (next : ∀ b, Plays i (passed i c 0 b ok (counting r x s)) es Q) :
    Plays i s (.sample c true :: es) Q :=
  poll_plays hr hx hl 0 h0 next

/-- A poll with only false samples is at the end of its budget. -/
theorem failedPoll_plays (h0 : 0 < budget s.platform c)
    (next : ∀ t, t.upc = loop → budget t.platform c ≤ t.pcnt → Running i t → P t) :
    Plays i s (List.replicate (budget s.platform c) (.sample c false)) P := by
  intro rest more hb hy
  rw [answers_falses] at hb
  rw [received_falses] at hy
  have hloop := hx.trans (firstSample_eq_exec (s := counting r x s) hr hl h0)
  have hrun := ((pollIsBounded i (polling loop (counting r x s)) c ok rest hr hl).2 (budget s.platform c)
    (Nat.zero_add _) hb).1
  refine ⟨polled i c (budget s.platform c) rest (polling loop (counting r x s)),
    ⟨?_, ?_, ?_, ?_, ?_, rfl, rfl, rfl, rfl, rfl, rfl, rfl, rfl, rfl⟩, rfl, hy, next _ rfl (Nat.zero_add _).ge hr⟩
  · obtain ⟨n, hn⟩ := Nat.exists_eq_succ_of_ne_zero h0.ne'
    rw [List.length_replicate]
    rw [hn] at hrun ⊢
    exact (execFor_congr hloop).trans hrun
  · rw [hr.2]
    rfl
  · rw [stored_falses]
    rfl
  · rw [answers_falses, hb]
    rfl
  · rw [received_falses]
    rfl

end

/-! ### Whole runs -/

theorem ended_runs {r : Result} {n : Nat} (h : execFor i n s = .next t) (hend : exec i t = .next (ended r t)) :
    execFor i (n + 1) s = .next (ended r t) :=
  (execFor_add 1 h).trans (execFor_succ hend 0)

section

variable {r : Result} {rest : List Bool} {more : List Byte} (hp : s.phase = .idle) (hw : i.wellFormed s.hz s.buf = true)
include hp hw

/-- A command that is accepted, runs with the events `es` and then ends. -/
theorem Plays.completes (h : Plays i (accepted i s) es fun t => exec i t = .next (ended r t))
    (hb : s.bits = answers es ++ rest) (hy : s.bytes = received es ++ more) :
    ∃ t, execFor i (es.length + 2) s = .next t ∧ RunLeaves s t i.ifid (.accept (encode i) :: es ++ [.done r]) r ∧
      t.bits = rest ∧ t.bytes = more ∧ t.mem = stored es s.mem ∧ t.cfg = s.cfg := by
  obtain ⟨t, hran, hrest, hmore, hend⟩ := h rest more hb hy
  have hacc := execFor_succ (exec_of_wellFormed hp hw) es.length
  refine ⟨ended r t, ended_runs (hacc.trans hran.steps) hend, ⟨rfl, rfl, ?_, hran.outside⟩, hrest, hmore, hran.mem,
    hran.cfg⟩
  simp only [ended, hran.hist, hran.cur, accepted_hist, accepted_cur, List.append_assoc, List.cons_append, tagged,
    List.map_cons, List.map_append, List.map_nil, List.nil_append]

end

end

end Sys2Proof.Machine
end

section
/-! Whole runs of the lifecycle commands and of GENSTOP (41_lifecycle.md R110, R113, R116; 42_write.md R145). -/

namespace Sys2Proof.Machine

/-- CLOSE and GENSTOP have no operand that could lack a meaning (30_encoding.md R76). -/
theorem wellFormed_of_not_uses {i : Instr} (hz : i.usesHz = false) (hb : i.usesBuf = false) (z b : Word) :
    i.wellFormed z b = true := by
  cases i with
  | close f | genStop f => rfl
  | openIf f | setFreq f => exact Bool.noConfusion hz
  | write f | read f | writeRaw f => exact Bool.noConfusion hb

theorem running_accepted (i : Instr) (s : State) : Running i (accepted i s) := ⟨rfl, rfl⟩

/-! ### CLOSE (41_lifecycle.md R116) -/

section

variable {f : Fields} {s : State} (hn : f.ifid.toNat < s.platform.nIf)
include hn

theorem close_plays (k : Nat) (hk : k < s.platform.longBudget) : Plays (.close f) (accepted (.close f) s)
    (List.replicate k (.sample .idle false) ++ [.sample .idle true, .pdis])
    fun t => exec (.close f) t = .next (ended (.ok 0) t) := by
  refine poll_plays (running_accepted _ s) (exec_close_entry ⟨rfl, rfl⟩ rfl hn) rfl k hk fun b => ?_
  refine did_plays (exec_close_closeDisable ⟨rfl, rfl⟩ rfl) rfl (.nil ?_)
  exact exec_close_finishOk ⟨rfl, rfl⟩ rfl

theorem close_plays_timeout (h0 : 1 ≤ s.platform.longBudget) : Plays (.close f) (accepted (.close f) s)
    (List.replicate s.platform.longBudget (.sample .idle false) ++ [.pdis])
    fun t => exec (.close f) t = .next (ended (.err .timeoutIdle) t) := by
  refine (failedPoll_plays (P := fun t => exec (.close f) t = .next (did .pdis .closeTimeout t)) (running_accepted _ s)
    (exec_close_entry ⟨rfl, rfl⟩ rfl hn) rfl h0 fun t hu hk hr => ?_).append fun t ht hx => ?_
  · exact (pollsAt_of_pollLoop hr rfl hu).2 hk
  · exact did_plays hx rfl (.nil (exec_close_closeTimeout ⟨(ht.running ⟨rfl, rfl⟩).1, (ht.running ⟨rfl, rfl⟩).2⟩ rfl))

end

/-- Settles O42: `PDIS` follows the idle poll, passed or failed. -/
theorem closeRunsToCompletion : Obligations.CloseRunsToCompletion := by
  intro f s rest hp hn
  have hw : (Instr.close f).wellFormed s.hz s.buf = true := wellFormed_of_not_uses rfl rfl _ _
  refine ⟨fun k hk hb => ?_, fun h0 hb => ?_⟩
  · obtain ⟨t, hrun, hleaves, hbits, -, hmem, hcfg⟩ := (close_plays hn k hk).completes hp hw (rest := rest)
      (more := s.bytes) (by simpa using hb) (by simp)
    exact ⟨t, by simpa using hrun, by simpa [Instr.ifid, Instr.fields] using hleaves, hbits, by simpa using hmem, hcfg⟩
  · obtain ⟨t, hrun, hleaves, hbits, -, hmem, hcfg⟩ := (close_plays_timeout hn h0).completes hp hw (rest := rest)
      (more := s.bytes) (by simpa using hb) (by simp)
    exact ⟨t, by simpa using hrun, by simpa [Instr.ifid, Instr.fields] using hleaves, hbits, by simpa using hmem, hcfg⟩

/-! ### GENSTOP (42_write.md R145) -/

section

variable {f : Fields} {s : State} (hn : f.ifid.toNat < s.platform.nIf)
include hn

theorem genStop_plays (k : Nat) (hk : k < s.platform.shortBudget) : Plays (.genStop f) (accepted (.genStop f) s)
    (.stop :: List.replicate k (.sample .stopclr false) ++ [.sample .stopclr true])
    fun t => exec (.genStop f) t = .next (ended (.ok 0) t) := by
  refine did_plays (exec_genStop_entry (running_accepted _ s) rfl hn) rfl ?_
  refine poll_plays (i := .genStop f) ⟨rfl, rfl⟩ (exec_genStop_stopStart ⟨rfl, rfl⟩ rfl) rfl k hk fun b => .nil ?_
  exact exec_genStop_finishOk ⟨rfl, rfl⟩ rfl

theorem genStop_plays_timeout (h0 : 1 ≤ s.platform.shortBudget) : Plays (.genStop f) (accepted (.genStop f) s)
    (.stop :: List.replicate s.platform.shortBudget (.sample .stopclr false))
    fun t => exec (.genStop f) t = .next (ended (.err .timeoutStopclr) t) := by
  refine did_plays (exec_genStop_entry (running_accepted _ s) rfl hn) rfl ?_
  refine failedPoll_plays (i := .genStop f) ⟨rfl, rfl⟩ (exec_genStop_stopStart ⟨rfl, rfl⟩ rfl) rfl h0
    fun t hu hk hr => ?_
  exact (pollsAt_of_pollError hr rfl rfl hu).2 hk

end

/-- Settles O43: the stop, and the poll for it passed or failed. -/
theorem genStopRunsToCompletion : Obligations.GenStopRunsToCompletion := by
  intro f s rest hp hn
  have hw : (Instr.genStop f).wellFormed s.hz s.buf = true := wellFormed_of_not_uses rfl rfl _ _
  refine ⟨fun k hk hb => ?_, fun h0 hb => ?_⟩
  · obtain ⟨t, hrun, hleaves, hbits, -, hmem, hcfg⟩ := (genStop_plays hn k hk).completes hp hw (rest := rest)
      (more := s.bytes) (by simpa using hb) (by simp)
    exact ⟨t, by simpa using hrun, by simpa [Instr.ifid, Instr.fields] using hleaves, hbits, by simpa using hmem, hcfg⟩
  · obtain ⟨t, hrun, hleaves, hbits, -, hmem, hcfg⟩ := (genStop_plays_timeout hn h0).completes hp hw (rest := rest)
      (more := s.bytes) (by simpa using hb) (by simp)
    exact ⟨t, by simpa using hrun, by simpa [Instr.ifid, Instr.fields] using hleaves, hbits, by simpa using hmem, hcfg⟩

/-! ### SETFREQ_BODY (41_lifecycle.md R113) -/

/-- A command that uses `HZ` and comes to its `TIMING`. -/
theorem Plays.completes_timing {i : Instr} {s : State} {es : List Event} {rest : List Bool} {more : List Byte}
    (hp : s.phase = .idle) (hz : i.usesHz = true) (h0 : s.hz ≠ 0)
    (h : Plays i (accepted i s) es fun t => t.upc = .freqTiming)
    (hb : s.bits = answers es ++ rest) (hy : s.bytes = received es ++ more) :
    ∃ t, execFor i (es.length + 3) s = .next t ∧
      RunLeaves s t i.ifid (.accept (encode i) :: es ++ [.timing s.hz, .done (.ok 0)]) (.ok 0) ∧
      t.bits = rest ∧ t.mem = stored es s.mem ∧
      ∀ j : Ifid, t.cfg[j.toNat]? = if j = i.ifid then some (some s.hz) else s.cfg[j.toNat]? := by
  obtain ⟨t, hran, hrest, -, hu⟩ := h rest more hb hy
  have hr : Running i t := hran.running (running_accepted i s)
  have hacc := execFor_succ (exec_of_wellFormed hp (wellFormed_of_usesHz hz h0 s.buf)) es.length
  obtain ⟨u, hx, hframe, hcfg⟩ := exec_freqTiming_cfg hr hz hu
  have hrun := (execFor_add 1 (hacc.trans hran.steps)).trans (execFor_succ hx 0)
  have hend : exec i u = .next (ended (.ok 0) u) := by
    rw [hframe]
    exact exec_freq_finishOk hr hz rfl
  refine ⟨ended (.ok 0) u, ended_runs hrun hend, ⟨rfl, rfl, ?_, ?_⟩, ?_, ?_, ?_⟩
  · rw [hframe]
    simp only [ended, did, hran.hist, hran.cur, accepted_hist, accepted_cur, List.append_assoc, List.cons_append, tagged,
      List.map_cons, List.map_append, List.map_nil, List.nil_append]
  · rw [hframe]
    exact hran.outside
  · rw [hframe]
    exact hrest
  · rw [hframe]
    exact hran.mem
  · rw [hran.cur, hran.cfg] at hcfg
    exact hcfg

/-! ### SETFREQ -/

section

variable {f : Fields} {s : State} (hn : f.ifid.toNat < s.platform.nIf)
include hn

/-- The first action of SETFREQ up to the maximum frequency. -/
theorem exec_setFreq_accepted (hle : s.hz.toNat ≤ s.platform.maxHz) :
    exec (.setFreq f) (accepted (.setFreq f) s) =
      firstSample .idle .freqPoll .freqTiming (endsErr .timeoutIdle) (accepted (.setFreq f) s) :=
  (exec_setFreq_entry (running_accepted _ s) rfl hn).trans (freqCheck_of_le_maxHz hle)

theorem setFreq_plays_timeout (hle : s.hz.toNat ≤ s.platform.maxHz) (h0 : 1 ≤ s.platform.longBudget) :
    Plays (.setFreq f) (accepted (.setFreq f) s) (List.replicate s.platform.longBudget (.sample .idle false))
      fun t => exec (.setFreq f) t = .next (ended (.err .timeoutIdle) t) :=
  failedPoll_plays (running_accepted _ s) (exec_setFreq_accepted hn hle) rfl h0
    fun _ hu hk hr => (pollsAt_of_pollError hr rfl rfl hu).2 hk

end

/-- Settles O41: the frequency check fails, the idle poll passes, or it fails. -/
theorem setFreqRunsToCompletion : Obligations.SetFreqRunsToCompletion := by
  intro f s rest hp h0 hn
  have hw : (Instr.setFreq f).wellFormed s.hz s.buf = true := wellFormed_of_usesHz rfl h0 s.buf
  refine ⟨fun hlt => ?_, fun k hle hk hb => ?_, fun hle hl hb => ?_⟩
  · have hend : exec (.setFreq f) (accepted (.setFreq f) s) = .next (ended (.err .argHzMax) (accepted (.setFreq f) s)) :=
      (exec_setFreq_entry (running_accepted _ s) rfl hn).trans (freqCheck_of_maxHz_lt hlt)
    obtain ⟨t, hrun, hleaves, hbits, -, hmem, hcfg⟩ := (Plays.nil hend).completes hp hw (rest := s.bits)
      (more := s.bytes) rfl rfl
    exact ⟨t, hrun, hleaves, hcfg, hmem, hbits⟩
  · obtain ⟨t, hrun, hleaves, hbits, hmem, hcfg⟩ := (poll_plays (running_accepted (.setFreq f) s)
      (exec_setFreq_accepted hn hle) rfl k hk fun b => .nil rfl).completes_timing hp rfl h0 (rest := rest)
      (more := s.bytes) (by simpa using hb) (by simp)
    exact ⟨t, by simpa using hrun, by simpa [Instr.ifid, Instr.fields] using hleaves, hbits, by simpa using hmem, hcfg⟩
  · obtain ⟨t, hrun, hleaves, hbits, -, hmem, hcfg⟩ := (setFreq_plays_timeout hn hle hl).completes hp hw (rest := rest)
      (more := s.bytes) (by simpa using hb) (by simp)
    exact ⟨t, by simpa using hrun, by simpa [Instr.ifid, Instr.fields] using hleaves, hbits, by simpa using hmem, hcfg⟩

/-! ### OPEN (41_lifecycle.md R110) -/

theorem open_plays {f : Fields} {s : State} (hn : f.ifid.toNat < s.platform.nIf) (hle : s.hz.toNat ≤ s.platform.maxHz)
    (k : Nat) (hk : k < s.platform.longBudget) : Plays (.openIf f) (accepted (.openIf f) s)
      (.clken :: .prst :: .pins :: List.replicate k (.sample .idle false) ++ [.sample .idle true])
      fun t => t.upc = .freqTiming := by
  refine did_plays (exec_openIf_entry (running_accepted _ s) rfl hn) rfl ?_
  refine did_plays (exec_openIf_openReset ⟨rfl, rfl⟩ rfl) rfl ?_
  refine did_plays (exec_openIf_openPins ⟨rfl, rfl⟩ rfl) rfl ?_
  exact poll_plays (i := .openIf f) ⟨rfl, rfl⟩
    ((exec_openIf_freqBody ⟨rfl, rfl⟩ rfl).trans (freqCheck_of_le_maxHz hle)) rfl k hk fun _ => .nil rfl

/-- Settles O39: three primitives, the idle poll, and `TIMING`. -/
theorem openRunsToCompletion : Obligations.OpenRunsToCompletion := by
  intro f s k rest hp h0 hn hle hk hb
  obtain ⟨t, hrun, hleaves, hbits, hmem, hcfg⟩ := (open_plays hn hle k hk).completes_timing hp rfl h0 (rest := rest)
    (more := s.bytes) (by simpa using hb) (by simp)
  exact ⟨t, by simpa using hrun, by simpa [Instr.ifid, Instr.fields] using hleaves, hbits, by simpa using hmem, hcfg⟩

end Sys2Proof.Machine
end

section
/-! Whole runs of WRITE and WRITERAW (42_write.md R130 to R137, R140): the start and address phase, then the loop of DATA_OUT
by its recursion in the statements' own event list. -/

namespace Sys2Proof.Machine

/-! ### The start and address phase (42_write.md R130, 43_read.md R160) -/

/-- The events of the phase, every poll true at its first sample. -/
def addressEvents (a : SlaveAddr) (dir : Bool) : List Event :=
  [.clearAf, .start, .sample .sb true, .drWrite (addressByte a dir), .sample .addr true]

theorem addressPhase_addrByte {dir : Bool} {done : Upc} {s : State} (hu : s.upc = .addrByte) :
    addressPhase dir done s = .next (did (.drWrite (addressByte s.cur.cmd.addr dir)) .addrStart s) := by
  simp only [addressPhase, hu, sendAddress, act_eq_did]

theorem address_plays {i : Instr} {dir : Bool} {done : Upc} {s : State}
    (hphase : ∀ {t u}, Running i t → t.upc = u → u ∈ addressPoints → exec i t = addressPhase dir done t)
    (hsb : pollLoop i .sbPoll = some (.sb, .addrByte)) (haddr : pollLoop i .addrPoll = some (.addr, done))
    (hr : Running i s) (hu : s.upc = .clearAf) (h0 : 1 ≤ s.platform.shortBudget) :
    Plays i s (addressEvents s.cur.cmd.addr dir) fun t => t.upc = done := by
  have hpoint {t : State} {u : Upc} {o : Step} (hr : Running i t) (hu : t.upc = u) (h : u ∈ addressPoints)
      (ho : addressPhase dir done t = o) : exec i t = o := (hphase hr hu h).trans ho
  refine did_plays (hpoint hr hu (by decide) (addressPhase_clearAf hu)) rfl ?_
  refine did_plays (hpoint (u := .start) hr rfl (by decide) (addressPhase_start rfl)) rfl ?_
  refine sample_plays hr (hpoint (u := .sbStart) hr rfl (by decide) (addressPhase_sbStart rfl)) hsb h0 fun _ => ?_
  refine did_plays (hpoint (u := .addrByte) hr rfl (by decide) (addressPhase_addrByte rfl)) rfl ?_
  exact sample_plays hr (hpoint (u := .addrStart) hr rfl (by decide) (addressPhase_addrStart rfl)) haddr h0 fun _ => .nil rfl

/-! ### Arithmetic of the transfer registers -/

theorem toNat_sub_one {r : Count} {n : Nat} (h : r.toNat = n + 1) : (r - 1).toNat = n := by bv_omega

theorem ne_zero_of_toNat {r : Count} {n : Nat} (h : r.toNat = n + 1) : r ≠ 0 := by
  rintro rfl
  exact nomatch h

theorem ofNat_succ_of_eq {x : Count} {k : Nat} (h : x = BitVec.ofNat 16 k) : x + 1 = BitVec.ofNat 16 (k + 1) := by
  rw [h, BitVec.ofNat_add]
  rfl

theorem toNat_ofNat_of_lt {n : Count} {k : Nat} (h : k < n.toNat) : (BitVec.ofNat 16 k).toNat = k := by
  rw [BitVec.toNat_ofNat, Nat.mod_eq_of_lt (h.trans n.isLt)]

/-! ### DATA_OUT (42_write.md R134 to R137) -/

/-- A WRITE or WRITERAW of `f` from the buffer `buf` in the memory `m` runs, its polls have a sample, and the reads of its
buffer are admitted. -/
structure Sending (i : Instr) (f : Fields) (m : Memory) (buf : Word) (s : State) : Prop where
  cmd     : i = .write f ∨ i = .writeRaw f
  running : Running i s
  budget  : 1 ≤ s.platform.shortBudget
  memory  : s.mem = m
  base    : s.cur.buf = buf
  admits  : ∀ j : Count, j.toNat < f.count.toNat → admitsRead s.platform (bufAddr buf j) = true

section

variable {i : Instr} {f : Fields} {m : Memory} {buf : Word} {s : State} {es : List Event} {Q : State → Prop} {k : Nat}

/-- The command is at the point with these transfer registers. -/
structure SendingAt (i : Instr) (f : Fields) (m : Memory) (buf : Word) (u : Upc) (r x : Count) (s : State) : Prop
    extends Sending i f m buf s where
  upc : s.upc = u
  rem : s.rem = r
  idx : s.idx = x

/-- A poll of DATA_OUT is WRITE's. -/
theorem pollLoop_dataOut (hi : i = .write f ∨ i = .writeRaw f) {u : Upc} (hu : u ∈ outPoints) :
    pollLoop i u = pollLoop (.write f) u := by
  obtain rfl | rfl := hi
  · rfl
  · exact (writeRaw_polls_eq_write f hu).1

/-- The state after buffer byte `k` is read. -/
def loadedByte (nxt : Upc) (k : Nat) (s : State) : State :=
  { did (.memRead (bufAddr s.cur.buf (BitVec.ofNat 16 k)) (bufByte s.mem s.cur.buf k)) nxt s with
    dat := bufByte s.mem s.cur.buf k }

theorem loadByte_plays {nxt : Upc} (hx : exec i s = loadByte s.idx nxt s) (hk : s.idx = BitVec.ofNat 16 k)
    (ha : admitsRead s.platform (bufAddr s.cur.buf s.idx) = true) (next : Plays i (loadedByte nxt k s) es Q) :
    Plays i s (.memRead (bufAddr s.cur.buf (BitVec.ofNat 16 k)) (bufByte s.mem s.cur.buf k) :: es) Q := by
  rw [loadByte_of_admitsRead nxt ha, hk] at hx
  have h : Ran i s [.memRead (bufAddr s.cur.buf (BitVec.ofNat 16 k)) (bufByte s.mem s.cur.buf k)] (loadedByte nxt k s) :=
    ⟨execFor_succ hx 0, rfl, rfl, rfl, rfl, rfl, rfl, rfl, rfl, rfl, rfl, rfl, rfl, rfl⟩
  exact h.plays next

/-- The read and the send of a byte, behind a `TXE` poll or the BTF shortcut. -/
theorem SendingAt.byte_plays {u nxt : Upc} {r x : Count} (h : SendingAt i f m buf u r x s)
    (hu : u = .outRead ∧ nxt = .outNext ∨ u = .outReadB ∧ nxt = .outNextB) (hk : x = BitVec.ofNat 16 k)
    (hlt : k < f.count.toNat) (next : ∀ t, SendingAt i f m buf nxt r x t → Plays i t es Q) :
    Plays i s (sendEvents m buf k ++ es) Q := by
  obtain ⟨⟨hi, hr, hb, rfl, rfl, hadm⟩, rfl, rfl, rfl⟩ := h
  have ha : admitsRead s.platform (bufAddr s.cur.buf s.idx) = true :=
    hadm s.idx (by rw [hk, toNat_ofNat_of_lt hlt]; exact hlt)
  obtain ⟨hu, rfl⟩ | ⟨hu, rfl⟩ := hu
  · have hx := exec_outRead hi hr (.inl hu)
    rw [if_pos hu] at hx
    refine loadByte_plays hx hk ha (did_plays (exec_outSend hi hr rfl) rfl (next _ ?_))
    exact ⟨⟨hi, hr, hb, rfl, rfl, hadm⟩, rfl, rfl, rfl⟩
  · have hx := exec_outRead hi hr (.inr hu)
    rw [if_neg (by rw [hu]; decide)] at hx
    refine loadByte_plays hx hk ha (did_plays (exec_outSendB hi hr rfl) rfl (next _ ?_))
    exact ⟨⟨hi, hr, hb, rfl, rfl, hadm⟩, rfl, rfl, rfl⟩

section

variable (h : Sending i f m buf s) {r x : Count}
include h

/-- The final `TXE` poll. -/
theorem Sending.final_plays {fail : State → Step}
    (hx : exec i s = firstSample .txe .txeFinalPoll .outAf fail (counting r x s)) :
    Plays i s [.sample .txe true] fun t => t.upc = .outAf :=
  sample_plays h.running hx (pollLoop_dataOut h.cmd (by decide)) h.budget fun _ => .nil rfl

/-- The loop's first byte: its `TXE` poll, its read and its send. -/
theorem Sending.polledByte_plays (hx : exec i s = outTop (counting r x s)) (hne : r ≠ 0) (hk : x = BitVec.ofNat 16 k)
    (hlt : k < f.count.toNat) (next : ∀ t, SendingAt i f m buf .outNext r x t → Plays i t es Q) :
    Plays i s (.sample .txe true :: (sendEvents m buf k ++ es)) Q := by
  obtain ⟨hi, hr, hb, hmem, hbuf, hadm⟩ := h
  refine sample_plays hr (hx.trans (outTop_of_rem_ne_zero hne)) (pollLoop_dataOut hi (by decide)) hb fun b => ?_
  have h' : SendingAt i f m buf .outRead r x (passed i .txe 0 b .outRead (counting r x s)) :=
    ⟨⟨hi, hr, hb, hmem, hbuf, hadm⟩, rfl, rfl, rfl⟩
  exact h'.byte_plays (.inl ⟨rfl, rfl⟩) hk hlt next

end

/-- The BTF shortcut's sample, with a byte left (42_write.md R135). -/
theorem SendingAt.shortcut_plays {r x : Count} (h : SendingAt i f m buf .outNext r x s) (hne : r - 1 ≠ 0) (v : Bool)
    (next : ∀ t, SendingAt i f m buf (if v then .outReadB else .outLoop) (r - 1) (x + 1) t → Plays i t es Q) :
    Plays i s (.sample .btf v :: es) Q := by
  obtain ⟨⟨hi, hr, hb, hmem, hbuf, hadm⟩, hu, rfl, rfl⟩ := h
  exact asked_plays (r := s.rem - 1) (x := s.idx + 1) v
    ((exec_outNext hi hr hu).trans (outShortcut_of_rem_ne_zero hne))
    fun b => next _ ⟨⟨hi, hr, hb, hmem, hbuf, hadm⟩, rfl, rfl, rfl⟩

/-- The loop of DATA_OUT from its loop test, and the final poll, for every pattern of BTF answers. -/
theorem Sending.loop_plays (btf : Nat → Bool) (k n : Nat) {s : State} (h : Sending i f m buf s) {r x : Count}
    (hx : exec i s = outTop (counting r x s)) (hr : r.toNat = n) (hk : x = BitVec.ofNat 16 k)
    (hn : k + n = f.count.toNat) :
    Plays i s (outEvents m buf btf k n ++ [.sample .txe true]) fun t => t.upc = .outAf := by
  induction k, n using outEvents.induct generalizing s r x with
  | case1 k => exact h.final_plays (hx.trans (outTop_of_rem_eq_zero (BitVec.eq_of_toNat_eq hr)))
  | case2 k =>
    have hne : r ≠ 0 := ne_zero_of_toNat hr
    refine h.polledByte_plays hx hne hk (by omega) fun t ht => ?_
    have h0 : t.rem - 1 = 0 := ht.rem ▸ BitVec.eq_of_toNat_eq (toNat_sub_one hr)
    exact ht.final_plays (exec_after_last_byte ht.cmd ht.running (.inl ht.upc) h0)
  | case3 k n ihB ih =>
    have hr1 : (r - 1).toNat = n + 1 := toNat_sub_one hr
    have hk1 : x + 1 = BitVec.ofNat 16 (k + 1) := ofNat_succ_of_eq hk
    simp only [outEvents, List.cons_append, List.append_assoc]
    refine h.polledByte_plays hx (ne_zero_of_toNat hr) hk (by omega) fun t ht => ?_
    refine ht.shortcut_plays (ne_zero_of_toNat hr1) (btf k) fun u hu => ?_
    cases hb : btf k with
    | true =>
      rw [hb, if_pos rfl] at hu
      rw [if_pos rfl, List.append_assoc]
      refine hu.byte_plays (.inr ⟨rfl, rfl⟩) hk1 (by omega) fun v hv => ?_
      obtain ⟨hsend, hupc, hrem, hidx⟩ := hv
      have hx' : exec i v = outTop (counting (r - 1 - 1) (x + 1 + 1) v) := by
        rw [exec_outNextB hsend.cmd hsend.running hupc, ← hrem, ← hidx]
        rfl
      exact ihB hsend hx' (toNat_sub_one hr1) (ofNat_succ_of_eq hk1) (by omega)
    | false =>
      rw [hb, if_neg nofun] at hu
      obtain ⟨hsend, hupc, hrem, hidx⟩ := hu
      have hx' : exec i u = outTop (counting (r - 1) (x + 1) u) := by
        rw [exec_outLoop hsend.cmd hsend.running hupc, ← hrem, ← hidx]
        rfl
      exact ih hsend hx' hr1 hk1 (by omega)

/-- The final check and the stop (42_write.md R136, R137). -/
theorem outAf_plays (hi : i = .write f ∨ i = .writeRaw f) (hr : Running i s) (hu : s.upc = .outAf)
    (h0 : 1 ≤ s.platform.shortBudget) :
    Plays i s (.sample .af false :: if f.stop then [.stop, .sample .stopclr true] else [])
      fun t => exec i t = .next (ended (.ok f.count) t) := by
  refine asked_plays (r := s.rem) (x := s.idx) false (exec_outAf hi hr hu) fun b => ?_
  have hx := exec_outStop (s := answered .af false b .outStop s) hi hr rfl
  cases hstop : f.stop with
  | true =>
    rw [hstop, if_pos rfl] at hx
    refine did_plays hx rfl ?_
    refine sample_plays (i := i) hr (exec_dataOut_stopStart hi hr rfl) (pollLoop_dataOut hi (by decide)) h0
      fun b => .nil ?_
    exact exec_dataOut_finishOk hi hr rfl
  | false =>
    rw [hstop, if_neg nofun] at hx
    exact .nil hx

/-! ### The event list of DATA_OUT -/

/-- `dataOutEvents` up to its `Done`. -/
def dataOutBody (m : Memory) (buf : Word) (btf : Nat → Bool) (f : Fields) : List Event :=
  (outEvents m buf btf 0 f.count.toNat ++ [.sample .txe true]) ++
    (.sample .af false :: if f.stop then [.stop, .sample .stopclr true] else [])

theorem dataOutEvents_eq (m : Memory) (buf : Word) (btf : Nat → Bool) (f : Fields) :
    dataOutEvents m buf btf f = dataOutBody m buf btf f ++ [.done (.ok f.count)] := by
  simp only [dataOutEvents, dataOutBody, List.append_assoc, List.cons_append, List.nil_append]

/-- From its loop test, with the registers set, to its end. -/
theorem Sending.dataOut_plays (btf : Nat → Bool) (h : Sending i f m buf s)
    (hx : exec i s = outTop (counting f.count 0 s)) :
    Plays i s (dataOutBody m buf btf f) fun t => exec i t = .next (ended (.ok f.count) t) :=
  (h.loop_plays btf 0 f.count.toNat hx rfl rfl (Nat.zero_add _)).append fun _ ht hu =>
    outAf_plays h.cmd (ht.running h.running) hu (ht.outside.platform_eq ▸ h.budget)

theorem answers_outEvents (m : Memory) (buf : Word) (btf : Nat → Bool) (k n : Nat) :
    answers (outEvents m buf btf k n) = outBits btf k n := by
  induction k, n using outEvents.induct with
  | case1 k => rfl
  | case2 k => rfl
  | case3 k n ihB ih => cases hb : btf k <;> simp [outEvents, outBits, sendEvents, hb, ihB, ih]

theorem received_outEvents (m : Memory) (buf : Word) (btf : Nat → Bool) (k n : Nat) :
    received (outEvents m buf btf k n) = [] := by
  induction k, n using outEvents.induct with
  | case1 k => rfl
  | case2 k => rfl
  | case3 k n ihB ih => cases hb : btf k <;> simp [outEvents, sendEvents, hb, ihB, ih]

theorem stored_outEvents (m : Memory) (buf : Word) (btf : Nat → Bool) (k n : Nat) :
    stored (outEvents m buf btf k n) m = m := by
  induction k, n using outEvents.induct with
  | case1 k => rfl
  | case2 k => rfl
  | case3 k n ihB ih => cases hb : btf k <;> simp [outEvents, sendEvents, hb, ihB, ih]

@[simp] theorem answers_dataOutBody (m : Memory) (buf : Word) (btf : Nat → Bool) (f : Fields) :
    answers (dataOutBody m buf btf f) = dataOutBits btf f := by
  cases hs : f.stop <;> simp [dataOutBody, dataOutBits, hs, answers_outEvents]

@[simp] theorem received_dataOutBody (m : Memory) (buf : Word) (btf : Nat → Bool) (f : Fields) :
    received (dataOutBody m buf btf f) = [] := by
  cases hs : f.stop <;> simp [dataOutBody, hs, received_outEvents]

@[simp] theorem stored_dataOutBody (m : Memory) (buf : Word) (btf : Nat → Bool) (f : Fields) :
    stored (dataOutBody m buf btf f) m = m := by
  cases hs : f.stop <;> simp [dataOutBody, hs, stored_outEvents]

end

/-! ### WRITE and WRITERAW -/

/-- Settles O45: DATA_OUT from the entry. -/
theorem writeRawRunsToCompletion : Obligations.WriteRawRunsToCompletion := by
  intro f s btf rest hp hn h0 hw hadm hb
  have hplays := Sending.dataOut_plays (i := .writeRaw f) (f := f) btf
    ⟨.inr rfl, running_accepted _ s, h0, rfl, rfl, hadm⟩
    (exec_dataOut_first (.inr rfl) (running_accepted _ s) (.inr ⟨rfl, rfl, hn⟩))
  obtain ⟨t, hrun, hleaves, hbits, -, hmem, hcfg⟩ := hplays.completes hp hw (rest := rest) (more := s.bytes)
    (by simpa using hb) (by simp)
  rw [dataOutEvents_eq]
  exact ⟨t, by simpa using hrun, hleaves, hbits, by simpa using hmem, hcfg⟩

/-- WRITE from its acceptance to DATA_OUT. -/
theorem write_plays {f : Fields} {s : State} (hn : f.ifid.toNat < s.platform.nIf) (h0 : 1 ≤ s.platform.shortBudget) :
    Plays (.write f) (accepted (.write f) s) (.pos false :: (addressEvents f.addr false ++ [.sr1, .sr2]))
      fun t => t.upc = .outInit := by
  refine did_plays (exec_write_entry (running_accepted _ s) rfl hn) rfl ?_
  refine (address_plays (i := .write f) (s := did (.pos false) .clearAf (accepted (.write f) s)) (fun hr => exec_write_address hr)
    rfl rfl ⟨rfl, rfl⟩ rfl h0).append fun t ht hu => ?_
  have hr : Running (.write f) t := ht.running ⟨rfl, rfl⟩
  exact did_plays (exec_write_wrSr1 hr hu) rfl (did_plays (exec_write_wrSr2 ⟨hr.1, hr.2⟩ rfl) rfl (.nil rfl))

theorem writeEvents_eq (f : Fields) :
    writeEvents f = .accept (encode (.write f)) :: .pos false :: (addressEvents f.addr false ++ [.sr1, .sr2]) := rfl

/-- Settles O44: the start and address phase, then DATA_OUT. -/
theorem writeRunsToCompletion : Obligations.WriteRunsToCompletion := by
  intro f s btf rest hp hn h0 hw hadm hb
  have hplays := (write_plays hn h0).append (fs := dataOutBody s.mem s.buf btf f)
    (Q := fun t => exec (.write f) t = .next (ended (.ok f.count) t)) fun t ht hu => by
      have hr := ht.running (running_accepted _ s)
      refine Sending.dataOut_plays btf ⟨.inl rfl, hr, ?_, ht.mem, ?_, ?_⟩ (exec_dataOut_first (.inl rfl) hr (.inl ⟨rfl, hu⟩))
      · rw [ht.outside.platform_eq]
        exact h0
      · rw [ht.cur]
        rfl
      · rw [ht.outside.platform_eq]
        exact hadm
  obtain ⟨t, hrun, hleaves, hbits, -, hmem, hcfg⟩ := hplays.completes hp hw (rest := rest) (more := s.bytes)
    (by simpa [addressEvents] using hb) (by simp [addressEvents])
  rw [dataOutEvents_eq, writeEvents_eq]
  exact ⟨t, by simpa [addressEvents] using hrun, by simpa [addressEvents, Instr.ifid, Instr.fields] using hleaves, hbits,
    by simpa [addressEvents] using hmem, hcfg⟩

end Sys2Proof.Machine
end

section
/-! Whole runs of READ (43_read.md R160 to R164): the three sub-protocols, READ_N by the recursion of the statements' own event
list. -/

namespace Sys2Proof.Machine

/-- A READ of `f` into the buffer `buf` on the platform `p` runs, its polls have a sample, and the writes of its buffer are
admitted. -/
structure Receiving (f : Fields) (p : Platform) (buf : Word) (s : State) : Prop where
  running  : Running (.read f) s
  platform : s.platform = p
  base     : s.cur.buf = buf
  polls    : 1 ≤ p.shortBudget
  admits   : ∀ j : Count, j.toNat < f.count.toNat → admitsWrite p (bufAddr buf j) = true

/-- The command is at the point with these transfer registers. -/
structure ReceivingAt (f : Fields) (p : Platform) (buf : Word) (u : Upc) (r x : Count) (s : State) : Prop
    extends Receiving f p buf s where
  upc : s.upc = u
  rem : s.rem = r
  idx : s.idx = x

section

variable {f : Fields} {p : Platform} {buf : Word} {s : State} {es : List Event} {Q : State → Prop} {u nxt : Upc}
  {r x : Count} {k : Nat}

/-- The registers at the point are those of the state. -/
theorem ReceivingAt.eq_counting (h : ReceivingAt f p buf u r x s) : s = counting r x s := by
  rw [← h.rem, ← h.idx]
  rfl

/-! ### Steps of READ -/

theorem ReceivingAt.did_plays {e : Event} (h : ReceivingAt f p buf u r x s)
    (hx : exec (.read f) s = .next (did e nxt s)) (he : quiet e = true)
    (next : ∀ t, ReceivingAt f p buf nxt r x t → Plays (.read f) t es Q) : Plays (.read f) s (e :: es) Q := by
  obtain ⟨⟨hr, hp, hbuf, hb, hadm⟩, -, hrem, hidx⟩ := h
  exact Machine.did_plays hx he (next _ ⟨⟨hr, hp, hbuf, hb, hadm⟩, rfl, hrem, hidx⟩)

/-- A primitive of the table. -/
theorem ReceivingAt.primitive_plays {e : Event} (h : ReceivingAt f p buf u r x s) (hu : readPrimitive u = some (e, nxt))
    (he : quiet e = true) (next : ∀ t, ReceivingAt f p buf nxt r x t → Plays (.read f) t es Q) :
    Plays (.read f) s (e :: es) Q :=
  h.did_plays (exec_readPrimitive h.running hu h.upc) he next

theorem Receiving.sample_plays {c : Cond} {loop : Upc} {fail : State → Step} (h : Receiving f p buf s)
    (hx : exec (.read f) s = firstSample c loop nxt fail (counting r x s)) (hl : pollLoop (.read f) loop = some (c, nxt))
    (hc : budget p c = p.shortBudget)
    (next : ∀ t, ReceivingAt f p buf nxt r x t → Plays (.read f) t es Q) : Plays (.read f) s (.sample c true :: es) Q := by
  obtain ⟨hr, rfl, hbuf, hb, hadm⟩ := h
  exact Machine.sample_plays hr hx hl (by rw [hc]; exact hb) fun b => next _ ⟨⟨hr, rfl, hbuf, hb, hadm⟩, rfl, rfl, rfl⟩

/-! ### One byte (20_memory.md R54) -/

/-- The state after the byte `b` is received. -/
def gotByte (b : Byte) (more : List Byte) (nxt : Upc) (s : State) : State :=
  { did (.drRead b) nxt s with bytes := more, dat := b }

theorem receivedAt_plays {i : Instr} (b : Byte) (hx : exec i s = .next (receivedAt nxt (counting r x s)))
    (next : ∀ more, Plays i (gotByte b more nxt (counting r x s)) es Q) : Plays i s (.drRead b :: es) Q := by
  intro rest more hb hy
  have hv : s.bytes = b :: (received es ++ more) := hy
  have hgot : receivedAt nxt (counting r x s) = gotByte b s.bytes.tail nxt (counting r x s) := by
    rw [receivedAt, answerByte_cons (counting r x s) b _ hv]
    rfl
  have h : Ran i s [.drRead b] (gotByte b s.bytes.tail nxt (counting r x s)) :=
    ⟨execFor_succ (hgot ▸ hx) 0, rfl, rfl, rfl, by rw [hv]; rfl, rfl, rfl, rfl, rfl, rfl, rfl, rfl, rfl, rfl⟩
  exact h.plays (next _) rest more hb hy

/-- The state after the byte just received is stored at buffer index `k`. -/
def storedByte (k : Count) (nxt : Upc) (s : State) : State :=
  { did (.memWrite (bufAddr s.cur.buf k) s.dat) nxt s with mem := memSet s.mem (bufAddr s.cur.buf k).toNat s.dat }

theorem storeByte_plays {i : Instr} {k : Count} (hx : exec i s = storeByte k nxt s)
    (ha : admitsWrite s.platform (bufAddr s.cur.buf k) = true) (next : Plays i (storedByte k nxt s) es Q) :
    Plays i s (.memWrite (bufAddr s.cur.buf k) s.dat :: es) Q := by
  rw [storeByte_of_admitsWrite nxt ha] at hx
  have h : Ran i s [.memWrite (bufAddr s.cur.buf k) s.dat] (storedByte k nxt s) :=
    ⟨execFor_succ hx 0, rfl, rfl, rfl, rfl, rfl, rfl, rfl, rfl, rfl, rfl, rfl, rfl, rfl⟩
  exact h.plays next

/-- A byte's receipt and its store at `BUF + k`. -/
theorem Receiving.byte_plays (h : Receiving f p buf s) (b : Byte)
    (hx : exec (.read f) s = .next (receivedAt u (counting r x s)))
    (hk : ∀ s, storeIndex { counting r x s with upc := u } = some (BitVec.ofNat 16 k)) (hlt : k < f.count.toNat)
    (next : ∀ t, ReceivingAt f p buf (storeNext u) r x t → Plays (.read f) t es Q) :
    Plays (.read f) s (receiveEvents buf k b ++ es) Q := by
  obtain ⟨hr, rfl, rfl, hb, hadm⟩ := h
  refine receivedAt_plays b hx fun more => ?_
  refine storeByte_plays (exec_at_storeIndex (s := gotByte b more u (counting r x s)) hr (hk s))
    (hadm _ (by rw [toNat_ofNat_of_lt hlt]; exact hlt)) (next _ ?_)
  exact ⟨⟨hr, rfl, rfl, hb, hadm⟩, rfl, rfl, rfl⟩

/-- A receipt at a point of the table, and the store. -/
theorem ReceivingAt.byte_plays (h : ReceivingAt f p buf u r x s) (b : Byte) (hu : readReceive u = some nxt)
    (hk : ∀ s, storeIndex { counting r x s with upc := nxt } = some (BitVec.ofNat 16 k)) (hlt : k < f.count.toNat)
    (next : ∀ t, ReceivingAt f p buf (storeNext nxt) r x t → Plays (.read f) t es Q) :
    Plays (.read f) s (receiveEvents buf k b ++ es) Q :=
  h.toReceiving.byte_plays b ((exec_readReceive h.running hu h.upc).trans (by rw [← h.eq_counting])) hk hlt next

/-- The last byte, before READ_END. -/
theorem ReceivingAt.last_byte_plays (h : ReceivingAt f p buf u r x s) (b : Byte) (hu : readReceive u = some nxt)
    (hk : ∀ s, storeIndex { counting r x s with upc := nxt } = some (BitVec.ofNat 16 k)) (hlt : k < f.count.toNat)
    (hnext : storeNext nxt = .readEnd) :
    Plays (.read f) s (receiveEvents buf k b) fun t => Receiving f p buf t ∧ t.upc = .readEnd := by
  rw [← List.append_nil (receiveEvents buf k b)]
  exact h.byte_plays b hu hk hlt fun t ht => .nil ⟨ht.toReceiving, ht.upc.trans hnext⟩

/-- A stop where the command asks for one at this point, then a byte. -/
theorem ReceivingAt.stop_byte_plays {mid : Upc} {c : Prop} [Decidable c] {v : Bool} (h : ReceivingAt f p buf u r x s)
    (b : Byte) (hv : v = true ↔ c)
    (hx : exec (.read f) s = if c then .next (did .stop mid s) else .next (receivedAt nxt s))
    (hmid : readReceive mid = some nxt) (hk : ∀ s, storeIndex { counting r x s with upc := nxt } = some (BitVec.ofNat 16 k))
    (hlt : k < f.count.toNat) (next : ∀ t, ReceivingAt f p buf (storeNext nxt) r x t → Plays (.read f) t es Q) :
    Plays (.read f) s (stopEvent v ++ (receiveEvents buf k b ++ es)) Q := by
  cases v with
  | true =>
    rw [if_pos (hv.mp rfl)] at hx
    exact h.did_plays hx rfl fun t ht => ht.byte_plays b hmid hk hlt next
  | false =>
    rw [if_neg (mt hv.mpr nofun), h.eq_counting] at hx
    exact h.toReceiving.byte_plays b (h.eq_counting ▸ hx) hk hlt next

/-! ### The start and address phase (43_read.md R160) -/

/-- A run of the READ leaves it running. -/
theorem Receiving.of_ran {t : State} (h : Receiving f p buf s) (k : Ran (.read f) s es t) : Receiving f p buf t where
  running := k.running h.running
  platform := k.outside.platform_eq.trans h.platform
  base := (congrArg Cur.buf k.cur).trans h.base
  polls := h.polls
  admits := h.admits

theorem ReceivingAt.address_plays (h : ReceivingAt f p buf .clearAf r x s) :
    Plays (.read f) s (addressEvents f.addr true) fun t => t.upc = .rdSelect := by
  have hphase := Machine.address_plays (s := s) (fun hr => exec_read_address hr) rfl rfl h.running h.upc
    (h.platform ▸ h.polls)
  rw [h.running.2] at hphase
  exact hphase

/-! ### READ_1 and READ_2 (43_read.md R161, R162) -/

theorem ReceivingAt.read1_plays (h : ReceivingAt f p buf .rdSelect r x s) (h1 : f.count = 1) (a : Byte) :
    Plays (.read f) s (readBody p f.stop buf [a]) fun t => Receiving f p buf t ∧ t.upc = .readEnd := by
  have hlt : 0 < f.count.toNat := by rw [h1]; decide
  have hsr1 (t : State) (ht : ReceivingAt f p buf .r1Sr2 r x t) : Plays (.read f) t
      (.sr2 :: .sample .rxne true :: receiveEvents buf 0 a) fun t => Receiving f p buf t ∧ t.upc = .readEnd := by
    refine ht.primitive_plays rfl rfl fun t ht => ?_
    refine ht.sample_plays (r := r) (x := x) ((exec_r1Start ht.running ht.upc).trans (by rw [← ht.eq_counting])) rfl rfl
      fun t ht => ?_
    exact ht.last_byte_plays a rfl (fun _ => rfl) hlt rfl
  refine h.did_plays ((exec_rdSelect h.running h.upc).trans (if_pos h1)) rfl fun t ht => ?_
  have hx := exec_r1Stop ht.running ht.upc
  cases hs : f.stop with
  | true =>
    rw [hs, if_pos rfl] at hx
    exact ht.did_plays hx rfl fun t ht => ht.primitive_plays rfl rfl hsr1
  | false =>
    rw [hs, if_neg nofun] at hx
    exact ht.did_plays hx rfl hsr1

theorem ReceivingAt.read2_plays (h : ReceivingAt f p buf .rdSelect r x s) (h2 : f.count = 2) (a b : Byte) :
    Plays (.read f) s (readBody p f.stop buf [a, b]) fun t => Receiving f p buf t ∧ t.upc = .readEnd := by
  have hlt : 1 < f.count.toNat := by rw [h2]; decide
  refine h.did_plays ((exec_rdSelect h.running h.upc).trans ((if_neg (by rw [h2]; decide)).trans (if_pos h2))) rfl
    fun t ht => ?_
  refine ht.primitive_plays rfl rfl fun t ht => ?_
  refine ht.primitive_plays rfl rfl fun t ht => ?_
  refine ht.primitive_plays rfl rfl fun t ht => ?_
  refine ht.sample_plays (r := r) (x := x) ((exec_r2Start ht.running ht.upc).trans (by rw [← ht.eq_counting])) rfl rfl
    fun t ht => ?_
  rw [List.append_assoc]
  refine ht.stop_byte_plays a Iff.rfl (exec_r2Stop ht.running ht.upc) rfl (fun _ => rfl) (Nat.zero_lt_of_lt hlt)
    fun t ht => ?_
  exact ht.last_byte_plays b rfl (fun _ => rfl) hlt rfl

/-! ### READ_N (43_read.md R163) -/

theorem ReceivingAt.advance_eq (h : ReceivingAt f p buf u r x s) : advance s = counting (r - 1) (x + 1) s := by
  rw [← h.rem, ← h.idx]
  rfl

/-- READ_N stores at `idx`. -/
theorem storeIndex_readN (hu : u = .rnStore ∨ u = .rnStoreA ∨ u = .rnStoreB ∨ u = .rnStoreC)
    (hk : x = BitVec.ofNat 16 k) (s : State) :
    storeIndex { counting r x s with upc := u } = some (BitVec.ofNat 16 k) := by
  rw [← hk]
  obtain rfl | rfl | rfl | rfl := hu
  all_goals rfl

/-- The last three bytes, behind the two BTF waits. -/
theorem Receiving.lastThree_plays (h : Receiving f p buf s) (hx : exec (.read f) s = readTop (counting r x s))
    (hr : r.toNat = 3) (hk : x = BitVec.ofNat 16 k) (hn : k + 3 = f.count.toNat) (a b c : Byte) :
    Plays (.read f) s (readNEvents p f.stop buf k [a, b, c]) fun t => Receiving f p buf t ∧ t.upc = .readEnd := by
  have htop : ¬ 3 < (counting r x s).rem.toNat := fun h3 => Nat.lt_irrefl 3 (hr ▸ h3)
  have hk1 : x + 1 = BitVec.ofNat 16 (k + 1) := ofNat_succ_of_eq hk
  refine h.sample_plays (hx.trans ((readTop_eq_ite _).trans (if_neg htop))) rfl rfl fun t ht => ?_
  refine ht.primitive_plays rfl rfl fun t ht => ?_
  rw [List.append_assoc]
  refine ht.stop_byte_plays a ?_ (exec_rnStopA ht.running ht.upc) rfl (storeIndex_readN (by decide) hk) (by omega)
    fun t ht => ?_
  · rw [ht.platform, Bool.and_eq_true, beq_iff_eq]
  refine ht.sample_plays ((exec_rnBtfBStart ht.running ht.upc).trans (by rw [ht.advance_eq])) rfl rfl fun t ht => ?_
  rw [List.append_assoc]
  refine ht.stop_byte_plays b ?_ (exec_rnStopB ht.running ht.upc) rfl (storeIndex_readN (by decide) hk1) (by omega)
    fun t ht => ?_
  · rw [ht.platform, Bool.and_eq_true, beq_iff_eq]
  rw [← List.append_nil (receiveEvents buf (k + 2) c)]
  exact ht.toReceiving.byte_plays (u := .rnStoreC) c ((exec_rnReadC ht.running ht.upc).trans (by rw [ht.advance_eq]))
    (storeIndex_readN (by decide) (ofNat_succ_of_eq hk1)) (by omega) fun t ht => .nil ⟨ht.toReceiving, ht.upc⟩

/-- The loop of READ_N from its loop test. -/
theorem Receiving.loop_plays (k : Nat) (bs : List Byte) {s : State} (h : Receiving f p buf s) {r x : Count}
    (hx : exec (.read f) s = readTop (counting r x s)) (hr : r.toNat = bs.length) (hk : x = BitVec.ofNat 16 k)
    (hn : k + bs.length = f.count.toNat) (h3 : 3 ≤ bs.length) :
    Plays (.read f) s (readNEvents p f.stop buf k bs) fun t => Receiving f p buf t ∧ t.upc = .readEnd := by
  induction k, bs using readNEvents.induct generalizing s r x with
  | case1 k a b c => exact h.lastThree_plays hx hr hk hn a b c
  | case2 k a t ht ih =>
    have hlen : 3 ≤ t.length := by
      have hne : t.length ≠ 2 := fun h2 => by
        obtain ⟨b, c, hbc⟩ := List.length_eq_two.mp h2
        exact ht b c hbc
      rw [List.length_cons] at h3
      omega
    have htop : 3 < (counting r x s).rem.toNat := hr ▸ Nat.lt_succ_of_le hlen
    rw [List.length_cons] at hn
    rw [readNEvents]
    · refine h.sample_plays (hx.trans ((readTop_eq_ite _).trans (if_pos htop))) rfl rfl fun t ht => ?_
      refine ht.byte_plays a rfl (storeIndex_readN (by decide) hk) (by omega) fun t ht => ?_
      have hnext : exec (.read f) t = readTop (counting (r - 1) (x + 1) t) := by
        rw [exec_rnNext ht.running ht.upc, ht.advance_eq]
      exact ih ht.toReceiving hnext (toNat_sub_one hr) (ofNat_succ_of_eq hk) (by omega) hlen
    · exact ht
  | case3 k => exact absurd h3 (by decide)

theorem ReceivingAt.readN_plays (h : ReceivingAt f p buf .rdSelect r x s) {bs : List Byte} (h3 : 3 ≤ bs.length)
    (hn : bs.length = f.count.toNat) :
    Plays (.read f) s (.sr1 :: .sr2 :: readNEvents p f.stop buf 0 bs) fun t => Receiving f p buf t ∧ t.upc = .readEnd := by
  have h1 : f.count ≠ 1 := fun h1 => absurd (hn ▸ h3) (by rw [h1]; decide)
  have h2 : f.count ≠ 2 := fun h2 => absurd (hn ▸ h3) (by rw [h2]; decide)
  refine h.did_plays ((exec_rdSelect h.running h.upc).trans ((if_neg h1).trans (if_neg h2))) rfl fun t ht => ?_
  refine ht.primitive_plays rfl rfl fun t ht => ?_
  exact ht.loop_plays 0 bs (exec_rnInit ht.running ht.upc) hn.symm rfl (by rw [Nat.zero_add, hn]) h3

/-! ### The sub-protocol and the end (43_read.md R160, R164) -/

theorem ReceivingAt.readBody_plays (h : ReceivingAt f p buf .rdSelect r x s) {bs : List Byte} (h0 : f.count ≠ 0)
    (hn : bs.length = f.count.toNat) :
    Plays (.read f) s (readBody p f.stop buf bs) fun t => Receiving f p buf t ∧ t.upc = .readEnd := by
  match bs, hn with
  | [], hn => exact absurd (BitVec.eq_of_toNat_eq hn.symm) h0
  | [a], hn => exact h.read1_plays (BitVec.eq_of_toNat_eq hn.symm) a
  | [a, b], hn => exact h.read2_plays (BitVec.eq_of_toNat_eq hn.symm) a b
  | a :: b :: c :: t, hn => exact h.readN_plays (Nat.le_add_left 3 _) hn

theorem Receiving.readEnd_plays (h : Receiving f p buf s) (hu : s.upc = .readEnd) :
    Plays (.read f) s (if f.stop then [.sample .stopclr true] else [])
      fun t => exec (.read f) t = .next (ended (.ok f.count) t) := by
  have hx := exec_readEnd h.running hu
  cases hs : f.stop with
  | true =>
    rw [hs, if_pos rfl] at hx
    exact h.sample_plays (r := s.rem) (x := s.idx) hx rfl rfl fun t ht => .nil (exec_read_finishOk ht.running ht.upc)
  | false =>
    rw [hs, if_neg nofun] at hx
    exact .nil hx

/-! ### The event list of READ -/

/-- The event is no sample of a false answer. -/
@[simp] def affirms : Event → Bool
  | .sample _ v => v
  | _ => true

theorem sampleCount_cons_sample (c : Cond) (v : Bool) (es : List Event) :
    sampleCount (.sample c v :: es) = sampleCount es + 1 := by
  simp [sampleCount]

/-- A run whose samples are all true takes true answers only. -/
theorem answers_eq_replicate (h : es.all affirms = true) : answers es = List.replicate (sampleCount es) true := by
  induction es with
  | nil => rfl
  | cons e es ih =>
    rw [List.all_cons, Bool.and_eq_true] at h
    obtain ⟨he, hes⟩ := h
    cases e with
    | sample c v =>
      obtain rfl : v = true := he
      rw [answers_cons, ih hes, sampleCount_cons_sample]
      rfl
    | _ => exact ih hes

section

variable (p : Platform) (stop : Bool) (buf : Word) (k : Nat) (b : Byte) (bs : List Byte) (m : Memory)

@[simp] theorem all_affirms_receiveEvents : (receiveEvents buf k b).all affirms = true := rfl

@[simp] theorem received_receiveEvents : received (receiveEvents buf k b) = [b] := rfl

@[simp] theorem stored_receiveEvents :
    stored (receiveEvents buf k b) m = memSet m (bufAddr buf (BitVec.ofNat 16 k)).toNat b := rfl

@[simp] theorem all_affirms_stopEvent : (stopEvent stop).all affirms = true := by cases stop <;> rfl

@[simp] theorem received_stopEvent : received (stopEvent stop) = [] := by cases stop <;> rfl

@[simp] theorem stored_stopEvent : stored (stopEvent stop) m = m := by cases stop <;> rfl

theorem all_affirms_readNEvents : (readNEvents p stop buf k bs).all affirms = true := by
  induction k, bs using readNEvents.induct with
  | case1 k a b c => simp [readNEvents]
  | case2 k a t ht ih => simp [readNEvents, ih]
  | case3 k => rfl

theorem received_readNEvents : received (readNEvents p stop buf k bs) = bs := by
  induction k, bs using readNEvents.induct with
  | case1 k a b c => simp [readNEvents]
  | case2 k a t ht ih => simp [readNEvents, ih]
  | case3 k => rfl

theorem stored_readNEvents : stored (readNEvents p stop buf k bs) m = storeBytes buf k bs m := by
  induction k, bs using readNEvents.induct generalizing m with
  | case1 k a b c => simp [readNEvents, storeBytes]
  | case2 k a t ht ih => simp [readNEvents, storeBytes, ih]
  | case3 k => rfl

@[simp] theorem all_affirms_readBody : (readBody p stop buf bs).all affirms = true := by
  match bs with
  | [] => rfl
  | [a] => simp [readBody]
  | [a, b] => simp [readBody]
  | a :: b :: c :: t => simp [readBody, all_affirms_readNEvents]

@[simp] theorem received_readBody : received (readBody p stop buf bs) = bs := by
  match bs with
  | [] => rfl
  | [a] => simp [readBody]
  | [a, b] => simp [readBody]
  | a :: b :: c :: t => simp [readBody, received_readNEvents]

@[simp] theorem stored_readBody : stored (readBody p stop buf bs) m = storeBytes buf 0 bs m := by
  match bs with
  | [] => rfl
  | [a] => simp [readBody, storeBytes]
  | [a, b] => simp [readBody, storeBytes]
  | a :: b :: c :: t => simp [readBody, stored_readNEvents]

end

/-- `readEvents` between its `Accept` and its `Done`. -/
def readRun (p : Platform) (f : Fields) (buf : Word) (bs : List Byte) : List Event :=
  .pos false :: .ack true :: (addressEvents f.addr true ++ (readBody p f.stop buf bs ++
    if f.stop then [.sample .stopclr true] else []))

theorem readEvents_eq (p : Platform) (f : Fields) (buf : Word) (bs : List Byte) :
    readEvents p f buf bs = .accept (encode (.read f)) :: readRun p f buf bs ++ [.done (.ok f.count)] := by
  simp only [readEvents, readRun, addressEvents, List.append_assoc, List.cons_append, List.nil_append]

theorem sampleCount_readEvents (p : Platform) (f : Fields) (buf : Word) (bs : List Byte) :
    sampleCount (readEvents p f buf bs) = sampleCount (readRun p f buf bs) := by
  simp [readEvents_eq, sampleCount]

theorem answers_readRun (p : Platform) (f : Fields) (buf : Word) (bs : List Byte) :
    answers (readRun p f buf bs) = List.replicate (sampleCount (readEvents p f buf bs)) true := by
  rw [sampleCount_readEvents]
  refine answers_eq_replicate ?_
  cases hs : f.stop <;> simp [readRun, addressEvents, hs]

theorem received_readRun (p : Platform) (f : Fields) (buf : Word) (bs : List Byte) :
    received (readRun p f buf bs) = bs := by
  cases hs : f.stop <;> simp [readRun, addressEvents, hs]

theorem stored_readRun (p : Platform) (f : Fields) (buf : Word) (bs : List Byte) (m : Memory) :
    stored (readRun p f buf bs) m = storeBytes buf 0 bs m := by
  cases hs : f.stop <;> simp [readRun, addressEvents, hs]

end

/-! ### READ -/

/-- READ from its acceptance to its end. -/
theorem read_plays {f : Fields} {s : State} {bs : List Byte} (hn : f.ifid.toNat < s.platform.nIf)
    (h0 : 1 ≤ s.platform.shortBudget) (hne : f.count ≠ 0) (hlen : bs.length = f.count.toNat)
    (hadm : ∀ k : Count, k.toNat < f.count.toNat → admitsWrite s.platform (bufAddr s.buf k) = true) :
    Plays (.read f) (accepted (.read f) s) (readRun s.platform f s.buf bs)
      fun t => exec (.read f) t = .next (ended (.ok f.count) t) := by
  have hstart : ReceivingAt f s.platform s.buf .entry s.rem s.idx (accepted (.read f) s) :=
    ⟨⟨running_accepted _ s, rfl, rfl, h0, hadm⟩, rfl, rfl, rfl⟩
  refine hstart.did_plays ((exec_read_entry hstart.running rfl hn).trans (if_neg hne)) rfl fun t ht => ?_
  refine ht.did_plays (exec_read_setAck ht.running ht.upc) rfl fun t ht => ?_
  refine ht.address_plays.append fun u hu hupc => ?_
  have hsel : ReceivingAt f s.platform s.buf .rdSelect u.rem u.idx u := ⟨ht.of_ran hu, hupc, rfl, rfl⟩
  exact (hsel.readBody_plays hne hlen).append fun _ _ hend => hend.1.readEnd_plays hend.2

/-- Settles O46: the common part, the sub-protocol the count selects, and READ_END. -/
theorem readRunsToCompletion : Obligations.ReadRunsToCompletion := by
  intro f s bs more rest hp hn h0 hw hne hlen hadm hy hb
  obtain ⟨t, hrun, hleaves, hbits, hbytes, hmem, hcfg⟩ := (read_plays hn h0 hne hlen hadm).completes hp hw (rest := rest)
    (more := more) (by rw [answers_readRun]; exact hb) (by rw [received_readRun]; exact hy)
  rw [readEvents_eq]
  exact ⟨t, by simpa using hrun, hleaves, hbits, hbytes, hcfg, hmem.trans (stored_readRun _ _ _ _ _)⟩

end Sys2Proof.Machine
end
